-- ==== Sys2Proof/Word.lean ====
section
/-! DEFINITION. The word types of the block. No value of the block is signed (R13). -/

namespace Sys2Proof

/-- An 8-bit value: a table entry, a buffer byte, a flash byte (R31, R32, R51). -/
abbrev Byte := BitVec 8

/-- A 32-bit value: a host register word, a command word, a flash address operand (R13, R70). -/
abbrev Word := BitVec 32

end Sys2Proof
end

