-- ==== Sys2Proof/Config.lean ====
section
/-! DEFINITION. What an instance of the block fixes (the parameters of R9), the constants the spec
fixes for every instance, and the free values: opaque constants, with no body, for what the spec
leaves to a draw under no law (R124, R31) or to either order (R177). -/

namespace Sys2Proof

/-- The parameters of R9. `UNIT` and `ERASED` are fixed for every instance and stand below; the
`FaultOracle` is the state's field `oracle`, and `FLASH_INIT` (R52) is the flash a state starts with.
Addresses are exact naturals: address arithmetic never wraps (R14). -/
structure Params where
  /-- `BLOCK_BASE`: bus address of the register window. -/
  blockBase : Nat
  /-- `FLASH_BASE`: address of the array's first byte. -/
  flashBase : Nat
  /-- `FLASH_SIZE`: number of bytes in the array. -/
  flashSize : Nat
  /-- `PAGE_SIZE`: erase granule in bytes. -/
  pageSize : Nat
  /-- `USER_END`: end-of-user-area boundary, exclusive. -/
  userEnd : Nat
  /-- `RECORD_ADDR`: the record's fixed flash address. -/
  recordAddr : Nat
  /-- `NAME_LEN`: length of the record's device_name field, 9 or 10 (conflict C1). -/
  nameLen : Nat
  /-- `DEVICE_NAME`: the build-time device_name bytes, zero-padded. -/
  deviceName : List Byte
  /-- `HW_REV`. -/
  hwRev : Byte
  /-- `FW_REV`. -/
  fwRev : Byte
  deriving DecidableEq, Repr

/-- An answer of `DrawEraseFault` (R124). -/
inductive EraseDraw
  | none
  | fault
  deriving DecidableEq, Repr, Inhabited

/-- An answer of `DrawProgramFault` (R124). -/
inductive ProgramDraw
  | none
  | hwFault
  | silent
  deriving DecidableEq, Repr, Inhabited

/-- Who takes the next step: the host (or the environment), the block executing the pending command,
or the block taking a sequencer step (R15). -/
inductive Turn
  | host
  | command
  | sequencer
  deriving DecidableEq, Repr, Inhabited

/-- `UNIT`, the aligned program unit in bytes: fixed at 8 (R9). -/
abbrev Config.unit : Nat := 8

/-- `ERASED`, the erased-state byte: fixed at 0xFF (R9, R51). -/
abbrev Config.erased : Byte := 0xFF#8

/-- `DBUF_SIZE` (R10). -/
abbrev Config.dbufSize : Nat := 16

/-- The example instance that the spec uses for its vectors (D21 of 92_eei_decisions.md). No fact of
any device: `State.reset` uses it, and no statement rests on it (log entry 1). -/
def Config.exampleParams : Params where
  blockBase := 0x40025000
  flashBase := 0x08000000
  flashSize := 0x10000
  pageSize := 0x800
  userEnd := 0x08010000
  recordAddr := 0x0800F800
  nameLen := 10
  deviceName := [0x47, 0x58, 0x30, 0x31, 0, 0, 0, 0, 0, 0]
  hwRev := 1
  fwRev := 1

/-- The free value of `DrawEraseFault(p)` at the n-th draw, where no answer is listed (R124, U7). -/
opaque Config.freeEraseDraw : Nat → Nat → EraseDraw

/-- The free value of `DrawProgramFault(d)` at the n-th draw, where no answer is listed (R124, U7). -/
opaque Config.freeProgramDraw : Nat → Nat → ProgramDraw

/-- The free byte at the n-th draw for address (or table offset) x, where no answer is listed:
`DrawByte(x)` (R124, U5, U6) and a TBL read while TBL_VALID = 0 (R31, U2). -/
opaque Config.freeByte : Nat → Nat → Byte

/-- The free choice among enabled steps at the n-th draw, where no choice is listed (R177, U18). -/
opaque Config.freeTurn : Nat → Turn

/-- `REC_LEN` (R10, R130). -/
abbrev Params.recLen (p : Params) : Nat := p.nameLen + 4

/-- `CRC_SPAN` (R10, R131). -/
abbrev Params.crcSpan (p : Params) : Nat := p.recLen - 1

/-- One past the array's last address (R50). -/
abbrev Params.flashEnd (p : Params) : Nat := p.flashBase + p.flashSize

end Sys2Proof
end

