-- ==== Sys2Proof/Syntax.lean ====
section
/-! DEFINITION. The syntax of the block: its commands (one constructor per row of opcode_table.json,
R73), the registers of the host's window (R22), the host program notation (R77), and what the outside
world can do to the block (R15, R190). -/

namespace Sys2Proof

/-- The commands (R73). REC_SER has one constructor per value of its selector, as the table has two rows. -/
inductive Instr
  /-- CRC_INIT (R86) -/
  | crcInit
  /-- CRC_CLEAR (R88) -/
  | crcClear
  /-- CRC_FEED b, with b = IMM8 (R89) -/
  | crcFeed (b : Byte)
  /-- CRC_BUF (R90) -/
  | crcBuf
  /-- FL_READ (R120) -/
  | flRead
  /-- FL_ERASE (R121) -/
  | flErase
  /-- FL_PROGRAM (R122) -/
  | flProgram
  /-- REC_SER 0: the default record (R136) -/
  | recSer0
  /-- REC_SER 1: the request record (R136) -/
  | recSer1
  /-- REC_VERIFY (R138) -/
  | recVerify
  /-- SEQ_TRIGGER (R147) -/
  | seqTrigger
  deriving DecidableEq, Repr

/-- The named registers of the host's window (R22). -/
inductive Reg
  | cmd
  | status
  | addr
  | len
  | crcAcc
  | seq
  | info
  | dbuf (k : Fin 4)
  | obs (k : Fin 4)
  | int (k : Fin 4)
  | tbl (i : Fin 256)
  deriving DecidableEq, Repr

/-- The width of a bus access. Only words are admitted (R58). -/
inductive Width
  | byte
  | half
  | word
  deriving DecidableEq, Repr

/-- What the outside world can do next: a host bus access, one of the two polling loops of R77, the
assertion of the reset input (R190), or a change of one flash byte by an agent outside the block
(R155, R166). Bus addresses are absolute: the window starts at BLOCK_BASE (R22). -/
inductive Input
  /-- A bus write: address, width, value. -/
  | write (a : Nat) (w : Width) (v : Word)
  /-- A bus read: address, width. -/
  | read (a : Nat) (w : Width)
  /-- POLL: repeat RD STATUS until bit 0 (BUSY) reads 0 (R77). -/
  | poll
  /-- WAITRUN: repeat RD STATUS until bit 3 (RUN) reads 0 or bit 5 (RST_REQ) reads 1 (R77). -/
  | waitRun
  /-- The reset input becomes active (R190). -/
  | assertReset
  /-- An outside agent changes the flash byte at `a` to `b`. -/
  | outsideFlash (a : Nat) (b : Byte)
  deriving DecidableEq, Repr

/-- One line of a host program (R77). -/
inductive HostLine
  /-- `WR <REG>, <value>` -/
  | wr (r : Reg) (v : Word)
  /-- `RD <REG>` -/
  | rd (r : Reg)
  /-- `CMD <MNEMONIC> [imm]` -/
  | cmd (i : Instr)
  /-- `POLL` -/
  | poll
  /-- `WAITRUN` -/
  | waitRun
  /-- `LOADBUF b0 b1 ... b15` -/
  | loadBuf (bs : Vector Byte 16)
  deriving DecidableEq, Repr

end Sys2Proof
end

