-- ==== Sys2Proof/WellFormed.lean ====
section
/-! DEFINITION. The checks on terms that the types do not carry: the parameter constraints of R9, the
access rule of R58, and the commands (whose operand, an 8-bit immediate, is well formed by its type). -/

namespace Sys2Proof

/-- The constraints R9 puts on the parameters, one conjunct per constraint of its table. -/
abbrev Params.WellFormed (p : Params) : Prop :=
  p.blockBase % 0x800 = 0 ∧
  p.flashBase % p.pageSize = 0 ∧
  p.flashSize % p.pageSize = 0 ∧
  0 < p.flashSize ∧
  2 ^ Nat.log2 p.pageSize = p.pageSize ∧
  p.pageSize % Config.unit = 0 ∧
  p.flashBase < p.userEnd ∧
  p.userEnd ≤ p.flashEnd ∧
  p.userEnd % p.pageSize = 0 ∧
  p.recordAddr % p.pageSize = 0 ∧
  p.flashBase ≤ p.recordAddr ∧
  p.recordAddr + 16 ≤ p.userEnd ∧
  (p.nameLen = 9 ∨ p.nameLen = 10) ∧
  p.deviceName.length = p.nameLen

/-- Every command is well formed: its only operand is an 8-bit immediate taken whole (R72), and the
selector of REC_SER is part of the constructor. -/
def Instr.wellFormed : Instr → Bool
  | .crcInit => true
  | .crcClear => true
  | .crcFeed _ => true
  | .crcBuf => true
  | .flRead => true
  | .flErase => true
  | .flProgram => true
  | .recSer0 => true
  | .recSer1 => true
  | .recVerify => true
  | .seqTrigger => true

/-- A bus access the block answers: a word access at a multiple of 4 inside the 2 KiB window at
BLOCK_BASE (R22, R58). -/
abbrev admittedAccess (p : Params) (a : Nat) (w : Width) : Prop :=
  w = .word ∧ p.blockBase ≤ a ∧ a < p.blockBase + 0x800 ∧ (a - p.blockBase) % 4 = 0

/-- An input the machine can take a step on: admitted accesses, and outside changes of bytes that the
array has (R51). -/
def Input.wellFormed (p : Params) : Input → Bool
  | .write a w _ => decide (admittedAccess p a w)
  | .read a w => decide (admittedAccess p a w)
  | .poll => true
  | .waitRun => true
  | .assertReset => true
  | .outsideFlash a _ => decide (p.flashBase ≤ a ∧ a < p.flashEnd)

end Sys2Proof
end

