-- ==== Sys2Proof/Decode.lean ====
section
/-! DEFINITION. The decoder of command words (R70, R72, R73, R75, R76), total on every 32-bit word and
rejecting by name, and the encoder written from the same table (R73). A command is one 32-bit register
word; it is never laid out in bytes of memory (R71), so the decoder takes the word itself. -/

namespace Sys2Proof

/-- Why a word is ILLEGAL: the four cases of R75. Every one of them is reported as the code ILLEGAL. -/
inductive Illegal
  /-- `w[31:16] != 0` -/
  | reservedBits
  /-- `w[7:0]` is not an OP of R73 -/
  | unknownOp
  /-- the OP takes no immediate and `w[15:8] != 0` -/
  | strayImmediate
  /-- the OP is REC_SER and `w[15:8]` is not 0 or 1 -/
  | badSelector
  deriving DecidableEq, Repr

/-- The field OP, bits 7:0 (R70). -/
def Word.op (w : Word) : Byte := w.extractLsb' 0 8

/-- The field IMM8, bits 15:8, taken as an unsigned 8-bit value (R70, R72). -/
def Word.imm8 (w : Word) : Byte := w.extractLsb' 8 8

/-- The field RSV, bits 31:16 (R70). -/
def Word.rsv (w : Word) : BitVec 16 := w.extractLsb' 16 16

/-- A command whose OP takes no immediate (R75). -/
def decodeNoImm (imm : Byte) (i : Instr) : Except Illegal Instr :=
  if imm = 0#8 then .ok i else .error .strayImmediate

/-- The selector of REC_SER: 0 or 1 (R75, R136). -/
def decodeSelector (imm : Byte) : Except Illegal Instr :=
  if imm = 0#8 then .ok .recSer0
  else if imm = 1#8 then .ok .recSer1
  else .error .badSelector

/-- The opcode map of R73, for a word whose reserved bits are 0. -/
def decodeOp (op imm : Byte) : Except Illegal Instr :=
  if op = 0x01#8 then decodeNoImm imm .crcInit
  else if op = 0x02#8 then decodeNoImm imm .crcClear
  else if op = 0x03#8 then .ok (.crcFeed imm)
  else if op = 0x04#8 then decodeNoImm imm .crcBuf
  else if op = 0x10#8 then decodeNoImm imm .flRead
  else if op = 0x11#8 then decodeNoImm imm .flErase
  else if op = 0x12#8 then decodeNoImm imm .flProgram
  else if op = 0x20#8 then decodeSelector imm
  else if op = 0x21#8 then decodeNoImm imm .recVerify
  else if op = 0x30#8 then decodeNoImm imm .seqTrigger
  else .error .unknownOp

/-- Decoding is total (R75): every word is one of the commands of R73 or ILLEGAL. -/
def decode (w : Word) : Except Illegal Instr :=
  if Word.rsv w = 0#16 then decodeOp (Word.op w) (Word.imm8 w) else .error .reservedBits

/-- The OP of a command (R73). -/
def Instr.op : Instr → Byte
  | .crcInit => 0x01#8
  | .crcClear => 0x02#8
  | .crcFeed _ => 0x03#8
  | .crcBuf => 0x04#8
  | .flRead => 0x10#8
  | .flErase => 0x11#8
  | .flProgram => 0x12#8
  | .recSer0 => 0x20#8
  | .recSer1 => 0x20#8
  | .recVerify => 0x21#8
  | .seqTrigger => 0x30#8

/-- The IMM8 of a command (R73): the data byte of CRC_FEED, the selector of REC_SER, else 0. -/
def Instr.imm8 : Instr → Byte
  | .crcInit => 0
  | .crcClear => 0
  | .crcFeed b => b
  | .crcBuf => 0
  | .flRead => 0
  | .flErase => 0
  | .flProgram => 0
  | .recSer0 => 0
  | .recSer1 => 1
  | .recVerify => 0
  | .seqTrigger => 0

/-- The command word of R73: RSV = 0, IMM8, OP. -/
def encode (i : Instr) : Word := 0#16 ++ i.imm8 ++ i.op

/-- The command the decoder reads from the table's word `w` of `nbits` bits (bit 0 the least
significant); every bit above `nbits` is 0, and a command has 32 bits (R71). -/
def decodeTableWord (nbits w : Nat) : Option Instr :=
  match decode (BitVec.ofNat 32 (w % 2 ^ nbits)) with
  | .ok i => some i
  | .error _ => none

end Sys2Proof
end

