-- ==== Sys2Proof/Machine/State.lean ====
section
/-! DEFINITION. The state of the block (R20), of the flash array (R51), and, as the model's own plain
data, of what the spec makes external: the oracle's answers, the schedule, the host's next actions. -/

namespace Sys2Proof.Machine

/-- The outcome codes of R170. Codes 14 and 15 are reserved and never produced: they have no constructor. -/
inductive Code
  | ok
  | readZero
  | readRange
  | eraseRange
  | eraseHw
  | writeHw
  | writeVerify
  | writeRange
  | align
  | checksum
  | notInit
  | busy
  | illegal
  | badLen
  deriving DecidableEq, Repr

/-- The events of R159. -/
inductive Event
  /-- EV_ERASE_OK -/
  | eraseOk
  /-- EV_CRC_FAIL -/
  | crcFail
  /-- EV_SUCCESS -/
  | success
  deriving DecidableEq, Repr

/-- The flash array's contents as (address, byte) pairs in one canonical form (`Memory.wf` of
Machine/Memory.lean): addresses strictly rising, no byte equal to `ERASED`, which is what an unlisted
address reads as (log entry 2). -/
abbrev Memory := List Host.Cell

/-- MODEL'S OWN. The answers the `FaultOracle` of R124 will give, oldest first, one list per kind of
draw. Where a list is used up, the answer is NONE for the no-fault oracle (`noFault`), else the opaque
free value of Config at the counter `drawn` (log entry 5). -/
structure Oracle where
  eraseAnswers : List EraseDraw
  programAnswers : List ProgramDraw
  byteAnswers : List Byte
  noFault : Bool
  drawn : Nat
  deriving DecidableEq, Repr

/-- The whole machine: the block's registers (R20, R24-R35), its event history (R37), the flash array
(R51), the instance's parameters (R9), and the model's own fields. -/
structure State where
  /-- The parameters of R9: fixed for the machine, changed by no step. -/
  params : Params
  /-- STATUS.BUSY (R24) -/
  busy : Bool
  /-- STATUS.TBL_VALID (R24) -/
  tblValid : Bool
  /-- STATUS.LOCK (R24) -/
  lock : Bool
  /-- STATUS.RUN (R24, R36) -/
  run : Bool
  /-- STATUS.VOK (R24) -/
  vok : Bool
  /-- STATUS.RST_REQ (R24, R161) -/
  rstReq : Bool
  /-- STATUS.OVR (R24, R175) -/
  ovr : Bool
  /-- STATUS.ERR (R24, R170) -/
  err : Code
  /-- ADDR (R26) -/
  addr : Word
  /-- LEN (R27) -/
  len : BitVec 5
  /-- CRC_ACC (R28) -/
  crcAcc : Byte
  /-- SEQ.STATE (R29): any of 0..7 -/
  seqState : BitVec 3
  /-- SEQ.SEQ_ERR (R29, R160) -/
  seqErr : Code
  /-- DBUF (R32) -/
  dbuf : Vector Byte 16
  /-- OBS (R33) -/
  obs : Vector Byte 16
  /-- INT (R33) -/
  intd : Vector Byte 16
  /-- T (R31) -/
  table : Vector Byte 256
  /-- PEND (R35) -/
  pend : Word
  /-- EVENTS, oldest first (R37) -/
  events : List Event
  /-- the flash array (R51) -/
  flash : Memory
  /-- the reset input is active and not yet acted on (R190) -/
  resetPin : Bool
  /-- MODEL'S OWN: the host's and the environment's next actions (log entry 6) -/
  inputs : List Input
  /-- MODEL'S OWN: the words host reads have returned, oldest first (log entry 6) -/
  readLog : List Word
  /-- MODEL'S OWN: who moves next where several steps are enabled (log entry 7) -/
  sched : List Turn
  /-- MODEL'S OWN: the oracle's answers (log entry 5) -/
  oracle : Oracle
  deriving DecidableEq, Repr

/-- Why the machine has no step. No command raises one: these belong to the host's and the
environment's inputs. -/
inductive Fault
  /-- A bus access that is not 32 bits wide: the host is stuck at it (R58). Raised by the step that
  takes the access. Safe: the model stops where hardware might go on. -/
  | narrowAccess
  /-- A 32-bit bus access at an offset that is not a multiple of 4: the host is stuck at it (R58).
  Raised by the step that takes the access. Safe. -/
  | unalignedAccess
  /-- A bus access outside the window 0x000..0x7FC at BLOCK_BASE (R22): it is not this block's.
  Raised by the step that takes the access. Safe. -/
  | outsideWindow
  /-- An outside agent's change of a byte at an address the flash array does not have (R51).
  Raised by the step that takes the input. Safe. -/
  | outsideArray
  deriving DecidableEq, Repr

/-- Why an instruction has no meaning in the model. -/
inductive Refusal
  /-- An instruction whose meaning is not written; raised by an arm of `exec` only, and by none now. Safe. -/
  | notModelled (mnemonic : String)
  deriving DecidableEq, Repr

/-- What a step answers. -/
abbrev Result := Host.Outcome State Fault Refusal

/-- The block after its reset (R43, R190), over an instance's parameters and a flash array, with nothing
waiting outside. T and PEND have no reset value in the spec: zero is a DESIGN CHOICE that no rule can
see (log entries 3 and 4). -/
def State.resetOf (p : Params) (flash : Memory) : State where
  params := p
  busy := false
  tblValid := false
  lock := true
  run := false
  vok := false
  rstReq := false
  ovr := false
  err := .ok
  addr := 0
  len := 0
  crcAcc := 0
  seqState := 0
  seqErr := .ok
  dbuf := Vector.replicate 16 0
  obs := Vector.replicate 16 0
  intd := Vector.replicate 16 0
  table := Vector.replicate 256 0
  pend := 0
  events := []
  flash := flash
  resetPin := false
  inputs := []
  readLog := []
  sched := []
  oracle := { eraseAnswers := [], programAnswers := [], byteAnswers := [], noFault := false, drawn := 0 }

/-- The machine right after its first power-on reset: the example instance (log entry 1), nothing
listed in the flash array (log entry 2). -/
def State.reset : State := State.resetOf Config.exampleParams []

end Sys2Proof.Machine
end

