-- ==== Sys2Proof/Machine/Draws.lean ====
section
/-! DEFINITION. The draws of the `FaultOracle` (R124): each reads the next listed answer, or the
no-fault answer, or the opaque free value of Config, and advances the counter (log entry 5). -/

namespace Sys2Proof.Machine

/-- The counter of draws moves on, so that a later free value is another one. -/
def Oracle.tick (o : Oracle) : Oracle := { o with drawn := o.drawn + 1 }

/-- `DrawEraseFault(p)` (R124). -/
def Oracle.drawErase (o : Oracle) (p : Nat) : EraseDraw × Oracle :=
  match o.eraseAnswers with
  | a :: rest => (a, { o.tick with eraseAnswers := rest })
  | [] => (if o.noFault then .none else Config.freeEraseDraw o.drawn p, o.tick)

/-- `DrawProgramFault(d)` (R124). -/
def Oracle.drawProgram (o : Oracle) (d : Nat) : ProgramDraw × Oracle :=
  match o.programAnswers with
  | a :: rest => (a, { o.tick with programAnswers := rest })
  | [] => (if o.noFault then .none else Config.freeProgramDraw o.drawn d, o.tick)

/-- `DrawByte(x)` (R124): under no law, for the no-fault oracle too. -/
def Oracle.drawByte (o : Oracle) (x : Nat) : Byte × Oracle :=
  match o.byteAnswers with
  | b :: rest => (b, { o.tick with byteAnswers := rest })
  | [] => (Config.freeByte o.drawn x, o.tick)

/-- `DrawByte` for each of the `n` addresses from `a`, in increasing order. -/
def Oracle.drawBytes : Oracle → Nat → Nat → List Byte × Oracle
  | o, _, 0 => ([], o)
  | o, a, n + 1 =>
    let d := o.drawByte a
    let ds := Oracle.drawBytes d.2 (a + 1) n
    (d.1 :: ds.1, ds.2)

/-- The no-fault oracle of R124: every answer to `DrawEraseFault` and `DrawProgramFault` is NONE. -/
abbrev Oracle.Quiet (o : Oracle) : Prop :=
  o.noFault = true ∧ (∀ a ∈ o.eraseAnswers, a = .none) ∧ (∀ a ∈ o.programAnswers, a = .none)

end Sys2Proof.Machine
end

