-- ==== Sys2Proof/Machine/Memory.lean ====
section
/-! DEFINITION. The flash array as a map from addresses to bytes (R51), in canonical form: reading a
byte, writing a byte, setting a range to `ERASED` (R54) and writing a run of bytes (R55). -/

namespace Sys2Proof.Machine

/-- The canonical form: addresses strictly rising, and no listed byte equal to what an unlisted address
reads as. Equal arrays are then equal lists. -/
abbrev Memory.wf (m : Memory) : Prop :=
  m.Pairwise (fun c d => c.1 < d.1) ∧ ∀ c ∈ m, c.2 ≠ Config.erased

/-- Every listed address lies in `lo ..< hi`. -/
abbrev Memory.within (m : Memory) (lo hi : Nat) : Prop := ∀ c ∈ m, lo ≤ c.1 ∧ c.1 < hi

/-- `Flash(a)` (R51): an unlisted address reads as `ERASED` (log entry 2). -/
def Memory.read : Memory → Nat → Byte
  | [], _ => Config.erased
  | (k, b) :: rest, a => if k = a then b else Memory.read rest a

/-- The cell list with address `a` first, dropped where the byte is what an unlisted address reads as. -/
def Memory.cons (a : Nat) (b : Byte) (rest : Memory) : Memory :=
  if b = Config.erased then rest else (a, b) :: rest

/-- `Flash(a) <- b`. -/
def Memory.write : Memory → Nat → Byte → Memory
  | [], a, b => Memory.cons a b []
  | (k, v) :: rest, a, b =>
    if a < k then Memory.cons a b ((k, v) :: rest)
    else if a = k then Memory.cons a b rest
    else (k, v) :: Memory.write rest a b

/-- `Flash(a + i) <- bs[i]` for every byte of `bs` (R55, R56). -/
def Memory.writeBytes : Memory → Nat → List Byte → Memory
  | m, _, [] => m
  | m, a, b :: bs => Memory.writeBytes (Memory.write m a b) (a + 1) bs

/-- `Flash(x) <- ERASED` for every address x of `a ..< a + n` (R54): those addresses are no longer listed. -/
def Memory.clear (m : Memory) (a n : Nat) : Memory :=
  m.filter fun c => decide (c.1 < a ∨ a + n ≤ c.1)

/-- `[Flash(a), ..., Flash(a + n - 1)]` (R53). -/
def Memory.readBytes (m : Memory) (a n : Nat) : List Byte :=
  (List.range n).map fun i => Memory.read m (a + i)

end Sys2Proof.Machine
end

