-- ==== Sys2Proof/Machine/Operands.lean ====
section
/-! DEFINITION. Every operand form of the commands (R72): the immediate is the constructor's own byte;
the implicit operands ADDR, LEN and DBUF are read when the command executes; and the byte lanes by which
the host sees a buffer as words (R32, R56). -/

namespace Sys2Proof.Machine

/-- The operand ADDR as an exact address (R14, R26). -/
def State.addrOperand (s : State) : Nat := s.addr.toNat

/-- The operand LEN as a count (R27). -/
def State.lenOperand (s : State) : Nat := s.len.toNat

/-- `B[0 .. n)` of a 16-byte buffer (R11). -/
def bufferPrefix (b : Vector Byte 16) (n : Nat) : List Byte := b.toList.take n

/-- The operand DBUF[0 .. LEN) (R90, R122). -/
def State.dbufOperand (s : State) : List Byte := bufferPrefix s.dbuf s.lenOperand

/-- `B[0 .. n) <- bytes`, the other bytes of the buffer unchanged (R120, R136, R150). -/
def loadBuffer (b : Vector Byte 16) (bytes : List Byte) : Vector Byte 16 :=
  Vector.ofFn fun i => bytes.getD i.val b[i]

/-- Byte lane j of a word: bits 8j+7 : 8j (R56). -/
def wordLane (v : Word) (j : Nat) : Byte := v.extractLsb' (8 * j) 8

/-- Word k of a buffer: bytes 4k .. 4k+3, byte 4k in bits 7:0 (R32, R56). -/
def bufferWord (b : Vector Byte 16) (k : Fin 4) : Word :=
  b[4 * k.val + 3] ++ b[4 * k.val + 2] ++ b[4 * k.val + 1] ++ b[4 * k.val]

/-- The buffer after the host writes its word k (R32, R40). -/
def setBufferWord (b : Vector Byte 16) (k : Fin 4) (v : Word) : Vector Byte 16 :=
  Vector.ofFn fun i => if i.val / 4 = k.val then wordLane v (i.val % 4) else b[i]

end Sys2Proof.Machine
end

