-- ==== Sys2Proof/Machine/Flags.lean ====
section
/-! DEFINITION. The codes as numbers (R170, R159), the registers the host reads as words (STATUS R24,
SEQ R29, INFO R30), the ordered checks of a command (R172), and the end of every command (R74). -/

namespace Sys2Proof.Machine

/-- The number of an outcome code (R170). -/
def Code.toNat : Code → Nat
  | .ok => 0
  | .readZero => 1
  | .readRange => 2
  | .eraseRange => 3
  | .eraseHw => 4
  | .writeHw => 5
  | .writeVerify => 6
  | .writeRange => 7
  | .align => 8
  | .checksum => 9
  | .notInit => 10
  | .busy => 11
  | .illegal => 12
  | .badLen => 13

/-- The outcome code as the 4-bit field ERR or SEQ_ERR (R24, R29). -/
def Code.bits (c : Code) : BitVec 4 := BitVec.ofNat 4 c.toNat

/-- The number of an event (R159). -/
def Event.toNat : Event → Nat
  | .eraseOk => 1
  | .crcFail => 2
  | .success => 3

/-- STATUS (R24): ERR in bits 11:8, OVR 6, RST_REQ 5, VOK 4, RUN 3, LOCK 2, TBL_VALID 1, BUSY 0; reserved bits 0. -/
def State.statusWord (s : State) : Word :=
  0#20 ++ s.err.bits ++ 0#1 ++ BitVec.ofBool s.ovr ++ BitVec.ofBool s.rstReq ++ BitVec.ofBool s.vok
    ++ BitVec.ofBool s.run ++ BitVec.ofBool s.lock ++ BitVec.ofBool s.tblValid ++ BitVec.ofBool s.busy

/-- SEQ (R29): SEQ_ERR in bits 11:8, STATE in bits 2:0; reserved bits 0. -/
def State.seqWord (s : State) : Word := 0#20 ++ s.seqErr.bits ++ 0#5 ++ s.seqState

/-- INFO (R30): UNIT in bits 23:16, REC_LEN in bits 15:8, the version 1 in bits 7:0. -/
def State.infoWord (s : State) : Word :=
  0#8 ++ BitVec.ofNat 8 Config.unit ++ BitVec.ofNat 8 s.params.recLen ++ 0x01#8

/-- The commands that use the CRC table (R172, check 3). -/
def usesTable : Instr → Bool
  | .crcInit => false
  | .crcClear => false
  | .crcFeed _ => true
  | .crcBuf => true
  | .flRead => false
  | .flErase => false
  | .flProgram => false
  | .recSer0 => true
  | .recSer1 => true
  | .recVerify => true
  | .seqTrigger => true

/-- The commands that use LEN as a count of buffer bytes (R172, check 4). -/
def usesLen : Instr → Bool
  | .crcInit => false
  | .crcClear => false
  | .crcFeed _ => false
  | .crcBuf => true
  | .flRead => true
  | .flErase => false
  | .flProgram => true
  | .recSer0 => false
  | .recSer1 => false
  | .recVerify => false
  | .seqTrigger => false

/-- `Check(w)` for a word that is a command (R172): BUSY, then NOT_INIT, then BADLEN. Check 2, ILLEGAL,
is `rejectIllegal`: it stands for the words that are no command. -/
def State.check (s : State) (i : Instr) : Code :=
  if s.run = true ∨ s.rstReq = true then .busy
  else if usesTable i = true ∧ s.tblValid = false then .notInit
  else if usesLen i = true ∧ Config.dbufSize < s.lenOperand then .badLen
  else .ok

/-- The end of every command execution: `STATUS.ERR <- code; STATUS.BUSY <- 0` (R74). -/
def State.finish (s : State) (c : Code) : State := { s with err := c, busy := false }

/-- Command execution (R74): the checks, then, where they pass, the command's own rule. -/
def runCommand (i : Instr) (perform : State → Code × State) (s : State) : Result :=
  match s.check i with
  | .ok => .next ((perform s).2.finish (perform s).1)
  | c => .next (s.finish c)

/-- The execution of a word that is no command (R172, checks 1 and 2; R75). -/
def rejectIllegal (s : State) : State :=
  s.finish (if s.run = true ∨ s.rstReq = true then .busy else .illegal)

end Sys2Proof.Machine
end

