-- ==== Sys2Proof/Machine/Ops.lean ====
section
/-! DEFINITION. The operations that commands and sequencer steps share: the CRC table and checksum
(R85, R87), the flash primitives and the operations `Read`, `Erase` and `Program` (R53-R55, R102-R119),
the record's serializer and verifier (R134, R135), and the reset (R190). The block has no traps: nothing
is saved, no handler runs and there is no return (R171, R178), so no operation here takes an exception;
an error is a code, and `State.finish` of Machine/Flags.lean records it. -/

namespace Sys2Proof.Machine

/-! ### CRC -/

/-- One of the 8 rounds of R85: bit 7 is tested before the shift. -/
def crcRound (c : Byte) : Byte := if c.getLsbD 7 then (c <<< 1) ^^^ 0x07#8 else c <<< 1

/-- The table value for `i` (R85). -/
def crcEntry (i : Byte) : Byte :=
  crcRound (crcRound (crcRound (crcRound (crcRound (crcRound (crcRound (crcRound i)))))))

/-- The table CRC_INIT builds (R85, R86). -/
def crcTable : Vector Byte 256 := Vector.ofFn fun i => crcEntry (BitVec.ofFin i)

/-- One fold step: `T[acc ^ b]` (R87, R89). -/
def crcStep (t : Vector Byte 256) (acc b : Byte) : Byte := t[(acc ^^^ b).toFin]

/-- The fold of a byte list from an accumulator (R87, R92). -/
def crcFold (t : Vector Byte 256) (acc : Byte) (bs : List Byte) : Byte := bs.foldl (crcStep t) acc

/-- `crc8(B)` (R87): the fold from 0. -/
def crc8 (t : Vector Byte 256) (bs : List Byte) : Byte := crcFold t 0 bs

/-! ### Flash primitives -/

/-- `STATUS.LOCK <- 0` (R102). -/
def State.unlock (s : State) : State := { s with lock := false }

/-- `STATUS.LOCK <- 1` (R102). -/
def State.relock (s : State) : State := { s with lock := true }

/-- `page(a) = (a - FLASH_BASE) div PAGE_SIZE` (R14, R110). -/
def Params.pageOf (p : Params) (a : Nat) : Nat := (a - p.flashBase) / p.pageSize

/-- The first address of page n (R51). -/
def Params.pageAddr (p : Params) (n : Nat) : Nat := p.flashBase + n * p.pageSize

/-- `FlashRead(a, n)` (R53). -/
def State.flashRead (s : State) (a n : Nat) : List Byte := s.flash.readBytes a n

/-- `FlashErasePage(n)` (R54). While LOCK = 1 the array is locked against it (R24, log entry 10). -/
def State.flashErasePage (s : State) (n : Nat) : State :=
  if s.lock then s
  else { s with flash := s.flash.clear (Params.pageAddr s.params n) s.params.pageSize }

/-- `FlashWriteUnit(a, u)` (R55). While LOCK = 1 the array is locked against it (R24, log entry 10). -/
def State.flashWriteUnit (s : State) (a : Nat) (u : List Byte) : State :=
  if s.lock then s else { s with flash := s.flash.writeBytes a u }

/-- `Flash(x) <- DrawByte(x)` for the `n` addresses from `a`: what a fault leaves (R110, R114).
While LOCK = 1 the array is locked against it (R24, log entry 10). -/
def State.flashDrawBytes (s : State) (a n : Nat) : State :=
  if s.lock then s
  else { s with flash := s.flash.writeBytes a (s.oracle.drawBytes a n).1,
                oracle := (s.oracle.drawBytes a n).2 }

/-! ### Read -/

/-- `Read(a, n)` (R104). The sums are exact (R14). -/
def State.readOp (s : State) (a n : Nat) : Code × List Byte :=
  if n = 0 then (.readZero, [])
  else if a < s.params.flashBase ∨ s.params.flashEnd < a + n then (.readRange, [])
  else (.ok, s.flashRead a n)

/-! ### Erase -/

/-- The loop of R110 over `n` pages from page `p`, in increasing order, with its exits. -/
def eraseLoop : Nat → Nat → State → Code × State
  | 0, _, s => (.ok, s)
  | n + 1, p, s =>
    let d := s.oracle.drawErase p
    let s1 : State := { s with oracle := d.2 }
    match d.1 with
    | .none => eraseLoop n (p + 1) (s1.flashErasePage p)
    | .fault => (.eraseHw, s1.flashDrawBytes (Params.pageAddr s.params p) s.params.pageSize)

/-- `Erase(start)` (R110), inside the lock bracket (R102). -/
def State.eraseOp (s : State) (start : Nat) : Code × State :=
  if start < s.params.flashBase ∨ s.params.userEnd ≤ start then (.eraseRange, s)
  else if (start - s.params.flashBase) % s.params.pageSize ≠ 0 then (.align, s)
  else
    let first := Params.pageOf s.params start
    let r := eraseLoop (Params.pageOf s.params s.params.userEnd - first) first s.unlock
    (r.1, r.2.relock)

/-! ### Program -/

/-- The k-th unit of S: its bytes, then `ERASED` up to `UNIT` (R114, R119). -/
def unitAt (bs : List Byte) (k : Nat) : List Byte :=
  (List.range Config.unit).map fun j => bs.getD (Config.unit * k + j) Config.erased

/-- The `ceil(n / UNIT)` units of S (R114). -/
def unitsOf (bs : List Byte) : List (List Byte) :=
  (List.range ((bs.length + (Config.unit - 1)) / Config.unit)).map (unitAt bs)

/-- A unit every byte of which is `ERASED` (R116). -/
def erasedUnit : List Byte := List.replicate Config.unit Config.erased

/-- What one unit's programming leaves in the array, by the oracle's answer (R114): the unit on NONE,
drawn bytes on a fault, reported or silent. -/
def State.programUnit (s : State) (f : ProgramDraw) (d : Nat) (u : List Byte) : State :=
  match f with
  | .none => s.flashWriteUnit d u
  | .hwFault => s.flashDrawBytes d Config.unit
  | .silent => s.flashDrawBytes d Config.unit

/-- The loop of R114 over the units from destination `d`, with its exits: the end-of-area stop (R118),
the unit that is not erased (R116), the reported fault, and the read-back mismatch (R117). -/
def programLoop : List (List Byte) → Nat → State → Code × State
  | [], _, s => (.ok, s)
  | u :: us, d, s =>
    if s.params.userEnd < d + Config.unit then (.writeRange, s)
    else if s.flashRead d Config.unit ≠ erasedUnit then (.writeHw, s)
    else
      let f := s.oracle.drawProgram d
      let s1 : State := { s with oracle := f.2 }
      let s2 := s1.programUnit f.1 d u
      if f.1 = .hwFault then (.writeHw, s2)
      else if s2.flashRead d Config.unit ≠ u then (.writeVerify, s2)
      else programLoop us (d + Config.unit) s2

/-- `Program(d0, S)` (R114), inside the lock bracket (R102). -/
def State.programOp (s : State) (d0 : Nat) (bs : List Byte) : Code × State :=
  if d0 < s.params.flashBase then (.writeRange, s)
  else if d0 % Config.unit ≠ 0 then (.align, s)
  else if bs.length = 0 then (.ok, s)
  else
    let r := programLoop (unitsOf bs) d0 s.unlock
    (r.1, r.2.relock)

/-! ### The record -/

/-- The record's bytes before its checksum (R130, R134). -/
def recordBody (p : Params) (flag : Byte) : List Byte :=
  p.deviceName.take p.nameLen ++ [p.hwRev, p.fwRev, flag]

/-- `serialize(flag)` (R134). -/
def serialize (p : Params) (t : Vector Byte 256) (flag : Byte) : List Byte :=
  recordBody p flag ++ [crc8 t (recordBody p flag)]

/-- `verify(B)` (R135): only the checksum is checked. -/
def verify (p : Params) (t : Vector Byte 256) (bs : List Byte) : Bool :=
  crc8 t (bs.take p.crcSpan) == bs.getD p.crcSpan 0

/-! ### Reset -/

/-- The reset of R190: every register takes its reset value, PEND is discarded, a run is abandoned, the
event history is empty; the flash array keeps its contents (R52), and what is outside the block goes on. -/
def resetEvent (s : State) : State :=
  { State.resetOf s.params s.flash with
    inputs := s.inputs, readLog := s.readLog, sched := s.sched, oracle := s.oracle }

end Sys2Proof.Machine
end

