-- ==== Sys2Proof/Machine/Crc.lean ====
section
/-! DEFINITION. The CRC family: CRC_INIT, CRC_CLEAR, CRC_FEED, CRC_BUF (40_crc.md). -/

namespace Sys2Proof.Machine

/-- CRC_INIT's own rule (R86): the whole table, TBL_VALID; CRC_ACC is not changed. -/
def performCrcInit (s : State) : Code × State := (.ok, { s with table := crcTable, tblValid := true })

/-- CRC_INIT (R86). -/
def execCrcInit (s : State) : Result := runCommand .crcInit performCrcInit s

/-- CRC_CLEAR's own rule (R88). -/
def performCrcClear (s : State) : Code × State := (.ok, { s with crcAcc := 0 })

/-- CRC_CLEAR (R88). -/
def execCrcClear (s : State) : Result := runCommand .crcClear performCrcClear s

/-- CRC_FEED's own rule (R89). -/
def performCrcFeed (b : Byte) (s : State) : Code × State :=
  (.ok, { s with crcAcc := crcStep s.table s.crcAcc b })

/-- CRC_FEED b (R89). -/
def execCrcFeed (b : Byte) (s : State) : Result := runCommand (.crcFeed b) (performCrcFeed b) s

/-- CRC_BUF's own rule (R90): the fold starts from 0 whatever CRC_ACC held. -/
def performCrcBuf (s : State) : Code × State := (.ok, { s with crcAcc := crc8 s.table s.dbufOperand })

/-- CRC_BUF (R90). -/
def execCrcBuf (s : State) : Result := runCommand .crcBuf performCrcBuf s

end Sys2Proof.Machine
end

