-- ==== Sys2Proof/Machine/Flash.lean ====
section
/-! DEFINITION. The flash family: FL_READ, FL_ERASE, FL_PROGRAM (41_flash.md). -/

namespace Sys2Proof.Machine

/-- FL_READ's own rule (R120): DBUF[0..LEN) on OK; no byte of DBUF on an error. -/
def performFlRead (s : State) : Code × State :=
  ((s.readOp s.addrOperand s.lenOperand).1,
   { s with dbuf := loadBuffer s.dbuf (s.readOp s.addrOperand s.lenOperand).2 })

/-- FL_READ (R120). -/
def execFlRead (s : State) : Result := runCommand .flRead performFlRead s

/-- FL_ERASE's own rule (R121). -/
def performFlErase (s : State) : Code × State := s.eraseOp s.addrOperand

/-- FL_ERASE (R121). -/
def execFlErase (s : State) : Result := runCommand .flErase performFlErase s

/-- FL_PROGRAM's own rule (R122). -/
def performFlProgram (s : State) : Code × State := s.programOp s.addrOperand s.dbufOperand

/-- FL_PROGRAM (R122). -/
def execFlProgram (s : State) : Result := runCommand .flProgram performFlProgram s

end Sys2Proof.Machine
end

