-- ==== Sys2Proof/Machine/Record.lean ====
section
/-! DEFINITION. The record family: REC_SER 0, REC_SER 1, REC_VERIFY (42_record.md). -/

namespace Sys2Proof.Machine

/-- REC_SER's own rule (R136): DBUF[0..REC_LEN) and LEN; no flash, OBS or INT (R137). -/
def performRecSer (flag : Byte) (s : State) : Code × State :=
  (.ok, { s with dbuf := loadBuffer s.dbuf (serialize s.params s.table flag),
                 len := BitVec.ofNat 5 s.params.recLen })

/-- REC_SER 0: the default record (R136). -/
def execRecSer0 (s : State) : Result := runCommand .recSer0 (performRecSer 0) s

/-- REC_SER 1: the request record (R136). -/
def execRecSer1 (s : State) : Result := runCommand .recSer1 (performRecSer 1) s

/-- REC_VERIFY's own rule (R138); LEN is not read. -/
def performRecVerify (s : State) : Code × State :=
  let good := verify s.params s.table (bufferPrefix s.dbuf s.params.recLen)
  (if good then .ok else .checksum, { s with vok := good })

/-- REC_VERIFY (R138). -/
def execRecVerify (s : State) : Result := runCommand .recVerify performRecVerify s

end Sys2Proof.Machine
end

