-- ==== Sys2Proof/Machine/Sequencer.lean ====
section
/-! DEFINITION. The sequencer family: the command SEQ_TRIGGER and the sequencer steps (43_sequencer.md). -/

namespace Sys2Proof.Machine

/-- SEQ_TRIGGER's own rule (R147): STATE is not changed. -/
def performSeqTrigger (s : State) : Code × State := (.ok, { s with run := true, seqErr := .ok })

/-- SEQ_TRIGGER (R147). -/
def execSeqTrigger (s : State) : Result := runCommand .seqTrigger performSeqTrigger s

/-- `emit(EV)` (R12, R37). -/
def State.emit (s : State) (e : Event) : State := { s with events := s.events ++ [e] }

/-- The Read step (R150). -/
def seqRead (s : State) : State :=
  let r := s.readOp s.params.recordAddr s.params.recLen
  if r.1 = .ok then { s with seqErr := r.1, obs := loadBuffer s.obs r.2, seqState := 1#3 }
  else { s with seqErr := r.1 }

/-- The Erase step (R151). -/
def seqErase (s : State) : State :=
  let r := s.eraseOp s.params.recordAddr
  let s1 : State := { r.2 with seqErr := r.1 }
  if r.1 = .ok then { s1.emit .eraseOk with seqState := 2#3 } else s1

/-- `INT[0 .. REC_LEN) <- serialize(flag)`, then `Program(RECORD_ADDR, INT[0 .. REC_LEN))` and
`SEQ_ERR <- code`: what R152 and R158 share. The outcome is the code. -/
def programRecord (flag : Byte) (s : State) : Code × State :=
  let s1 : State := { s with intd := loadBuffer s.intd (serialize s.params s.table flag) }
  let r := s1.programOp s.params.recordAddr (bufferPrefix s1.intd s.params.recLen)
  (r.1, { r.2 with seqErr := r.1 })

/-- The Write step (R152). -/
def seqWrite (s : State) : State :=
  let r := programRecord 1 s
  if r.1 = .ok then { r.2 with seqState := 3#3 } else r.2

/-- The Check step (R154): OBS is not compared with INT. -/
def seqCheck (s : State) : State :=
  let bytes := (s.readOp s.params.recordAddr s.params.recLen).2
  let s1 : State := { s with obs := loadBuffer s.obs bytes }
  if verify s.params s.table bytes then { s1 with seqErr := .ok, seqState := 4#3 }
  else { s1.emit .crcFail with seqErr := .checksum }

/-- The End step (R156). -/
def seqEnd (s : State) : State :=
  { s.emit .success with seqState := 0#3, run := false, rstReq := true }

/-- The Default-Recovery action (R158), which leaves STATE and RUN unchanged (R157). -/
def defaultRecovery (s : State) : State :=
  let r := s.eraseOp s.params.recordAddr
  if r.1 = .ok then (programRecord 0 r.2).2 else { r.2 with seqErr := r.1 }

/-- One sequencer step: the action of the current STATE, once (R145, R146). Values 5, 6 and 7 are the
invalid states (R157). -/
def sequencerStep (s : State) : State :=
  if s.seqState = 0#3 then seqRead s
  else if s.seqState = 1#3 then seqErase s
  else if s.seqState = 2#3 then seqWrite s
  else if s.seqState = 3#3 then seqCheck s
  else if s.seqState = 4#3 then seqEnd s
  else defaultRecovery s

end Sys2Proof.Machine
end

