-- ==== Sys2Proof/Machine/Dispatch.lean ====
section
/-! DEFINITION. The meaning of every command: one arm per constructor of Instr (R73). -/

namespace Sys2Proof.Machine

/-- The execution of a decoded command (R74). -/
def exec (i : Instr) (s : State) : Host.Outcome State Fault Refusal :=
  match i with
  | .crcInit => Sys2Proof.Machine.execCrcInit s
  | .crcClear => Sys2Proof.Machine.execCrcClear s
  | .crcFeed b => Sys2Proof.Machine.execCrcFeed b s
  | .crcBuf => Sys2Proof.Machine.execCrcBuf s
  | .flRead => Sys2Proof.Machine.execFlRead s
  | .flErase => Sys2Proof.Machine.execFlErase s
  | .flProgram => Sys2Proof.Machine.execFlProgram s
  | .recSer0 => Sys2Proof.Machine.execRecSer0 s
  | .recSer1 => Sys2Proof.Machine.execRecSer1 s
  | .recVerify => Sys2Proof.Machine.execRecVerify s
  | .seqTrigger => Sys2Proof.Machine.execSeqTrigger s

end Sys2Proof.Machine
end

