-- ==== Sys2Proof/Machine/Schedule.lean ====
section
/-! DEFINITION. Which enabled step is taken next (R74, R146, R177), and the placing of a pending command. -/

namespace Sys2Proof.Machine

/-- The agents with a step to take: the command step exactly when BUSY = 1 (R74), the sequencer step
exactly when RUN = 1 (R146), the host when it has an action left. -/
def State.enabled (s : State) : List Turn :=
  (if s.busy then [Turn.command] else []) ++ (if s.run then [Turn.sequencer] else []) ++
    (if s.inputs = [] then [] else [Turn.host])

/-- The turn a choice falls on among the enabled ones: the choice itself where it is enabled. -/
def pickTurn (t : Turn) (among : List Turn) : Option Turn :=
  if t ∈ among then some t else among.head?

/-- Who takes the next step (R177: the model lets either go first): the only enabled agent, else the
next choice of the schedule, else the opaque free choice. -/
def State.nextTurn (s : State) : Option Turn :=
  match s.enabled with
  | [] => none
  | [t] => some t
  | ts =>
    match s.sched with
    | t :: _ => pickTurn t ts
    | [] => pickTurn (Config.freeTurn s.oracle.drawn) ts

/-- What taking a turn moves in the model's own fields: the schedule's next choice is used and the
counter of free values advances. -/
def State.tookTurn (s : State) : State := { s with sched := s.sched.tail, oracle := s.oracle.tick }

/-- A command word placed as the pending command, with the command step as the next turn and no reset
input active (log entry 9). -/
def State.placeCommand (s : State) (w : Word) : State :=
  { s with pend := w, busy := true, resetPin := false, sched := .command :: s.sched }

end Sys2Proof.Machine
end

