-- ==== Sys2Proof/Machine/Window.lean ====
section
/-! DEFINITION. The host's side: the register map (R22), register reads (R39) and writes (R34, R40,
R42), and the step the host or the environment takes (R58, R77, R190). -/

namespace Sys2Proof.Machine

/-- The offset of a register in the window (R22). -/
def regOffset : Reg → Nat
  | .cmd => 0x000
  | .status => 0x004
  | .addr => 0x008
  | .len => 0x00C
  | .crcAcc => 0x010
  | .seq => 0x014
  | .info => 0x018
  | .dbuf k => 0x020 + 4 * k.val
  | .obs k => 0x040 + 4 * k.val
  | .int k => 0x050 + 4 * k.val
  | .tbl i => 0x400 + 4 * i.val

/-- The register at a word offset of the window, if the map of R22 has one there. -/
def regAt (off : Nat) : Option Reg :=
  if off = 0x000 then some .cmd
  else if off = 0x004 then some .status
  else if off = 0x008 then some .addr
  else if off = 0x00C then some .len
  else if off = 0x010 then some .crcAcc
  else if off = 0x014 then some .seq
  else if off = 0x018 then some .info
  else if 0x020 ≤ off ∧ off < 0x030 then some (.dbuf (Fin.ofNat 4 ((off - 0x020) / 4)))
  else if 0x040 ≤ off ∧ off < 0x050 then some (.obs (Fin.ofNat 4 ((off - 0x040) / 4)))
  else if 0x050 ≤ off ∧ off < 0x060 then some (.int (Fin.ofNat 4 ((off - 0x050) / 4)))
  else if 0x400 ≤ off ∧ off < 0x800 then some (.tbl (Fin.ofNat 256 ((off - 0x400) / 4)))
  else none

/-- The value of a register other than TBLi with TBL_VALID = 0 (R24-R33); CMD reads 0 (R34). -/
def readReg (s : State) : Reg → Word
  | .cmd => 0
  | .status => s.statusWord
  | .addr => s.addr
  | .len => s.len.setWidth 32
  | .crcAcc => s.crcAcc.setWidth 32
  | .seq => s.seqWord
  | .info => s.infoWord
  | .dbuf k => bufferWord s.dbuf k
  | .obs k => bufferWord s.obs k
  | .int k => bufferWord s.intd k
  | .tbl i => (s.table[i]).setWidth 32

/-- `BusRead32(off)` (R39): the value, and the state, of which only the model's own oracle moves, and
only where TBLi is read while TBL_VALID = 0 (a drawn value, R31). Unmapped offsets read 0 (R22). -/
def busRead32 (off : Nat) (s : State) : Word × State :=
  match regAt off with
  | none => (0, s)
  | some (.tbl i) =>
    if s.tblValid then (readReg s (.tbl i), s)
    else (((s.oracle.drawByte off).1).setWidth 32, { s with oracle := (s.oracle.drawByte off).2 })
  | some r => (readReg s r, s)

/-- A dropped write (R34, R40, R42, R175). -/
def State.drop (s : State) : State := { s with ovr := true }

/-- A CMD write (R34): accepted while BUSY = 0, with no check of the word. -/
def writeCmd (v : Word) (s : State) : State :=
  if s.busy then s.drop else { s with pend := v, busy := true, ovr := false }

/-- An ADDR write (R40). -/
def writeAddr (v : Word) (s : State) : State := if s.busy then s.drop else { s with addr := v }

/-- A LEN write (R40): bits 4:0. -/
def writeLen (v : Word) (s : State) : State := if s.busy then s.drop else { s with len := v.setWidth 5 }

/-- A DBUFk write (R40). -/
def writeDbuf (k : Fin 4) (v : Word) (s : State) : State :=
  if s.busy then s.drop else { s with dbuf := setBufferWord s.dbuf k v }

/-- A SEQ write (R42): STATE takes any of 0..7; SEQ_ERR is not written by the host. -/
def writeSeq (v : Word) (s : State) : State :=
  if s.busy = true ∨ s.run = true ∨ s.rstReq = true then s.drop
  else { s with seqState := v.setWidth 3 }

/-- `BusWrite32(off, v)`: read-only registers (R23) and unmapped offsets (R22) ignore it. -/
def busWrite32 (off : Nat) (v : Word) (s : State) : State :=
  match regAt off with
  | some .cmd => writeCmd v s
  | some .addr => writeAddr v s
  | some .len => writeLen v s
  | some .seq => writeSeq v s
  | some (.dbuf k) => writeDbuf k v s
  | some .status => s
  | some .crcAcc => s
  | some .info => s
  | some (.obs _) => s
  | some (.int _) => s
  | some (.tbl _) => s
  | none => s

/-- The window offset of a bus access, or why the machine has no step for it (R22, R58). -/
def busOffset (p : Params) (a : Nat) (w : Width) : Except Fault Nat :=
  if w ≠ .word then .error .narrowAccess
  else if a < p.blockBase ∨ p.blockBase + 0x800 ≤ a then .error .outsideWindow
  else if (a - p.blockBase) % 4 ≠ 0 then .error .unalignedAccess
  else .ok (a - p.blockBase)

/-- The host reads the word at a window offset: the value goes to its log. -/
def hostRead (off : Nat) (s : State) : State :=
  { (busRead32 off s).2 with readLog := s.readLog ++ [(busRead32 off s).1] }

/-- One turn of a polling loop (R77): RD STATUS; the loop stands as the next input until it is done. -/
def pollStep (done : Bool) (rest : List Input) (s : State) : State :=
  { hostRead (regOffset .status) s with inputs := if done then rest else s.inputs }

/-- One step of the host or the environment: its next action, if it has one. -/
def inputStep (s : State) : Result :=
  match s.inputs with
  | [] => .next s
  | .write a w v :: rest =>
    match busOffset s.params a w with
    | .ok off => .next (busWrite32 off v { s with inputs := rest })
    | .error f => .fault f
  | .read a w :: rest =>
    match busOffset s.params a w with
    | .ok off => .next (hostRead off { s with inputs := rest })
    | .error f => .fault f
  | .poll :: rest => .next (pollStep (!s.busy) rest s)
  | .waitRun :: rest => .next (pollStep (!s.run || s.rstReq) rest s)
  | .assertReset :: rest => .next { s with inputs := rest, resetPin := true }
  | .outsideFlash a b :: rest =>
    if s.params.flashBase ≤ a ∧ a < s.params.flashEnd then
      .next { s with inputs := rest, flash := s.flash.write a b }
    else .fault .outsideArray

/-- The bus operations one line of a host program expands to (R77, R78). -/
def expandLine (p : Params) : HostLine → List Input
  | .wr r v => [.write (p.blockBase + regOffset r) .word v]
  | .rd r => [.read (p.blockBase + regOffset r) .word]
  | .cmd i => [.write (p.blockBase + regOffset .cmd) .word (encode i)]
  | .poll => [.poll]
  | .waitRun => [.waitRun]
  | .loadBuf bs =>
    [.write (p.blockBase + regOffset (.dbuf 0)) .word (bufferWord bs 0),
     .write (p.blockBase + regOffset (.dbuf 1)) .word (bufferWord bs 1),
     .write (p.blockBase + regOffset (.dbuf 2)) .word (bufferWord bs 2),
     .write (p.blockBase + regOffset (.dbuf 3)) .word (bufferWord bs 3)]

/-- A host program (R77) as the host's next actions. -/
def expandProgram (p : Params) (ls : List HostLine) : List Input := ls.flatMap (expandLine p)

end Sys2Proof.Machine
end

