-- ==== Sys2Proof/Machine/Block.lean ====
section
/-! DEFINITION. The block's command step and the step of whichever agent has the turn (R15, R74). -/

namespace Sys2Proof.Machine

/-- The command step (R74): PEND is decoded and executed, or rejected (R75). -/
def commandStep (s : State) : Result :=
  match decode s.pend with
  | .ok i => exec i s
  | .error _ => .next (rejectIllegal s)

/-- The step of the agent whose turn it is (R15). -/
def turnStep (t : Turn) (s : State) : Result :=
  match t with
  | .command => commandStep s
  | .sequencer => .next (sequencerStep s)
  | .host => inputStep s

end Sys2Proof.Machine
end

