-- ==== Sys2Proof/Machine/Step.lean ====
section
/-! DEFINITION. One step of the machine: the reset where its input is active, else the step of the agent
whose turn it is. -/

namespace Sys2Proof.Machine

/-- One step. An active reset input takes precedence over every pending step (R177, R190); where nothing
is enabled the block is idle (R192) and the state stays (log entry 16). -/
def step (s : State) : Host.Outcome State Fault Refusal :=
  if s.resetPin then .next (resetEvent s)
  else
    match s.nextTurn with
    | none => .next s
    | some t => turnStep t s.tookTurn

/-- `s` with the table's word `w` of `nbits` bits as the pending command, which is where a step finds
the next command to run; the next step executes it (log entry 9). -/
def State.withFetchWord (s : State) (nbits w : Nat) : State :=
  s.placeCommand (BitVec.ofNat 32 (w % 2 ^ nbits))

end Sys2Proof.Machine
end

