-- ==== Sys2Proof/Safety.lean ====
section
/-! DEFINITION. The terms claims use: the invariant of the machine, the premises under which commands
execute, the checksum as the spec's bit-serial reference (R91), the record's layout (R130), and fairness
of a run (R146). -/

namespace Sys2Proof.Safety

open Sys2Proof.Machine

/-- What holds after reset and after every step: the parameters meet R9; the array is locked between
steps (R25, R102); a valid table is the polynomial's (R31); a run has a table and no restart request
(R147, R156); the flash array is in canonical form and inside its range (R51); bytes REC_LEN..15 of the
record buffers keep 0x00 (R33). -/
structure Invariant (s : State) : Prop where
  params : s.params.WellFormed
  locked : s.lock = true
  table : s.tblValid = true → s.table = crcTable
  running : s.run = true → s.tblValid = true ∧ s.rstReq = false
  flashWf : Memory.wf s.flash
  flashIn : Memory.within s.flash s.params.flashBase s.params.flashEnd
  obsTail : ∀ i : Fin 16, s.params.recLen ≤ i.val → s.obs[i] = 0
  intTail : ∀ i : Fin 16, s.params.recLen ≤ i.val → s.intd[i] = 0

/-- No run is in progress and no restart is requested: commands are not rejected with BUSY (R173). -/
abbrev Ready (s : State) : Prop := s.run = false ∧ s.rstReq = false

/-- CRC_INIT has been executed: the table is valid and holds what R85 gives (R31). -/
abbrev TableReady (s : State) : Prop := s.tblValid = true ∧ s.table = crcTable

/-- A step that changes only ERR and BUSY: how a command that is turned away ends (R74). -/
abbrev ends (s : State) (c : Code) : Result := .next { s with err := c, busy := false }

/-- The address operand meets `Erase`'s own checks (R110): inside the user area, first byte of a page. -/
abbrev EraseStart (p : Params) (a : Nat) : Prop :=
  p.flashBase ≤ a ∧ a < p.userEnd ∧ (a - p.flashBase) % p.pageSize = 0

/-- The destination meets `Program`'s own checks before its loop (R114). -/
abbrev ProgramStart (p : Params) (d : Nat) : Prop := p.flashBase ≤ d ∧ d % 8 = 0

/-- The number of flash bytes that programming n bytes covers: whole units (R119). -/
abbrev unitSpan (n : Nat) : Nat := 8 * ((n + 7) / 8)

/-- The k-th next answer of an oracle with these listed answers can be `x`: it is listed so, or none is listed
there and the oracle is not the no-fault one (R124). -/
abbrev MayAnswer {α : Type} (answers : List α) (noFault : Bool) (k : Nat) (x : α) : Prop :=
  answers[k]? = some x ∨ (answers[k]? = none ∧ noFault = false)

/-- An erase from `a`, begun in `s`, that answers OK (R110, R112): the oracle listed no fault for a page of
the range, and the range alone is erased. -/
structure ErasedRange (s : State) (f : Memory) (a : Nat) : Prop where
  answers : ∀ k, a + (k + 1) * s.params.pageSize ≤ s.params.userEnd → s.oracle.eraseAnswers[k]? ≠ some .fault
  flash : ∀ x, Memory.read f x =
    if a ≤ x ∧ x < s.params.userEnd then 0xFF#8 else Memory.read s.flash x

/-- An erase from `a`, begun in `s`, that ended at page `k` of its range (R112): the first one whose answer is
a fault. The pages before it are erased; outside the pages up to it every byte is as before. -/
structure EraseStopped (s : State) (f : Memory) (a k : Nat) : Prop where
  inRange : a + (k + 1) * s.params.pageSize ≤ s.params.userEnd
  answer : MayAnswer s.oracle.eraseAnswers s.oracle.noFault k .fault
  earlier : ∀ j, j < k → s.oracle.eraseAnswers[j]? ≠ some .fault
  erased : ∀ x, a ≤ x → x < a + k * s.params.pageSize → Memory.read f x = 0xFF#8
  others : ∀ x, x < a ∨ a + (k + 1) * s.params.pageSize ≤ x → Memory.read f x = Memory.read s.flash x

/-- The first `n` units of a program from `d`, begun in `s` (R114, R116, R117, R118): each lies below
USER_END, was erased and got no reported fault, and flash holds `want` in them. -/
structure Programmed (s : State) (f : Memory) (d n : Nat) (want : Nat → Byte) : Prop where
  inArea : ∀ k, k < n → d + 8 * (k + 1) ≤ s.params.userEnd
  answers : ∀ k, k < n → s.oracle.programAnswers[k]? ≠ some .hwFault
  erased : ∀ i, i < 8 * n → Memory.read s.flash (d + i) = 0xFF#8
  holds : ∀ i, i < 8 * n → Memory.read f (d + i) = want i

/-- Why a program from `d`, begun in `s`, stopped at unit `k` with the code `c` (R114, R116, R117, R118): the
unit is not below USER_END, or was not erased, and it and what follows is unchanged; or its answer is a
reported fault; or it is a silent one and the read-back differs from `want`. -/
def StopCause (s : State) (f : Memory) (d k : Nat) (c : Code) (want : Nat → Byte) : Prop :=
  (c = .writeRange ∧ s.params.userEnd < d + 8 * (k + 1) ∧
    ∀ a, d + 8 * k ≤ a → Memory.read f a = Memory.read s.flash a) ∨
  (c = .writeHw ∧ d + 8 * (k + 1) ≤ s.params.userEnd ∧
    (∃ j, j < 8 ∧ Memory.read s.flash (d + (8 * k + j)) ≠ 0xFF#8) ∧
    ∀ a, d + 8 * k ≤ a → Memory.read f a = Memory.read s.flash a) ∨
  (d + 8 * (k + 1) ≤ s.params.userEnd ∧ (∀ j, j < 8 → Memory.read s.flash (d + (8 * k + j)) = 0xFF#8) ∧
    (c = .writeHw ∧ MayAnswer s.oracle.programAnswers s.oracle.noFault k .hwFault ∨
     c = .writeVerify ∧ MayAnswer s.oracle.programAnswers s.oracle.noFault k .silent ∧
       ∃ j, j < 8 ∧ Memory.read f (d + (8 * k + j)) ≠ want (8 * k + j)))

/-- A program from `d`, begun in `s`, that stopped at unit `k` with the code `c` (R126): the units before it
are programmed and kept, every byte outside the units up to it is as before, and it stopped for a cause. -/
structure StoppedAt (s : State) (f : Memory) (d k : Nat) (c : Code) (want : Nat → Byte) : Prop where
  earlier : Programmed s f d k want
  others : ∀ a, a < d ∨ d + 8 * (k + 1) ≤ a → Memory.read f a = Memory.read s.flash a
  cause : StopCause s f d k c want

/-- What a fault on unit `k` of a program from `d` leaves (R114, R126): the units before it hold `want`, the
unit itself the bytes `v`, and every other byte is as before. -/
def FaultLeaves (m f : Memory) (d k : Nat) (want v : Nat → Byte) : Prop :=
  ∀ a, Memory.read f a =
    if d ≤ a ∧ a < d + 8 * k then want (a - d)
    else if d + 8 * k ≤ a ∧ a < d + 8 * (k + 1) then v (a - (d + 8 * k))
    else Memory.read m a

/-- Byte i of the units of a program of the first n bytes of `b`: the buffer's byte, or padding (R119). -/
abbrev padded (b : Vector Byte 16) (n i : Nat) : Byte := if i < n then b.toList.getD i 0 else 0xFF#8

/-- Byte j of the k-th unit of that program. -/
abbrev paddedByte (b : Vector Byte 16) (n k j : Nat) : Byte := padded b n (8 * k + j)

/-- One round of R85: test bit 7, shift, exclusive or with 0x07. -/
def polyRound (c : Byte) : Byte :=
  if c.msb = true then (c <<< 1) ^^^ 0x07#8 else c <<< 1

/-- One bit of the bit-serial CRC of R91: generator 0x07, most significant bit first. -/
def serialBit (acc : Byte) (b : Bool) : Byte :=
  if (acc.msb ^^ b) = true then (acc <<< 1) ^^^ 0x07#8 else acc <<< 1

/-- One byte of the bit-serial CRC: bits 7 down to 0 (R91). -/
def serialByte (acc b : Byte) : Byte :=
  [7, 6, 5, 4, 3, 2, 1, 0].foldl (fun a i => serialBit a (b.getLsbD i)) acc

/-- The bit-serial CRC of a byte list from initial value 0, no reflection, no final exclusive or (R91). -/
def serialCrc (bs : List Byte) : Byte := bs.foldl serialByte 0

/-- Buffer `b` starts with the record of R130 with update_flag = `flag`: device_name, hw_revision,
fw_revision, update_flag, and the checksum over every byte before it (R131). -/
structure HoldsRecord (p : Params) (t : Vector Byte 256) (flag : Byte) (b : Vector Byte 16) : Prop where
  name : ∀ i, i < p.nameLen → b.toList.getD i 0 = p.deviceName.getD i 0
  hw : b.toList.getD p.nameLen 0 = p.hwRev
  fw : b.toList.getD (p.nameLen + 1) 0 = p.fwRev
  flagByte : b.toList.getD (p.nameLen + 2) 0 = flag
  checksum : b.toList.getD (p.nameLen + 3) 0 = crc8 t (b.toList.take (p.nameLen + 3))

/-- The bytes of the record region as the flash array holds them (R62). -/
abbrev recordBytes (s : State) : List Byte :=
  Memory.readBytes s.flash s.params.recordAddr s.params.recLen

/-- The commands of a list executed one after the other, each as `exec` gives it. -/
def execAll : List Instr → State → Result
  | [], s => .next s
  | i :: is, s =>
    match exec i s with
    | .next t => execAll is t
    | .fault f => .fault f
    | .refused r => .refused r

/-- A run of the machine: each state is the step of the one before. -/
def IsRun (r : Nat → State) : Prop := ∀ n, step (r n) = .next (r (n + 1))

/-- Weak fairness (R146, R205): a block step that stays enabled is eventually taken. -/
def WeaklyFair (r : Nat → State) : Prop :=
  ∀ t : Turn, t ≠ .host → ∀ n, (∀ m, n ≤ m → t ∈ (r m).enabled) →
    ∃ m, n ≤ m ∧ (r m).nextTurn = some t

/-- Nothing outside the block resets it or changes the array: the premise of claims about a run that is
left alone. -/
def LeftAlone (s : State) : Prop :=
  s.resetPin = false ∧ ∀ x ∈ s.inputs, x ≠ .assertReset ∧ ∀ a b, x ≠ .outsideFlash a b

end Sys2Proof.Safety
end

