-- ==== Sys2Proof/Certificates/Slice0/Obligations.lean ====
section
/-! DEFINITION. The statements for the provers, from the spec's numbered rules. Each docstring names the
rules; OBLIGATIONS.json says which clauses are the model's own choice. -/

open Sys2Proof Sys2Proof.Machine Sys2Proof.Safety

/-! ### Encoding (30_encoding.md) -/

/-- R73: the command words. -/
def Obligations.CommandWordsDecode : Prop :=
  decode 0x00000001#32 = .ok .crcInit ∧ decode 0x00000002#32 = .ok .crcClear ∧
  (∀ b : Byte, decode (0#16 ++ b ++ 0x03#8) = .ok (.crcFeed b)) ∧
  decode 0x00000004#32 = .ok .crcBuf ∧ decode 0x00000010#32 = .ok .flRead ∧
  decode 0x00000011#32 = .ok .flErase ∧ decode 0x00000012#32 = .ok .flProgram ∧
  decode 0x00000020#32 = .ok .recSer0 ∧ decode 0x00000120#32 = .ok .recSer1 ∧
  decode 0x00000021#32 = .ok .recVerify ∧ decode 0x00000030#32 = .ok .seqTrigger

/-- R73, R75: a word decodes to a command exactly when it is that command's word; so decode and encode
agree, and no two words are one command. -/
def Obligations.DecodeIsInverseOfEncode : Prop :=
  ∀ (w : Word) (i : Instr), decode w = .ok i ↔ w = encode i

/-- R75: exactly which words are ILLEGAL, and that executing one changes only ERR and BUSY. -/
def Obligations.IllegalWordsAreExactlyThese : Prop :=
  (∀ w : Word, (∃ r, decode w = .error r) ↔
    (w.extractLsb' 16 16 ≠ 0#16 ∨
     w.extractLsb' 0 8 ∉ [0x01#8, 0x02#8, 0x03#8, 0x04#8, 0x10#8, 0x11#8, 0x12#8, 0x20#8, 0x21#8, 0x30#8] ∨
     (w.extractLsb' 0 8 ≠ 0x03#8 ∧ w.extractLsb' 0 8 ≠ 0x20#8 ∧ w.extractLsb' 8 8 ≠ 0#8) ∨
     (w.extractLsb' 0 8 = 0x20#8 ∧ w.extractLsb' 8 8 ≠ 0#8 ∧ w.extractLsb' 8 8 ≠ 1#8))) ∧
  ∀ (s : State) (r : Illegal), decode s.pend = .error r →
    commandStep s = ends s (if s.run = true ∨ s.rstReq = true then .busy else .illegal)

/-! ### Steps (00_scope.md R15, 30_encoding.md R74, 60_exceptions.md R177) -/

/-- R74: where the pending word is a command and its turn has come (it alone is enabled, or the schedule
names it), the step is the command's execution; around it the step only moves the model's schedule and
counter on. -/
def Obligations.StepRunsTheDecodedCommand : Prop :=
  ∀ (s : State) (i : Instr), s.resetPin = false → s.busy = true →
    ((s.run = false ∧ s.inputs = []) ∨ s.sched.head? = some .command) →
    decode s.pend = .ok i →
    step s = exec i { s with sched := s.sched.tail, oracle := s.oracle.tick }

/-- R74, R146: the command step is enabled exactly when BUSY = 1, the sequencer step exactly when
RUN = 1; a step that is not the reset is one of an enabled agent. -/
def Obligations.EnabledStepsAndNoOthers : Prop :=
  ∀ s : State, (Turn.command ∈ s.enabled ↔ s.busy = true) ∧ (Turn.sequencer ∈ s.enabled ↔ s.run = true) ∧
    (s.resetPin = false →
      (s.enabled = [] ∧ step s = .next s) ∨
      ∃ t, t ∈ s.enabled ∧ step s = turnStep t { s with sched := s.sched.tail, oracle := s.oracle.tick })

/-- R177: with both a command and a sequencer step enabled, the model admits either first; the command is
rejected with BUSY in either order, and both orders end in the same state: the order is visible only in
when ERR and BUSY change. -/
def Obligations.CommandAndSequencerStepCommute : Prop :=
  ∀ s : State, s.run = true →
    (s.resetPin = false → s.busy = true →
      (∃ sc : List Turn, step { s with sched := sc } = commandStep { s with oracle := s.oracle.tick }) ∧
      (∃ sc : List Turn, step { s with sched := sc } =
        .next (sequencerStep { s with oracle := s.oracle.tick }))) ∧
    commandStep s = ends s .busy ∧
    commandStep (sequencerStep s) = .next (sequencerStep { s with err := .busy, busy := false })

/-! ### Checks (60_exceptions.md R172, R173) -/

/-- R173: every command executed during a run or a restart request is rejected with BUSY and has no
other effect. -/
def Obligations.CommandsRejectedWhileRunning : Prop :=
  ∀ (i : Instr) (s : State), s.run = true ∨ s.rstReq = true → exec i s = ends s .busy

/-- R94, R172: without the table, every command that uses it is rejected with NOT_INIT, whatever LEN is;
then a count above 16 is rejected with BADLEN before the operation's own checks; in each case with no
other effect. -/
def Obligations.NotInitThenBadLen : Prop :=
  ∀ (s : State) (b : Byte), Ready s →
    (s.tblValid = false →
      exec (.crcFeed b) s = ends s .notInit ∧ exec .crcBuf s = ends s .notInit ∧
      exec .recSer0 s = ends s .notInit ∧ exec .recSer1 s = ends s .notInit ∧
      exec .recVerify s = ends s .notInit ∧ exec .seqTrigger s = ends s .notInit) ∧
    (16 < s.len.toNat → (s.tblValid = true → exec .crcBuf s = ends s .badLen) ∧
      exec .flRead s = ends s .badLen ∧ exec .flProgram s = ends s .badLen)

/-! ### CRC (40_crc.md) -/

/-- R85, R86: CRC_INIT writes every entry with the value of R85, sets TBL_VALID, and changes nothing else;
over a table that is already built it is a no-op. -/
def Obligations.CrcInitBuildsTheTable : Prop :=
  ∀ s : State, Ready s →
    ∃ t : Vector Byte 256, exec .crcInit s =
        .next { s with table := t, tblValid := true, err := .ok, busy := false } ∧
      (∀ i : Fin 256, t[i] = polyRound^[8] (BitVec.ofFin i)) ∧ (TableReady s → t = s.table)

/-- R88: CRC_CLEAR, with or without the table. -/
def Obligations.CrcClearZeroes : Prop :=
  ∀ s : State, Ready s → exec .crcClear s = .next { s with crcAcc := 0, err := .ok, busy := false }

/-- R89: CRC_FEED folds one byte. -/
def Obligations.CrcFeedFoldsOneByte : Prop :=
  ∀ (s : State) (b : Byte), Ready s → s.tblValid = true →
    exec (.crcFeed b) s =
      .next { s with crcAcc := s.table[(s.crcAcc ^^^ b).toFin], err := .ok, busy := false }

/-- R90: CRC_BUF folds the first LEN bytes of DBUF from 0. -/
def Obligations.CrcBufFoldsTheBuffer : Prop :=
  ∀ s : State, Ready s → s.tblValid = true → s.len.toNat ≤ 16 →
    exec .crcBuf s = .next { s with
      crcAcc := (s.dbuf.toList.take s.len.toNat).foldl (fun acc b => s.table[(acc ^^^ b).toFin]) 0,
      err := .ok, busy := false }

/-- R89: feeding bytes one by one after CRC_CLEAR leaves their checksum. -/
def Obligations.ClearThenFeedsLeaveChecksum : Prop :=
  ∀ (s : State) (bs : List Byte), Ready s → s.tblValid = true →
    execAll (.crcClear :: bs.map .crcFeed) s =
      .next { s with crcAcc := crc8 s.table bs, err := .ok, busy := false }

/-- R91: the checksum over the table is the bit-serial CRC with generator 0x07. -/
def Obligations.ChecksumIsBitSerialCrc : Prop := ∀ bs : List Byte, crc8 crcTable bs = serialCrc bs

/-- R92: the laws of the table and the checksum. -/
def Obligations.ChecksumLaws : Prop :=
  (∀ i : Fin 256, i.val = 0 → crcTable[i] = 0) ∧
  (∀ a b : Byte, crcTable[(a ^^^ b).toFin] = crcTable[a.toFin] ^^^ crcTable[b.toFin]) ∧
  crc8 crcTable [] = 0 ∧
  (∀ as bs : List Byte, crc8 crcTable (as ++ bs) =
    bs.foldl (fun acc b => crcTable[(acc ^^^ b).toFin]) (crc8 crcTable as)) ∧
  (∀ bs : List Byte, crc8 crcTable (bs ++ [crc8 crcTable bs]) = 0)

/-- R93: the table is a bijection and linear; changing exactly one byte changes the checksum, and a record that
verifies no longer does after a change of exactly one of its bytes. -/
def Obligations.OneByteChangeIsDetected : Prop :=
  (Function.Bijective fun a : Byte => crcTable[a.toFin]) ∧
  (∀ a b : Byte, crcTable[(a ^^^ b).toFin] = crcTable[a.toFin] ^^^ crcTable[b.toFin]) ∧
  (∀ (bs : List Byte) (i : Nat) (x : Byte), i < bs.length → x ≠ bs.getD i 0 →
    crc8 crcTable (bs.set i x) ≠ crc8 crcTable bs) ∧
  (∀ (p : Params) (r : List Byte) (i : Nat) (x : Byte), r.length = p.recLen → verify p crcTable r = true →
    i < p.recLen → x ≠ r.getD i 0 → verify p crcTable (r.set i x) = false)

/-! ### Flash commands (41_flash.md) -/

/-- R104, R120: FL_READ copies LEN flash bytes into DBUF; the other bytes of DBUF are unchanged. -/
def Obligations.FlReadCopiesTheSpan : Prop :=
  ∀ s : State, Ready s → 0 < s.len.toNat → s.len.toNat ≤ 16 →
    s.params.flashBase ≤ s.addr.toNat → s.addr.toNat + s.len.toNat ≤ s.params.flashBase + s.params.flashSize →
    ∃ d : Vector Byte 16, exec .flRead s = .next { s with dbuf := d, err := .ok, busy := false } ∧
      ∀ i : Fin 16, d[i] =
        if i.val < s.len.toNat then Memory.read s.flash (s.addr.toNat + i.val) else s.dbuf[i]

/-- R104: the errors of FL_READ, each with no other effect. -/
def Obligations.FlReadRejects : Prop :=
  ∀ s : State, Ready s →
    (s.len.toNat = 0 → exec .flRead s = ends s .readZero) ∧
    (0 < s.len.toNat → s.len.toNat ≤ 16 →
      s.addr.toNat < s.params.flashBase ∨
        s.params.flashBase + s.params.flashSize < s.addr.toNat + s.len.toNat →
      exec .flRead s = ends s .readRange)

/-- R111, R113: FL_ERASE rejects a start outside the user area, then a misaligned one, before the unlock
and before any mutation. -/
def Obligations.FlEraseRejects : Prop :=
  ∀ s : State, Ready s →
    (s.addr.toNat < s.params.flashBase ∨ s.params.userEnd ≤ s.addr.toNat →
      exec .flErase s = ends s .eraseRange) ∧
    (s.params.flashBase ≤ s.addr.toNat → s.addr.toNat < s.params.userEnd →
      (s.addr.toNat - s.params.flashBase) % s.params.pageSize ≠ 0 → exec .flErase s = ends s .align)

/-- R110, R113, R121: under the no-fault oracle FL_ERASE answers OK, every byte from ADDR to USER_END - 1
reads 0xFF, and nothing else changes but the oracle's counter. -/
def Obligations.FlEraseErasesToUserEnd : Prop :=
  ∀ s : State, Ready s → s.params.WellFormed → Memory.wf s.flash → s.oracle.Quiet →
    EraseStart s.params s.addr.toNat →
    ∃ f o, exec .flErase s =
        .next { s with flash := f, oracle := o, lock := true, err := .ok, busy := false } ∧
      ∀ a, Memory.read f a =
        if s.addr.toNat ≤ a ∧ a < s.params.userEnd then 0xFF#8 else Memory.read s.flash a

/-- R112, R127: whatever the oracle answers, FL_ERASE ends OK with the whole range erased and no fault answered
for a page of it (`ErasedRange`), or ERASE_HW at the first page k whose answer is a fault, with every page
before it erased and no page after it touched (`EraseStopped`); no byte below ADDR or at or above USER_END
changes. -/
def Obligations.FlErasePartialOutcomes : Prop :=
  ∀ s : State, Ready s → s.params.WellFormed → Memory.wf s.flash → EraseStart s.params s.addr.toNat →
    ∃ c f o, exec .flErase s =
        .next { s with flash := f, oracle := o, lock := true, err := c, busy := false } ∧
      (∀ a, a < s.addr.toNat ∨ s.params.userEnd ≤ a → Memory.read f a = Memory.read s.flash a) ∧
      ((c = .ok ∧ ErasedRange s f s.addr.toNat) ∨
       (c = .eraseHw ∧ ∃ k, EraseStopped s f s.addr.toNat k))

/-- R112, R124: for every page k of the range of FL_ERASE: an oracle that answers k times NONE and then FAULT
makes it end ERASE_HW at that page, and every content of the page is admitted by such an oracle. -/
def Obligations.EveryEraseFaultIsAdmitted : Prop :=
  ∀ (s : State) (k : Nat) (v : Nat → Byte), Ready s → s.params.WellFormed → Memory.wf s.flash →
    EraseStart s.params s.addr.toNat → s.addr.toNat + (k + 1) * s.params.pageSize ≤ s.params.userEnd →
    (∃ o f o', o.eraseAnswers = List.replicate k .none ++ [.fault] ∧ exec .flErase { s with oracle := o } =
        .next { s with flash := f, oracle := o', lock := true, err := .eraseHw, busy := false } ∧
      ∀ a, Memory.read f a =
        if s.addr.toNat ≤ a ∧ a < s.addr.toNat + k * s.params.pageSize then 0xFF#8
        else if s.addr.toNat + k * s.params.pageSize ≤ a ∧ a < s.addr.toNat + (k + 1) * s.params.pageSize then v a
        else Memory.read s.flash a) ∧
    (∀ rest, s.oracle.eraseAnswers = List.replicate k .none ++ .fault :: rest →
      ∃ f o, exec .flErase s =
          .next { s with flash := f, oracle := o, lock := true, err := .eraseHw, busy := false } ∧
        (∀ a, s.addr.toNat ≤ a → a < s.addr.toNat + k * s.params.pageSize → Memory.read f a = 0xFF#8) ∧
        (∀ a, a < s.addr.toNat ∨ s.addr.toNat + (k + 1) * s.params.pageSize ≤ a →
          Memory.read f a = Memory.read s.flash a))

/-- R114, R115: what `Program` rejects before its loop, and the empty program, which does nothing: no
unlock, no mutation. -/
def Obligations.FlProgramRejects : Prop :=
  ∀ s : State, Ready s → s.len.toNat ≤ 16 →
    (s.addr.toNat < s.params.flashBase → exec .flProgram s = ends s .writeRange) ∧
    (s.params.flashBase ≤ s.addr.toNat → s.addr.toNat % 8 ≠ 0 → exec .flProgram s = ends s .align) ∧
    (ProgramStart s.params s.addr.toNat → s.len.toNat = 0 → exec .flProgram s = ends s .ok)

/-- R114, R119, R122: under the no-fault oracle, over erased units below USER_END, FL_PROGRAM answers OK,
flash holds DBUF[0..LEN) at ADDR, the padding stays erased, and every other byte is unchanged. -/
def Obligations.FlProgramWritesTheBuffer : Prop :=
  ∀ s : State, Ready s → Memory.wf s.flash → s.oracle.Quiet → ProgramStart s.params s.addr.toNat →
    0 < s.len.toNat → s.len.toNat ≤ 16 → s.addr.toNat + unitSpan s.len.toNat ≤ s.params.userEnd →
    (∀ a, s.addr.toNat ≤ a → a < s.addr.toNat + unitSpan s.len.toNat → Memory.read s.flash a = 0xFF#8) →
    ∃ f o, exec .flProgram s =
        .next { s with flash := f, oracle := o, lock := true, err := .ok, busy := false } ∧
      ∀ a, Memory.read f a =
        if s.addr.toNat ≤ a ∧ a < s.addr.toNat + s.len.toNat then s.dbuf.toList.getD (a - s.addr.toNat) 0
        else Memory.read s.flash a

/-- R116, R126: a unit that is not all 0xFF stops FL_PROGRAM with WRITE_HW. The first unit: no byte changed,
whatever the oracle would answer. Any unit k behind erased ones that are answered NONE: those are programmed
and kept, and every other byte, unit k's too, is as before. -/
def Obligations.FlProgramOverNonErasedFails : Prop :=
  ∀ s : State, Ready s → ProgramStart s.params s.addr.toNat → 0 < s.len.toNat → s.len.toNat ≤ 16 →
    (s.addr.toNat + 8 ≤ s.params.userEnd →
      (∃ j, j < 8 ∧ Memory.read s.flash (s.addr.toNat + j) ≠ 0xFF#8) →
      exec .flProgram s = .next { s with lock := true, err := .writeHw, busy := false }) ∧
    (∀ k, Memory.wf s.flash → k < (s.len.toNat + 7) / 8 → s.addr.toNat + 8 * (k + 1) ≤ s.params.userEnd →
      (∀ i, i < 8 * k → Memory.read s.flash (s.addr.toNat + i) = 0xFF#8) →
      (∃ j, j < 8 ∧ Memory.read s.flash (s.addr.toNat + (8 * k + j)) ≠ 0xFF#8) →
      (s.oracle.Quiet ∨ ∃ rest, s.oracle.programAnswers = List.replicate k .none ++ rest) →
      ∃ f o, exec .flProgram s =
          .next { s with flash := f, oracle := o, lock := true, err := .writeHw, busy := false } ∧
        ∀ a, Memory.read f a =
          if s.addr.toNat ≤ a ∧ a < s.addr.toNat + 8 * k then s.dbuf.toList.getD (a - s.addr.toNat) 0
          else Memory.read s.flash a)

/-- R118: the end-of-area stop. A first unit that would not lie wholly below USER_END: WRITE_RANGE,
nothing changed. A second one: WRITE_RANGE with the first unit, at exactly USER_END - UNIT, programmed. -/
def Obligations.FlProgramStopsAtUserEnd : Prop :=
  ∀ s : State, Ready s → ProgramStart s.params s.addr.toNat → 0 < s.len.toNat → s.len.toNat ≤ 16 →
    (s.params.userEnd < s.addr.toNat + 8 →
      exec .flProgram s = .next { s with lock := true, err := .writeRange, busy := false }) ∧
    (s.addr.toNat + 8 = s.params.userEnd → 8 < s.len.toNat → Memory.wf s.flash → s.oracle.Quiet →
      (∀ j, j < 8 → Memory.read s.flash (s.addr.toNat + j) = 0xFF#8) →
      ∃ f o, exec .flProgram s =
          .next { s with flash := f, oracle := o, lock := true, err := .writeRange, busy := false } ∧
        ∀ a, Memory.read f a =
          if s.addr.toNat ≤ a ∧ a < s.params.userEnd then s.dbuf.toList.getD (a - s.addr.toNat) 0
          else Memory.read s.flash a)

/-- R116, R117, R118, R126, R127: whatever the oracle answers, FL_PROGRAM changes no byte outside its units or
at or above USER_END. From a destination it rejects it changes nothing. Where it answers OK every unit lay
below USER_END, was erased and got no reported fault, and flash holds exactly what was requested, padding
included (`Programmed`): a silent fault that the read-back would not catch does not exist. Where it answers
anything else it stopped at a unit k for a cause, which the code names: the unit is past the area, was not
erased, or got a fault; the units before k are programmed and kept, those after are untouched (`StoppedAt`). -/
def Obligations.FlProgramOkMeansFlashHoldsTheData : Prop :=
  ∀ s : State, Ready s → Memory.wf s.flash → s.len.toNat ≤ 16 →
    ∃ c f o l, exec .flProgram s =
        .next { s with flash := f, oracle := o, lock := l, err := c, busy := false } ∧
      (s.lock = true → l = true) ∧
      (∀ a, a < s.addr.toNat ∨ s.addr.toNat + unitSpan s.len.toNat ≤ a ∨ s.params.userEnd ≤ a →
        Memory.read f a = Memory.read s.flash a) ∧
      (¬ ProgramStart s.params s.addr.toNat → f = s.flash ∧
        c = if s.addr.toNat < s.params.flashBase then .writeRange else .align) ∧
      (c = .ok → Programmed s f s.addr.toNat ((s.len.toNat + 7) / 8) (padded s.dbuf s.len.toNat)) ∧
      (ProgramStart s.params s.addr.toNat → c ≠ .ok → ∃ k, k < (s.len.toNat + 7) / 8 ∧
        StoppedAt s f s.addr.toNat k c (padded s.dbuf s.len.toNat))

/-- R114, R117, R124, R126: over erased units up to unit k, which lies below USER_END, every reported fault of
unit k with every content is admitted, and every silent fault. In both the units before k are programmed and
kept, unit k holds the drawn bytes, every other byte is as before (`FaultLeaves`). A silent fault whose bytes
differ from the padded unit ends WRITE_VERIFY; one whose bytes are the padded unit passes: the units up to k
hold the data, no read-back fails after it under an oracle with no later fault, and where k is the last unit
the program ends OK. -/
def Obligations.EveryProgramFaultIsAdmitted : Prop :=
  ∀ (s : State) (k : Nat) (v : Nat → Byte), Ready s → Memory.wf s.flash → ProgramStart s.params s.addr.toNat →
    s.len.toNat ≤ 16 → k < (s.len.toNat + 7) / 8 → s.addr.toNat + 8 * (k + 1) ≤ s.params.userEnd →
    (∀ j, j < 8 * (k + 1) → Memory.read s.flash (s.addr.toNat + j) = 0xFF#8) →
    (∃ o f o', o.programAnswers = List.replicate k .none ++ [.hwFault] ∧ exec .flProgram { s with oracle := o } =
        .next { s with flash := f, oracle := o', lock := true, err := .writeHw, busy := false } ∧
      FaultLeaves s.flash f s.addr.toNat k (fun i => s.dbuf.toList.getD i 0) v) ∧
    (∃ o f o' c, o.programAnswers = List.replicate k .none ++ [.silent] ∧ exec .flProgram { s with oracle := o } =
        .next { s with flash := f, oracle := o', lock := true, err := c, busy := false } ∧
      ((∃ j, j < 8 ∧ v j ≠ paddedByte s.dbuf s.len.toNat k j) →
        c = .writeVerify ∧ FaultLeaves s.flash f s.addr.toNat k (fun i => s.dbuf.toList.getD i 0) v) ∧
      ((∀ j, j < 8 → v j = paddedByte s.dbuf s.len.toNat k j) →
        c ≠ .writeVerify ∧
        (∀ i, i < 8 * (k + 1) → Memory.read f (s.addr.toNat + i) =
          if i < s.len.toNat then s.dbuf.toList.getD i 0 else 0xFF#8) ∧
        (s.len.toNat ≤ 8 * (k + 1) →
          c = .ok ∧ FaultLeaves s.flash f s.addr.toNat k (fun i => s.dbuf.toList.getD i 0) v)))

/-- R125: under the no-fault oracle, an erase from s and a program of at most 16 bytes inside the erased
range both answer OK, and the read-back is what was written. -/
def Obligations.EraseProgramReadRoundTrip : Prop :=
  ∀ (s : State) (st d : Nat) (bs : List Byte), s.params.WellFormed → Memory.wf s.flash → s.oracle.Quiet →
    EraseStart s.params st → st ≤ d → d % 8 = 0 → bs.length ≤ 16 →
    d + unitSpan bs.length ≤ s.params.userEnd →
    (s.eraseOp st).1 = .ok ∧ ((s.eraseOp st).2.programOp d bs).1 = .ok ∧
      ((s.eraseOp st).2.programOp d bs).2.flashRead d bs.length = bs

/-! ### Record commands (42_record.md) -/

/-- R130, R134, R136, R137: REC_SER f puts the record with update_flag f in DBUF and its length in LEN;
DBUF beyond the record, flash, OBS, INT and everything else are unchanged. -/
def Obligations.RecSerStagesTheRecord : Prop :=
  ∀ s : State, Ready s → s.tblValid = true → s.params.WellFormed →
    (∃ d, exec .recSer0 s = .next { s with
        dbuf := d, len := BitVec.ofNat 5 (s.params.nameLen + 4), err := .ok, busy := false } ∧
      HoldsRecord s.params s.table 0 d ∧ ∀ i : Fin 16, s.params.nameLen + 4 ≤ i.val → d[i] = s.dbuf[i]) ∧
    (∃ d, exec .recSer1 s = .next { s with
        dbuf := d, len := BitVec.ofNat 5 (s.params.nameLen + 4), err := .ok, busy := false } ∧
      HoldsRecord s.params s.table 1 d ∧ ∀ i : Fin 16, s.params.nameLen + 4 ≤ i.val → d[i] = s.dbuf[i])

/-- R131, R135, R138: REC_VERIFY compares the stored checksum with the one recomputed over the bytes
before it, and sets VOK and ERR alike; nothing else changes. -/
def Obligations.RecVerifyChecksOnlyTheChecksum : Prop :=
  ∀ s : State, Ready s → s.tblValid = true → s.params.WellFormed →
    (crc8 s.table (s.dbuf.toList.take (s.params.nameLen + 3)) = s.dbuf.toList.getD (s.params.nameLen + 3) 0 →
      exec .recVerify s = .next { s with vok := true, err := .ok, busy := false }) ∧
    (crc8 s.table (s.dbuf.toList.take (s.params.nameLen + 3)) ≠ s.dbuf.toList.getD (s.params.nameLen + 3) 0 →
      exec .recVerify s = .next { s with vok := false, err := .checksum, busy := false })

/-- R139: what is serialized verifies; its checksum over all its bytes is 0. -/
def Obligations.SerializedRecordVerifies : Prop :=
  ∀ (p : Params) (flag : Byte), p.WellFormed →
    verify p crcTable (serialize p crcTable flag) = true ∧ crc8 crcTable (serialize p crcTable flag) = 0

/-! ### Sequencer (43_sequencer.md) -/

/-- R147: SEQ_TRIGGER starts a run at whatever STATE holds. -/
def Obligations.SeqTriggerStartsARun : Prop :=
  ∀ s : State, Ready s → s.tblValid = true →
    exec .seqTrigger s = .next { s with run := true, seqErr := .ok, err := .ok, busy := false }

/-- R150: the Read step. -/
def Obligations.ReadStepMovesToErase : Prop :=
  ∀ s : State, s.params.WellFormed → s.seqState = 0#3 →
    ∃ b : Vector Byte 16, sequencerStep s = { s with obs := b, seqErr := .ok, seqState := 1#3 } ∧
      ∀ i : Fin 16, b[i] = if i.val < s.params.nameLen + 4
        then Memory.read s.flash (s.params.recordAddr + i.val) else s.obs[i]

/-- R151, R110, R112: the Erase step runs `Erase` from RECORD_ADDR. Where that answers OK the step moves to
Write with EV_ERASE_OK and the range is erased; where it answers anything else, that is ERASE_HW, the step
stays with no event and leaves what the erase left. Which of the two it is follows from the oracle: OK where
it is the no-fault one or its answers are NONE for every page of the range, ERASE_HW where it answers FAULT
for the page after k pages answered NONE. -/
def Obligations.EraseStepMovesToWriteOrStays : Prop :=
  ∀ s : State, s.params.WellFormed → Memory.wf s.flash → s.seqState = 1#3 →
    ∃ c f o, s.eraseOp s.params.recordAddr = (c, { s with flash := f, oracle := o, lock := true }) ∧
      sequencerStep s =
        (if c = .ok then { s with flash := f, oracle := o, lock := true, seqErr := .ok, seqState := 2#3, events := s.events ++ [.eraseOk] }
         else { s with flash := f, oracle := o, lock := true, seqErr := c }) ∧
      (c = .ok → ErasedRange s f s.params.recordAddr) ∧
      (c ≠ .ok → c = .eraseHw ∧ ∃ k, EraseStopped s f s.params.recordAddr k) ∧
      (s.oracle.Quiet → c = .ok) ∧
      (∀ k rest, s.oracle.eraseAnswers = List.replicate k .none ++ rest →
        s.params.userEnd ≤ s.params.recordAddr + k * s.params.pageSize → c = .ok) ∧
      (∀ k rest, s.oracle.eraseAnswers = List.replicate k .none ++ .fault :: rest →
        s.params.recordAddr + (k + 1) * s.params.pageSize ≤ s.params.userEnd →
        c = .eraseHw ∧
        (∀ a, s.params.recordAddr ≤ a → a < s.params.recordAddr + k * s.params.pageSize →
          Memory.read f a = 0xFF#8) ∧
        (∀ a, a < s.params.recordAddr ∨ s.params.recordAddr + (k + 1) * s.params.pageSize ≤ a →
          Memory.read f a = Memory.read s.flash a))

/-- R134, R152: the Write step serializes the request record into INT and programs it at RECORD_ADDR: SEQ_ERR
and flash are what `Program` of those bytes answers and leaves. It moves to Check exactly where that answers
OK, and then flash holds the record; where it does not, `Program` stopped at a unit of the record. Over an
erased region it answers OK where the oracle is the no-fault one or answers NONE for both units. -/
def Obligations.WriteStepProgramsTheRequestRecord : Prop :=
  ∀ s : State, s.params.WellFormed → Memory.wf s.flash → s.seqState = 2#3 →
    ∃ n f o c,
      State.programOp { s with intd := n } s.params.recordAddr (n.toList.take (s.params.nameLen + 4)) =
        (c, { s with intd := n, flash := f, oracle := o, lock := true }) ∧
      sequencerStep s = { s with
        intd := n, flash := f, oracle := o, lock := true, seqErr := c, seqState := if c = .ok then 3#3 else 2#3 } ∧
      HoldsRecord s.params s.table 1 n ∧ (∀ i : Fin 16, s.params.nameLen + 4 ≤ i.val → n[i] = s.intd[i]) ∧
      (∀ a, a < s.params.recordAddr ∨ s.params.recordAddr + 16 ≤ a →
        Memory.read f a = Memory.read s.flash a) ∧
      (c = .ok → Programmed s f s.params.recordAddr 2 (padded n (s.params.nameLen + 4))) ∧
      (c ≠ .ok → ∃ k, k < 2 ∧ StoppedAt s f s.params.recordAddr k c (padded n (s.params.nameLen + 4))) ∧
      (s.oracle.Quiet ∨ (∃ rest, s.oracle.programAnswers = .none :: .none :: rest) →
        (∀ a, s.params.recordAddr ≤ a → a < s.params.recordAddr + 16 → Memory.read s.flash a = 0xFF#8) →
        c = .ok ∧ ∀ a, Memory.read f a =
          if s.params.recordAddr ≤ a ∧ a < s.params.recordAddr + (s.params.nameLen + 4)
            then n.toList.getD (a - s.params.recordAddr) 0 else Memory.read s.flash a)

/-- R154: the Check step compares only the stored checksum with the recomputed one; it changes no flash. -/
def Obligations.CheckStepComparesTheChecksum : Prop :=
  ∀ s : State, s.params.WellFormed → s.seqState = 3#3 →
    ∃ b : Vector Byte 16, (∀ i : Fin 16, b[i] = if i.val < s.params.nameLen + 4
        then Memory.read s.flash (s.params.recordAddr + i.val) else s.obs[i]) ∧
      (crc8 s.table (b.toList.take (s.params.nameLen + 3)) = b.toList.getD (s.params.nameLen + 3) 0 →
        sequencerStep s = { s with obs := b, seqErr := .ok, seqState := 4#3 }) ∧
      (crc8 s.table (b.toList.take (s.params.nameLen + 3)) ≠ b.toList.getD (s.params.nameLen + 3) 0 →
        sequencerStep s = { s with obs := b, seqErr := .checksum, events := s.events ++ [.crcFail] })

/-- R156: the End step. -/
def Obligations.EndStepRequestsRestart : Prop :=
  ∀ s : State, s.seqState = 4#3 →
    sequencerStep s =
      { s with events := s.events ++ [.success], seqState := 0#3, run := false, rstReq := true }

/-- R157, R158: in an invalid state the step erases, then writes the default record; STATE, RUN and EVENTS
are unchanged. Where the erase fails, at whichever page, the step leaves what the erase left and serializes
and programs nothing; where it answers OK the default record is in INT and programmed over the erased range,
and SEQ_ERR is the code of that program, whatever it is. Under the no-fault oracle both answer OK. -/
def Obligations.InvalidStateRunsDefaultRecovery : Prop :=
  ∀ s : State, s.params.WellFormed → Memory.wf s.flash → 5 ≤ s.seqState.toNat →
    (sequencerStep s).seqState = s.seqState ∧ (sequencerStep s).run = s.run ∧
    (sequencerStep s).events = s.events ∧
    (s.oracle.eraseAnswers.head? = some .fault →
      (sequencerStep s).seqErr = .eraseHw ∧ (sequencerStep s).intd = s.intd) ∧
    (∃ c f o, s.eraseOp s.params.recordAddr = (c, { s with flash := f, oracle := o, lock := true }) ∧
      (c ≠ .ok → c = .eraseHw ∧
        sequencerStep s = { s with flash := f, oracle := o, lock := true, seqErr := .eraseHw } ∧
        ∃ k, EraseStopped s f s.params.recordAddr k) ∧
      (c = .ok →
        ErasedRange s f s.params.recordAddr ∧
        ∃ n g p d,
          State.programOp { s with flash := f, oracle := o, lock := true, intd := n } s.params.recordAddr
              (n.toList.take (s.params.nameLen + 4)) =
            (d, { s with intd := n, flash := g, oracle := p, lock := true }) ∧
          sequencerStep s = { s with intd := n, flash := g, oracle := p, lock := true, seqErr := d } ∧
          HoldsRecord s.params s.table 0 n ∧ (∀ i : Fin 16, s.params.nameLen + 4 ≤ i.val → n[i] = s.intd[i]) ∧
          (∀ a, a < s.params.recordAddr ∨ s.params.recordAddr + 16 ≤ a → Memory.read g a = Memory.read f a) ∧
          (d = .ok → Programmed { s with flash := f, oracle := o } g s.params.recordAddr 2
            (padded n (s.params.nameLen + 4))) ∧
          (d ≠ .ok → ∃ k, k < 2 ∧ StoppedAt { s with flash := f, oracle := o } g s.params.recordAddr k d
            (padded n (s.params.nameLen + 4))))) ∧
    (s.oracle.Quiet → ∃ n f o,
      sequencerStep s = { s with intd := n, flash := f, oracle := o, lock := true, seqErr := .ok } ∧
      HoldsRecord s.params s.table 0 n ∧ (∀ i : Fin 16, s.params.nameLen + 4 ≤ i.val → n[i] = s.intd[i]) ∧
      ∀ a, Memory.read f a =
        if s.params.recordAddr ≤ a ∧ a < s.params.recordAddr + (s.params.nameLen + 4)
          then n.toList.getD (a - s.params.recordAddr) 0
        else if s.params.recordAddr ≤ a ∧ a < s.params.userEnd then 0xFF#8
        else Memory.read s.flash a)

/-- R149, R62: the frame of every sequencer step: it writes only STATE, RUN, SEQ_ERR, RST_REQ, OBS, INT, LOCK,
EVENTS, flash (and the model's oracle), of flash only bytes from RECORD_ADDR to USER_END, and what it writes
does not depend on ADDR, LEN, DBUF, CRC_ACC, VOK or ERR. -/
def Obligations.SequencerTouchesOnlyItsOwn : Prop :=
  ∀ s : State,
    (∃ st r se rr ob n l e f o, sequencerStep s = { s with seqState := st, run := r, seqErr := se, rstReq := rr, obs := ob, intd := n, lock := l, events := e, flash := f, oracle := o } ∧
      (s.params.WellFormed → Memory.wf s.flash → ∀ a, a < s.params.recordAddr ∨ s.params.userEnd ≤ a →
        Memory.read f a = Memory.read s.flash a)) ∧
    ∀ (a : Word) (ln : BitVec 5) (d : Vector Byte 16) (acc : Byte) (v : Bool) (c : Code),
      sequencerStep { s with addr := a, len := ln, dbuf := d, crcAcc := acc, vok := v, err := c } =
        { sequencerStep s with addr := a, len := ln, dbuf := d, crcAcc := acc, vok := v, err := c }

/-- R153: a Write step that meets a non-erased first unit returns WRITE_HW, and so does every later one:
the run never leaves Write. -/
def Obligations.WriteRetryNeverLeavesWrite : Prop :=
  ∀ (s : State) (n : Nat), s.params.WellFormed → s.seqState = 2#3 → 0 < n →
    (∃ j, j < 8 ∧ Memory.read s.flash (s.params.recordAddr + j) ≠ 0xFF#8) →
    ∃ i, sequencerStep^[n] s = { s with intd := i, seqErr := .writeHw, lock := true }

/-- R155: a Check step that fails fails again at every later step, emitting EV_CRC_FAIL each time. -/
def Obligations.CheckRetryFailsForever : Prop :=
  ∀ (s : State) (n : Nat), s.params.WellFormed → s.seqState = 3#3 → 0 < n →
    verify s.params s.table (recordBytes s) = false →
    ∃ b, sequencerStep^[n] s =
      { s with obs := b, seqErr := .checksum, events := s.events ++ List.replicate n .crcFail }

/-- R166: a record region that differs from a valid record in exactly one bit is detected by Check, which
does not move to End. -/
def Obligations.SingleBitCorruptionStopsAtCheck : Prop :=
  ∀ (s : State) (i k : Nat), s.params.WellFormed → TableReady s → s.seqState = 3#3 →
    i < s.params.recLen → k < 8 →
    verify s.params s.table
      ((recordBytes s).set i ((recordBytes s).getD i 0 ^^^ (1#8 <<< k))) = true →
    ∃ b, sequencerStep s = { s with obs := b, seqErr := .checksum, events := s.events ++ [.crcFail] }

/-- R165: the no-fault run reaches End in exactly five steps of the machine, whatever the flash held, and
leaves the request record, 0xFF up to USER_END, the two events and the restart request. The five turns use
up the first five choices of the model's own schedule (log entry 7). -/
def Obligations.NoFaultRunReachesEndInFiveSteps : Prop :=
  ∀ s : State, s.params.WellFormed → Memory.wf s.flash → TableReady s → s.oracle.Quiet →
    s.seqState = 0#3 → s.run = true → s.rstReq = false → s.busy = false → s.inputs = [] → s.resetPin = false →
    ∃ b n f o, Host.Core.run Sys2Proof.core 5 s = .next { s with
        obs := b, intd := n, flash := f, oracle := o, lock := true, seqErr := .ok, seqState := 0#3, run := false, rstReq := true, events := s.events ++ [.eraseOk, .success], sched := s.sched.drop 5 } ∧
      HoldsRecord s.params s.table 1 n ∧
      (∀ i : Fin 16, i.val < s.params.nameLen + 4 → b[i] = n[i]) ∧
      ∀ a, Memory.read f a =
        if s.params.recordAddr ≤ a ∧ a < s.params.recordAddr + (s.params.nameLen + 4)
          then n.toList.getD (a - s.params.recordAddr) 0
        else if s.params.recordAddr ≤ a ∧ a < s.params.userEnd then 0xFF#8
        else Memory.read s.flash a

/-- R146, R162: in every weakly fair run of the machine that starts a no-fault handoff at Read and is
left alone, with any host activity, the handoff reaches its restart request. Fairness is a premise, since the
model's schedule does not force it (log entry 7). -/
def Obligations.FairNoFaultHandoffCompletes : Prop :=
  ∀ r : Nat → State, IsRun r → WeaklyFair r → (r 0).params.WellFormed → Memory.wf (r 0).flash →
    TableReady (r 0) → (r 0).oracle.Quiet → (r 0).run = true → (r 0).rstReq = false →
    (r 0).seqState = 0#3 → LeftAlone (r 0) →
    ∃ n, (r n).rstReq = true ∧ (r n).run = false ∧ (r n).seqState = 0#3

/-! ### Reset, invariant and whole-machine rules (70_reset_and_hazards.md, 10_state.md) -/

/-- R43, R190: an active reset input is acted on before every pending step; every register takes its
reset value, STATUS reads 0x0000_0004, and the flash array is not changed. The table and PEND have no
reset value: the statement leaves them open. -/
def Obligations.ResetTakesPrecedence : Prop :=
  ∀ s : State, s.resetPin = true →
    ∃ (t : Vector Byte 256) (w : Word) (u : State), step s = .next u ∧
      u = { s with
        busy := false, tblValid := false, lock := true, run := false, vok := false, rstReq := false, ovr := false, err := .ok, addr := 0, len := 0, crcAcc := 0, seqState := 0#3, seqErr := .ok, dbuf := Vector.replicate 16 0, obs := Vector.replicate 16 0, intd := Vector.replicate 16 0, table := t, pend := w, events := [], resetPin := false } ∧
      (busRead32 0x004 u).1 = 0x00000004#32

/-- The invariant holds after a reset of any well-formed instance over any flash array in canonical form
inside its range. -/
def Obligations.ResetMeetsInvariant : Prop :=
  ∀ (p : Params) (f : Memory), p.WellFormed → Memory.wf f → Memory.within f p.flashBase p.flashEnd →
    Invariant (State.resetOf p f)

/-- Every step keeps the invariant: the array is locked after it (R25, R102), a valid table is the
polynomial's (R31), a run has a table and no restart request (R147, R156), the record buffers' tails stay
zero (R33), the flash array stays canonical and inside its range (R51). -/
def Obligations.StepKeepsInvariant : Prop :=
  ∀ s t : State, Invariant s → step s = .next t → Invariant t

/-- R24, R37: only a reset clears TBL_VALID or RST_REQ or shortens EVENTS; no step changes the parameters. -/
def Obligations.OnlyResetClears : Prop :=
  ∀ s t : State, step s = .next t → t.params = s.params ∧
    (s.resetPin = false →
      (s.tblValid = true → t.tblValid = true) ∧ (s.rstReq = true → t.rstReq = true) ∧
      s.events <+: t.events)

/-- R24, R156: RST_REQ is set only by the End step, RUN only by SEQ_TRIGGER and cleared only by the End
step or a reset. -/
def Obligations.RunAndRestartChangeOnlyAsNamed : Prop :=
  ∀ s t : State, step s = .next t → s.resetPin = false →
    (s.rstReq = false → t.rstReq = true → s.run = true ∧ s.seqState = 4#3 ∧ s.nextTurn = some .sequencer) ∧
    (s.run = true → t.run = false → s.seqState = 4#3 ∧ s.nextTurn = some .sequencer) ∧
    (s.run = false → t.run = true →
      decode s.pend = .ok .seqTrigger ∧ s.nextTurn = some .command ∧ s.tblValid = true ∧ s.rstReq = false)

/-- R62, R127: no step of the machine changes a flash byte outside the user area, but one that is the host's
turn at an outside change of flash, which is an agent's outside the block. -/
def Obligations.OnlyTheUserAreaIsMutated : Prop :=
  ∀ s t : State, Invariant s → step s = .next t →
    (s.resetPin = false → s.nextTurn = some .host → ∀ a b, s.inputs.head? ≠ some (.outsideFlash a b)) →
    ∀ a, a < s.params.flashBase ∨ s.params.userEnd ≤ a → Memory.read t.flash a = Memory.read s.flash a

/-! ### The host's window (10_state.md) -/

/-- R34, R42: a CMD write is accepted while BUSY = 0, with no check of the word, and dropped with OVR
else; CMD reads 0. A SEQ write is taken only while idle; it writes STATE with any of 0..7 and nothing
else. -/
def Obligations.CmdAndSeqWrites : Prop :=
  ∀ (s : State) (v : Word),
    (s.busy = false → busWrite32 0x000 v s = { s with pend := v, busy := true, ovr := false }) ∧
    (s.busy = true → busWrite32 0x000 v s = { s with ovr := true }) ∧ (busRead32 0x000 s).1 = 0 ∧
    (s.busy = true ∨ s.run = true ∨ s.rstReq = true → busWrite32 0x014 v s = { s with ovr := true }) ∧
    (s.busy = false → s.run = false → s.rstReq = false →
      busWrite32 0x014 v s = { s with seqState := v.extractLsb' 0 3 })

/-- R40: writes to ADDR, LEN and DBUF while BUSY = 0, and their drop while BUSY = 1. -/
def Obligations.OperandWrites : Prop :=
  ∀ (s : State) (v : Word) (k : Nat), k < 4 →
    (s.busy = true → busWrite32 0x008 v s = { s with ovr := true } ∧
      busWrite32 0x00C v s = { s with ovr := true } ∧ busWrite32 (0x020 + 4 * k) v s = { s with ovr := true }) ∧
    (s.busy = false → busWrite32 0x008 v s = { s with addr := v } ∧
      busWrite32 0x00C v s = { s with len := v.extractLsb' 0 5 } ∧
      ∃ d : Vector Byte 16, busWrite32 (0x020 + 4 * k) v s = { s with dbuf := d } ∧
        (∀ j, j < 4 → d.toList.getD (4 * k + j) 0 = v.extractLsb' (8 * j) 8) ∧
        ∀ i, i < 4 * k ∨ 4 * k + 4 ≤ i → d.toList.getD i 0 = s.dbuf.toList.getD i 0)

/-- R22, R23: a write to a read-only register or to an offset that the map leaves out is ignored. -/
def Obligations.ReadOnlyAndUnmappedWritesIgnored : Prop :=
  ∀ (s : State) (off : Nat) (v : Word),
    off ≠ 0x000 → off ≠ 0x008 → off ≠ 0x00C → off ≠ 0x014 → ¬ (0x020 ≤ off ∧ off < 0x030) →
    busWrite32 off v s = s

/-- R24, R29, R30, R159, R170: the words of STATUS, SEQ and INFO, bit by bit, reserved bits 0; ERR and SEQ_ERR read
as the numbers of R170, and 14 and 15 are never one. R159: the events' numbers. -/
def Obligations.StatusSeqAndInfoWords : Prop :=
  (∀ s : State, s.params.WellFormed →
    (busRead32 0x004 s).1.toNat = s.busy.toNat + 2 * s.tblValid.toNat + 4 * s.lock.toNat + 8 * s.run.toNat +
      16 * s.vok.toNat + 32 * s.rstReq.toNat + 64 * s.ovr.toNat + 256 * s.err.toNat ∧
    (busRead32 0x014 s).1.toNat = s.seqState.toNat + 256 * s.seqErr.toNat ∧
    (busRead32 0x018 s).1.toNat = 1 + 256 * (s.params.nameLen + 4) + 65536 * 8) ∧
  Code.ok.toNat = 0 ∧ Code.readZero.toNat = 1 ∧ Code.readRange.toNat = 2 ∧ Code.eraseRange.toNat = 3 ∧
  Code.eraseHw.toNat = 4 ∧ Code.writeHw.toNat = 5 ∧ Code.writeVerify.toNat = 6 ∧ Code.writeRange.toNat = 7 ∧
  Code.align.toNat = 8 ∧ Code.checksum.toNat = 9 ∧ Code.notInit.toNat = 10 ∧ Code.busy.toNat = 11 ∧
  Code.illegal.toNat = 12 ∧ Code.badLen.toNat = 13 ∧ (∀ c : Code, c.toNat < 14) ∧
  Event.eraseOk.toNat = 1 ∧ Event.crcFail.toNat = 2 ∧ Event.success.toNat = 3

/-- R32, R33, R56: the words of DBUF, OBS and INT, little-endian. -/
def Obligations.BufferWordsAreLittleEndian : Prop :=
  ∀ (s : State) (k : Nat), k < 4 →
    (busRead32 (0x020 + 4 * k) s).1.toNat = (s.dbuf.toList.getD (4 * k) 0).toNat +
      256 * (s.dbuf.toList.getD (4 * k + 1) 0).toNat + 65536 * (s.dbuf.toList.getD (4 * k + 2) 0).toNat +
      16777216 * (s.dbuf.toList.getD (4 * k + 3) 0).toNat ∧
    (busRead32 (0x040 + 4 * k) s).1.toNat = (s.obs.toList.getD (4 * k) 0).toNat +
      256 * (s.obs.toList.getD (4 * k + 1) 0).toNat + 65536 * (s.obs.toList.getD (4 * k + 2) 0).toNat +
      16777216 * (s.obs.toList.getD (4 * k + 3) 0).toNat ∧
    (busRead32 (0x050 + 4 * k) s).1.toNat = (s.intd.toList.getD (4 * k) 0).toNat +
      256 * (s.intd.toList.getD (4 * k + 1) 0).toNat + 65536 * (s.intd.toList.getD (4 * k + 2) 0).toNat +
      16777216 * (s.intd.toList.getD (4 * k + 3) 0).toNat

/-- R31: TBLi reads T[i] while TBL_VALID = 1; while it is 0, every 8-bit value is admitted and no other. -/
def Obligations.TableWindow : Prop :=
  ∀ (s : State) (i : Fin 256),
    (s.tblValid = true → busRead32 (0x400 + 4 * i.val) s = (s.table[i].setWidth 32, s)) ∧
    (s.tblValid = false → (busRead32 (0x400 + 4 * i.val) s).1.toNat < 256 ∧
      ∀ b : Byte, ∃ o, (busRead32 (0x400 + 4 * i.val) { s with oracle := o }).1 = b.setWidth 32)

/-- R22, R39, R61: a read changes no state of the block (only the model's own oracle can move, and only at a
TBL read before CRC_INIT, log entry 5); ADDR, LEN and CRC_ACC read as held; every offset that the map leaves
out reads 0. -/
def Obligations.ReadsHaveNoSideEffect : Prop :=
  ∀ (s : State) (off : Nat),
    (∃ o, (busRead32 off s).2 = { s with oracle := o }) ∧
    (s.tblValid = true ∨ off < 0x400 → (busRead32 off s).2 = s) ∧
    busRead32 0x008 s = (s.addr, s) ∧ (busRead32 0x00C s).1.toNat = s.len.toNat ∧
    (busRead32 0x010 s).1.toNat = s.crcAcc.toNat ∧
    (off ∉ [0x000, 0x004, 0x008, 0x00C, 0x010, 0x014, 0x018] → ¬ (0x020 ≤ off ∧ off < 0x030) →
      ¬ (0x040 ≤ off ∧ off < 0x060) → ¬ (0x400 ≤ off ∧ off < 0x800) → busRead32 off s = (0, s))

/-- R22, R58: an admitted access reaches the register at its offset from BLOCK_BASE; the host is stuck at
one that is not a word access or not at a multiple of 4 of the window. The faults' names, the fault
`outsideWindow` for an access that is not the block's, and that the width is looked at before the window,
are the model's (log entry 11). -/
def Obligations.HostAccessesByWidthAndAddress : Prop :=
  ∀ (s : State) (a off : Nat) (w : Width) (v : Word) (rest : List Input),
    (off < 0x800 → off % 4 = 0 →
      turnStep .host { s with inputs := .write (s.params.blockBase + off) .word v :: rest } =
        .next (busWrite32 off v { s with inputs := rest }) ∧
      turnStep .host { s with inputs := .read (s.params.blockBase + off) .word :: rest } =
        .next { (busRead32 off { s with inputs := rest }).2 with
          readLog := s.readLog ++ [(busRead32 off { s with inputs := rest }).1] }) ∧
    (w ≠ .word →
      turnStep .host { s with inputs := .write a w v :: rest } = .fault .narrowAccess ∧
      turnStep .host { s with inputs := .read a w :: rest } = .fault .narrowAccess) ∧
    (w = .word → s.params.blockBase ≤ a → a < s.params.blockBase + 0x800 →
      (a - s.params.blockBase) % 4 ≠ 0 →
      turnStep .host { s with inputs := .write a w v :: rest } = .fault .unalignedAccess ∧
      turnStep .host { s with inputs := .read a w :: rest } = .fault .unalignedAccess) ∧
    (w = .word → a < s.params.blockBase ∨ s.params.blockBase + 0x800 ≤ a →
      turnStep .host { s with inputs := .write a w v :: rest } = .fault .outsideWindow ∧
      turnStep .host { s with inputs := .read a w :: rest } = .fault .outsideWindow)

/-- R167: during a run no register write of the host changes the run: STATE, SEQ_ERR, RUN, RST_REQ, OBS,
INT, LOCK, EVENTS, the table and flash are as before. -/
def Obligations.HostWritesDoNotDisturbARun : Prop :=
  ∀ (s : State) (off : Nat) (v : Word), s.run = true →
    ∃ a l d p b o, busWrite32 off v s =
      { s with addr := a, len := l, dbuf := d, pend := p, busy := b, ovr := o }
end

