-- ==== Sys2Proof/Laws/State.lean ====
section
/-! SUPPORT. One lemma per field per named update of State, true by unfolding, so that no later proof
unfolds a record update. -/

namespace Sys2Proof.Machine

@[simp] theorem State.unlock_params (s : State) : (s.unlock).params = s.params := rfl
@[simp] theorem State.unlock_busy (s : State) : (s.unlock).busy = s.busy := rfl
@[simp] theorem State.unlock_tblValid (s : State) : (s.unlock).tblValid = s.tblValid := rfl
@[simp] theorem State.unlock_lock (s : State) : (s.unlock).lock = false := rfl
@[simp] theorem State.unlock_run (s : State) : (s.unlock).run = s.run := rfl
@[simp] theorem State.unlock_vok (s : State) : (s.unlock).vok = s.vok := rfl
@[simp] theorem State.unlock_rstReq (s : State) : (s.unlock).rstReq = s.rstReq := rfl
@[simp] theorem State.unlock_ovr (s : State) : (s.unlock).ovr = s.ovr := rfl
@[simp] theorem State.unlock_err (s : State) : (s.unlock).err = s.err := rfl
@[simp] theorem State.unlock_addr (s : State) : (s.unlock).addr = s.addr := rfl
@[simp] theorem State.unlock_len (s : State) : (s.unlock).len = s.len := rfl
@[simp] theorem State.unlock_crcAcc (s : State) : (s.unlock).crcAcc = s.crcAcc := rfl
@[simp] theorem State.unlock_seqState (s : State) : (s.unlock).seqState = s.seqState := rfl
@[simp] theorem State.unlock_seqErr (s : State) : (s.unlock).seqErr = s.seqErr := rfl
@[simp] theorem State.unlock_dbuf (s : State) : (s.unlock).dbuf = s.dbuf := rfl
@[simp] theorem State.unlock_obs (s : State) : (s.unlock).obs = s.obs := rfl
@[simp] theorem State.unlock_intd (s : State) : (s.unlock).intd = s.intd := rfl
@[simp] theorem State.unlock_table (s : State) : (s.unlock).table = s.table := rfl
@[simp] theorem State.unlock_pend (s : State) : (s.unlock).pend = s.pend := rfl
@[simp] theorem State.unlock_events (s : State) : (s.unlock).events = s.events := rfl
@[simp] theorem State.unlock_flash (s : State) : (s.unlock).flash = s.flash := rfl
@[simp] theorem State.unlock_resetPin (s : State) : (s.unlock).resetPin = s.resetPin := rfl
@[simp] theorem State.unlock_inputs (s : State) : (s.unlock).inputs = s.inputs := rfl
@[simp] theorem State.unlock_readLog (s : State) : (s.unlock).readLog = s.readLog := rfl
@[simp] theorem State.unlock_sched (s : State) : (s.unlock).sched = s.sched := rfl
@[simp] theorem State.unlock_oracle (s : State) : (s.unlock).oracle = s.oracle := rfl

@[simp] theorem State.relock_params (s : State) : (s.relock).params = s.params := rfl
@[simp] theorem State.relock_busy (s : State) : (s.relock).busy = s.busy := rfl
@[simp] theorem State.relock_tblValid (s : State) : (s.relock).tblValid = s.tblValid := rfl
@[simp] theorem State.relock_lock (s : State) : (s.relock).lock = true := rfl
@[simp] theorem State.relock_run (s : State) : (s.relock).run = s.run := rfl
@[simp] theorem State.relock_vok (s : State) : (s.relock).vok = s.vok := rfl
@[simp] theorem State.relock_rstReq (s : State) : (s.relock).rstReq = s.rstReq := rfl
@[simp] theorem State.relock_ovr (s : State) : (s.relock).ovr = s.ovr := rfl
@[simp] theorem State.relock_err (s : State) : (s.relock).err = s.err := rfl
@[simp] theorem State.relock_addr (s : State) : (s.relock).addr = s.addr := rfl
@[simp] theorem State.relock_len (s : State) : (s.relock).len = s.len := rfl
@[simp] theorem State.relock_crcAcc (s : State) : (s.relock).crcAcc = s.crcAcc := rfl
@[simp] theorem State.relock_seqState (s : State) : (s.relock).seqState = s.seqState := rfl
@[simp] theorem State.relock_seqErr (s : State) : (s.relock).seqErr = s.seqErr := rfl
@[simp] theorem State.relock_dbuf (s : State) : (s.relock).dbuf = s.dbuf := rfl
@[simp] theorem State.relock_obs (s : State) : (s.relock).obs = s.obs := rfl
@[simp] theorem State.relock_intd (s : State) : (s.relock).intd = s.intd := rfl
@[simp] theorem State.relock_table (s : State) : (s.relock).table = s.table := rfl
@[simp] theorem State.relock_pend (s : State) : (s.relock).pend = s.pend := rfl
@[simp] theorem State.relock_events (s : State) : (s.relock).events = s.events := rfl
@[simp] theorem State.relock_flash (s : State) : (s.relock).flash = s.flash := rfl
@[simp] theorem State.relock_resetPin (s : State) : (s.relock).resetPin = s.resetPin := rfl
@[simp] theorem State.relock_inputs (s : State) : (s.relock).inputs = s.inputs := rfl
@[simp] theorem State.relock_readLog (s : State) : (s.relock).readLog = s.readLog := rfl
@[simp] theorem State.relock_sched (s : State) : (s.relock).sched = s.sched := rfl
@[simp] theorem State.relock_oracle (s : State) : (s.relock).oracle = s.oracle := rfl

@[simp] theorem State.finish_params (s : State) (c : Code) : (s.finish c).params = s.params := rfl
@[simp] theorem State.finish_busy (s : State) (c : Code) : (s.finish c).busy = false := rfl
@[simp] theorem State.finish_tblValid (s : State) (c : Code) : (s.finish c).tblValid = s.tblValid := rfl
@[simp] theorem State.finish_lock (s : State) (c : Code) : (s.finish c).lock = s.lock := rfl
@[simp] theorem State.finish_run (s : State) (c : Code) : (s.finish c).run = s.run := rfl
@[simp] theorem State.finish_vok (s : State) (c : Code) : (s.finish c).vok = s.vok := rfl
@[simp] theorem State.finish_rstReq (s : State) (c : Code) : (s.finish c).rstReq = s.rstReq := rfl
@[simp] theorem State.finish_ovr (s : State) (c : Code) : (s.finish c).ovr = s.ovr := rfl
@[simp] theorem State.finish_err (s : State) (c : Code) : (s.finish c).err = c := rfl
@[simp] theorem State.finish_addr (s : State) (c : Code) : (s.finish c).addr = s.addr := rfl
@[simp] theorem State.finish_len (s : State) (c : Code) : (s.finish c).len = s.len := rfl
@[simp] theorem State.finish_crcAcc (s : State) (c : Code) : (s.finish c).crcAcc = s.crcAcc := rfl
@[simp] theorem State.finish_seqState (s : State) (c : Code) : (s.finish c).seqState = s.seqState := rfl
@[simp] theorem State.finish_seqErr (s : State) (c : Code) : (s.finish c).seqErr = s.seqErr := rfl
@[simp] theorem State.finish_dbuf (s : State) (c : Code) : (s.finish c).dbuf = s.dbuf := rfl
@[simp] theorem State.finish_obs (s : State) (c : Code) : (s.finish c).obs = s.obs := rfl
@[simp] theorem State.finish_intd (s : State) (c : Code) : (s.finish c).intd = s.intd := rfl
@[simp] theorem State.finish_table (s : State) (c : Code) : (s.finish c).table = s.table := rfl
@[simp] theorem State.finish_pend (s : State) (c : Code) : (s.finish c).pend = s.pend := rfl
@[simp] theorem State.finish_events (s : State) (c : Code) : (s.finish c).events = s.events := rfl
@[simp] theorem State.finish_flash (s : State) (c : Code) : (s.finish c).flash = s.flash := rfl
@[simp] theorem State.finish_resetPin (s : State) (c : Code) : (s.finish c).resetPin = s.resetPin := rfl
@[simp] theorem State.finish_inputs (s : State) (c : Code) : (s.finish c).inputs = s.inputs := rfl
@[simp] theorem State.finish_readLog (s : State) (c : Code) : (s.finish c).readLog = s.readLog := rfl
@[simp] theorem State.finish_sched (s : State) (c : Code) : (s.finish c).sched = s.sched := rfl
@[simp] theorem State.finish_oracle (s : State) (c : Code) : (s.finish c).oracle = s.oracle := rfl

@[simp] theorem State.drop_params (s : State) : (s.drop).params = s.params := rfl
@[simp] theorem State.drop_busy (s : State) : (s.drop).busy = s.busy := rfl
@[simp] theorem State.drop_tblValid (s : State) : (s.drop).tblValid = s.tblValid := rfl
@[simp] theorem State.drop_lock (s : State) : (s.drop).lock = s.lock := rfl
@[simp] theorem State.drop_run (s : State) : (s.drop).run = s.run := rfl
@[simp] theorem State.drop_vok (s : State) : (s.drop).vok = s.vok := rfl
@[simp] theorem State.drop_rstReq (s : State) : (s.drop).rstReq = s.rstReq := rfl
@[simp] theorem State.drop_ovr (s : State) : (s.drop).ovr = true := rfl
@[simp] theorem State.drop_err (s : State) : (s.drop).err = s.err := rfl
@[simp] theorem State.drop_addr (s : State) : (s.drop).addr = s.addr := rfl
@[simp] theorem State.drop_len (s : State) : (s.drop).len = s.len := rfl
@[simp] theorem State.drop_crcAcc (s : State) : (s.drop).crcAcc = s.crcAcc := rfl
@[simp] theorem State.drop_seqState (s : State) : (s.drop).seqState = s.seqState := rfl
@[simp] theorem State.drop_seqErr (s : State) : (s.drop).seqErr = s.seqErr := rfl
@[simp] theorem State.drop_dbuf (s : State) : (s.drop).dbuf = s.dbuf := rfl
@[simp] theorem State.drop_obs (s : State) : (s.drop).obs = s.obs := rfl
@[simp] theorem State.drop_intd (s : State) : (s.drop).intd = s.intd := rfl
@[simp] theorem State.drop_table (s : State) : (s.drop).table = s.table := rfl
@[simp] theorem State.drop_pend (s : State) : (s.drop).pend = s.pend := rfl
@[simp] theorem State.drop_events (s : State) : (s.drop).events = s.events := rfl
@[simp] theorem State.drop_flash (s : State) : (s.drop).flash = s.flash := rfl
@[simp] theorem State.drop_resetPin (s : State) : (s.drop).resetPin = s.resetPin := rfl
@[simp] theorem State.drop_inputs (s : State) : (s.drop).inputs = s.inputs := rfl
@[simp] theorem State.drop_readLog (s : State) : (s.drop).readLog = s.readLog := rfl
@[simp] theorem State.drop_sched (s : State) : (s.drop).sched = s.sched := rfl
@[simp] theorem State.drop_oracle (s : State) : (s.drop).oracle = s.oracle := rfl

@[simp] theorem State.emit_params (s : State) (e : Event) : (s.emit e).params = s.params := rfl
@[simp] theorem State.emit_busy (s : State) (e : Event) : (s.emit e).busy = s.busy := rfl
@[simp] theorem State.emit_tblValid (s : State) (e : Event) : (s.emit e).tblValid = s.tblValid := rfl
@[simp] theorem State.emit_lock (s : State) (e : Event) : (s.emit e).lock = s.lock := rfl
@[simp] theorem State.emit_run (s : State) (e : Event) : (s.emit e).run = s.run := rfl
@[simp] theorem State.emit_vok (s : State) (e : Event) : (s.emit e).vok = s.vok := rfl
@[simp] theorem State.emit_rstReq (s : State) (e : Event) : (s.emit e).rstReq = s.rstReq := rfl
@[simp] theorem State.emit_ovr (s : State) (e : Event) : (s.emit e).ovr = s.ovr := rfl
@[simp] theorem State.emit_err (s : State) (e : Event) : (s.emit e).err = s.err := rfl
@[simp] theorem State.emit_addr (s : State) (e : Event) : (s.emit e).addr = s.addr := rfl
@[simp] theorem State.emit_len (s : State) (e : Event) : (s.emit e).len = s.len := rfl
@[simp] theorem State.emit_crcAcc (s : State) (e : Event) : (s.emit e).crcAcc = s.crcAcc := rfl
@[simp] theorem State.emit_seqState (s : State) (e : Event) : (s.emit e).seqState = s.seqState := rfl
@[simp] theorem State.emit_seqErr (s : State) (e : Event) : (s.emit e).seqErr = s.seqErr := rfl
@[simp] theorem State.emit_dbuf (s : State) (e : Event) : (s.emit e).dbuf = s.dbuf := rfl
@[simp] theorem State.emit_obs (s : State) (e : Event) : (s.emit e).obs = s.obs := rfl
@[simp] theorem State.emit_intd (s : State) (e : Event) : (s.emit e).intd = s.intd := rfl
@[simp] theorem State.emit_table (s : State) (e : Event) : (s.emit e).table = s.table := rfl
@[simp] theorem State.emit_pend (s : State) (e : Event) : (s.emit e).pend = s.pend := rfl
@[simp] theorem State.emit_events (s : State) (e : Event) : (s.emit e).events = s.events ++ [e] := rfl
@[simp] theorem State.emit_flash (s : State) (e : Event) : (s.emit e).flash = s.flash := rfl
@[simp] theorem State.emit_resetPin (s : State) (e : Event) : (s.emit e).resetPin = s.resetPin := rfl
@[simp] theorem State.emit_inputs (s : State) (e : Event) : (s.emit e).inputs = s.inputs := rfl
@[simp] theorem State.emit_readLog (s : State) (e : Event) : (s.emit e).readLog = s.readLog := rfl
@[simp] theorem State.emit_sched (s : State) (e : Event) : (s.emit e).sched = s.sched := rfl
@[simp] theorem State.emit_oracle (s : State) (e : Event) : (s.emit e).oracle = s.oracle := rfl

@[simp] theorem State.tookTurn_params (s : State) : (s.tookTurn).params = s.params := rfl
@[simp] theorem State.tookTurn_busy (s : State) : (s.tookTurn).busy = s.busy := rfl
@[simp] theorem State.tookTurn_tblValid (s : State) : (s.tookTurn).tblValid = s.tblValid := rfl
@[simp] theorem State.tookTurn_lock (s : State) : (s.tookTurn).lock = s.lock := rfl
@[simp] theorem State.tookTurn_run (s : State) : (s.tookTurn).run = s.run := rfl
@[simp] theorem State.tookTurn_vok (s : State) : (s.tookTurn).vok = s.vok := rfl
@[simp] theorem State.tookTurn_rstReq (s : State) : (s.tookTurn).rstReq = s.rstReq := rfl
@[simp] theorem State.tookTurn_ovr (s : State) : (s.tookTurn).ovr = s.ovr := rfl
@[simp] theorem State.tookTurn_err (s : State) : (s.tookTurn).err = s.err := rfl
@[simp] theorem State.tookTurn_addr (s : State) : (s.tookTurn).addr = s.addr := rfl
@[simp] theorem State.tookTurn_len (s : State) : (s.tookTurn).len = s.len := rfl
@[simp] theorem State.tookTurn_crcAcc (s : State) : (s.tookTurn).crcAcc = s.crcAcc := rfl
@[simp] theorem State.tookTurn_seqState (s : State) : (s.tookTurn).seqState = s.seqState := rfl
@[simp] theorem State.tookTurn_seqErr (s : State) : (s.tookTurn).seqErr = s.seqErr := rfl
@[simp] theorem State.tookTurn_dbuf (s : State) : (s.tookTurn).dbuf = s.dbuf := rfl
@[simp] theorem State.tookTurn_obs (s : State) : (s.tookTurn).obs = s.obs := rfl
@[simp] theorem State.tookTurn_intd (s : State) : (s.tookTurn).intd = s.intd := rfl
@[simp] theorem State.tookTurn_table (s : State) : (s.tookTurn).table = s.table := rfl
@[simp] theorem State.tookTurn_pend (s : State) : (s.tookTurn).pend = s.pend := rfl
@[simp] theorem State.tookTurn_events (s : State) : (s.tookTurn).events = s.events := rfl
@[simp] theorem State.tookTurn_flash (s : State) : (s.tookTurn).flash = s.flash := rfl
@[simp] theorem State.tookTurn_resetPin (s : State) : (s.tookTurn).resetPin = s.resetPin := rfl
@[simp] theorem State.tookTurn_inputs (s : State) : (s.tookTurn).inputs = s.inputs := rfl
@[simp] theorem State.tookTurn_readLog (s : State) : (s.tookTurn).readLog = s.readLog := rfl
@[simp] theorem State.tookTurn_sched (s : State) : (s.tookTurn).sched = s.sched.tail := rfl
@[simp] theorem State.tookTurn_oracle (s : State) : (s.tookTurn).oracle = s.oracle.tick := rfl

@[simp] theorem State.placeCommand_params (s : State) (w : Word) : (s.placeCommand w).params = s.params := rfl
@[simp] theorem State.placeCommand_busy (s : State) (w : Word) : (s.placeCommand w).busy = true := rfl
@[simp] theorem State.placeCommand_tblValid (s : State) (w : Word) : (s.placeCommand w).tblValid = s.tblValid := rfl
@[simp] theorem State.placeCommand_lock (s : State) (w : Word) : (s.placeCommand w).lock = s.lock := rfl
@[simp] theorem State.placeCommand_run (s : State) (w : Word) : (s.placeCommand w).run = s.run := rfl
@[simp] theorem State.placeCommand_vok (s : State) (w : Word) : (s.placeCommand w).vok = s.vok := rfl
@[simp] theorem State.placeCommand_rstReq (s : State) (w : Word) : (s.placeCommand w).rstReq = s.rstReq := rfl
@[simp] theorem State.placeCommand_ovr (s : State) (w : Word) : (s.placeCommand w).ovr = s.ovr := rfl
@[simp] theorem State.placeCommand_err (s : State) (w : Word) : (s.placeCommand w).err = s.err := rfl
@[simp] theorem State.placeCommand_addr (s : State) (w : Word) : (s.placeCommand w).addr = s.addr := rfl
@[simp] theorem State.placeCommand_len (s : State) (w : Word) : (s.placeCommand w).len = s.len := rfl
@[simp] theorem State.placeCommand_crcAcc (s : State) (w : Word) : (s.placeCommand w).crcAcc = s.crcAcc := rfl
@[simp] theorem State.placeCommand_seqState (s : State) (w : Word) : (s.placeCommand w).seqState = s.seqState := rfl
@[simp] theorem State.placeCommand_seqErr (s : State) (w : Word) : (s.placeCommand w).seqErr = s.seqErr := rfl
@[simp] theorem State.placeCommand_dbuf (s : State) (w : Word) : (s.placeCommand w).dbuf = s.dbuf := rfl
@[simp] theorem State.placeCommand_obs (s : State) (w : Word) : (s.placeCommand w).obs = s.obs := rfl
@[simp] theorem State.placeCommand_intd (s : State) (w : Word) : (s.placeCommand w).intd = s.intd := rfl
@[simp] theorem State.placeCommand_table (s : State) (w : Word) : (s.placeCommand w).table = s.table := rfl
@[simp] theorem State.placeCommand_pend (s : State) (w : Word) : (s.placeCommand w).pend = w := rfl
@[simp] theorem State.placeCommand_events (s : State) (w : Word) : (s.placeCommand w).events = s.events := rfl
@[simp] theorem State.placeCommand_flash (s : State) (w : Word) : (s.placeCommand w).flash = s.flash := rfl
@[simp] theorem State.placeCommand_resetPin (s : State) (w : Word) : (s.placeCommand w).resetPin = false := rfl
@[simp] theorem State.placeCommand_inputs (s : State) (w : Word) : (s.placeCommand w).inputs = s.inputs := rfl
@[simp] theorem State.placeCommand_readLog (s : State) (w : Word) : (s.placeCommand w).readLog = s.readLog := rfl
@[simp] theorem State.placeCommand_sched (s : State) (w : Word) : (s.placeCommand w).sched = .command :: s.sched := rfl
@[simp] theorem State.placeCommand_oracle (s : State) (w : Word) : (s.placeCommand w).oracle = s.oracle := rfl

@[simp] theorem Oracle.tick_drawn (o : Oracle) : o.tick.drawn = o.drawn + 1 := rfl
@[simp] theorem Oracle.tick_noFault (o : Oracle) : o.tick.noFault = o.noFault := rfl
@[simp] theorem Oracle.tick_eraseAnswers (o : Oracle) : o.tick.eraseAnswers = o.eraseAnswers := rfl
@[simp] theorem Oracle.tick_programAnswers (o : Oracle) : o.tick.programAnswers = o.programAnswers := rfl
@[simp] theorem Oracle.tick_byteAnswers (o : Oracle) : o.tick.byteAnswers = o.byteAnswers := rfl

end Sys2Proof.Machine
end

