-- ==== Sys2Proof/Laws/Commands.lean ====
section
/-! SUPPORT. How every command executes (R74): one equation for `exec`, and what each of its checks
leads to (R172). -/

namespace Sys2Proof.Machine

/-- A command's own rule (the `Perform` of R74). -/
def performOf : Instr → State → Code × State
  | .crcInit => performCrcInit
  | .crcClear => performCrcClear
  | .crcFeed b => performCrcFeed b
  | .crcBuf => performCrcBuf
  | .flRead => performFlRead
  | .flErase => performFlErase
  | .flProgram => performFlProgram
  | .recSer0 => performRecSer 0
  | .recSer1 => performRecSer 1
  | .recVerify => performRecVerify
  | .seqTrigger => performSeqTrigger

/-- Every command is its checks and its own rule (R74). -/
theorem exec_eq_runCommand (i : Instr) (s : State) : exec i s = runCommand i (performOf i) s := by
  cases i <;> rfl

/-- Where the checks pass, the command's own rule decides (R74). -/
theorem exec_of_check_ok {i : Instr} {s : State} (h : s.check i = .ok) :
    exec i s = .next ((performOf i s).2.finish (performOf i s).1) := by
  rw [exec_eq_runCommand]; unfold runCommand; rw [h]

/-- Where a check fails, only ERR and BUSY change (R74). -/
theorem exec_of_check_fails {i : Instr} {s : State} {c : Code} (h : s.check i = c) (hc : c ≠ .ok) :
    exec i s = .next (s.finish c) := by
  rw [exec_eq_runCommand]; unfold runCommand; rw [h]
  cases c <;> first | rfl | exact absurd rfl hc

/-- No command faults or is refused (R75, R171). -/
theorem exec_completes (i : Instr) (s : State) : ∃ t, exec i s = .next t := by
  by_cases h : s.check i = .ok
  · exact ⟨_, exec_of_check_ok h⟩
  · exact ⟨_, exec_of_check_fails rfl h⟩

theorem check_busy {i : Instr} {s : State} (h : s.run = true ∨ s.rstReq = true) : s.check i = .busy := by
  unfold State.check; rw [if_pos h]

theorem check_notInit {i : Instr} {s : State} (h : s.run = false ∧ s.rstReq = false)
    (ht : usesTable i = true) (hv : s.tblValid = false) : s.check i = .notInit := by
  unfold State.check; rw [if_neg (by simp [h.1, h.2]), if_pos ⟨ht, hv⟩]

theorem check_badLen {i : Instr} {s : State} (h : s.run = false ∧ s.rstReq = false)
    (ht : usesTable i = true → s.tblValid = true) (hl : usesLen i = true) (hn : 16 < s.len.toNat) :
    s.check i = .badLen := by
  unfold State.check
  rw [if_neg (by simp [h.1, h.2]), if_neg (by rintro ⟨h1, h2⟩; rw [ht h1] at h2; cases h2),
    if_pos ⟨hl, hn⟩]

theorem check_ok {i : Instr} {s : State} (h : s.run = false ∧ s.rstReq = false)
    (ht : usesTable i = true → s.tblValid = true) (hl : usesLen i = true → s.len.toNat ≤ 16) :
    s.check i = .ok := by
  unfold State.check
  rw [if_neg (by simp [h.1, h.2]), if_neg (by rintro ⟨h1, h2⟩; rw [ht h1] at h2; cases h2),
    if_neg (by rintro ⟨h1, h2⟩; exact absurd (hl h1) (Nat.not_le.2 h2))]

/-- The checks pass only as R172 says. -/
theorem check_ok_iff {i : Instr} {s : State} : s.check i = .ok ↔
    (s.run = false ∧ s.rstReq = false) ∧ (usesTable i = true → s.tblValid = true) ∧
      (usesLen i = true → s.len.toNat ≤ 16) := by
  refine ⟨fun h => ?_, fun ⟨h1, h2, h3⟩ => check_ok h1 h2 h3⟩
  unfold State.check at h
  split at h
  · cases h
  · split at h
    · cases h
    · split at h
      · cases h
      · rename_i h1 h2 h3
        refine ⟨by simpa using h1, fun ht => ?_, fun hl => ?_⟩
        · cases hv : s.tblValid
          · exact absurd ⟨ht, hv⟩ h2
          · rfl
        · exact Nat.le_of_not_lt fun hn => h3 ⟨hl, hn⟩

end Sys2Proof.Machine
end

