-- ==== Sys2Proof/Laws/Crc.lean ====
section
/-! SUPPORT. The CRC table is linear (the ground of R92 and R93), and the fold of the table. -/

namespace Sys2Proof.Machine

/-- The polynomial where the bit shifted out is 1. -/
theorem crcRound_eq (c : Byte) :
    crcRound c = (c <<< 1) ^^^ (if c.getLsbD 7 then 0x07#8 else 0#8) := by
  unfold crcRound; split <;> simp

theorem crcRound_xor (a b : Byte) : crcRound (a ^^^ b) = crcRound a ^^^ crcRound b := by
  rw [crcRound_eq, crcRound_eq, crcRound_eq, BitVec.shiftLeft_xor_distrib, BitVec.getLsbD_xor]
  have : ∀ p q : Bool, (if (p ^^ q) = true then 0x07#8 else 0#8) =
      (if p = true then 0x07#8 else 0#8) ^^^ (if q = true then 0x07#8 else 0#8) := by decide
  rw [this]
  ac_rfl

theorem crcEntry_xor (a b : Byte) : crcEntry (a ^^^ b) = crcEntry a ^^^ crcEntry b := by
  simp only [crcEntry, crcRound_xor]

theorem crcEntry_zero : crcEntry 0 = 0 := by decide

/-- No byte but 0 leaves a round as 0. -/
theorem crcRound_eq_zero (c : Byte) (h : crcRound c = 0) : c = 0 := by
  revert c; decide

theorem crcEntry_eq_zero (c : Byte) (h : crcEntry c = 0) : c = 0 := by
  unfold crcEntry at h
  exact crcRound_eq_zero _ (crcRound_eq_zero _ (crcRound_eq_zero _ (crcRound_eq_zero _
    (crcRound_eq_zero _ (crcRound_eq_zero _ (crcRound_eq_zero _ (crcRound_eq_zero _ h)))))))

theorem crcEntry_injective {a b : Byte} (h : crcEntry a = crcEntry b) : a = b := by
  have h0 : crcEntry (a ^^^ b) = 0 := by rw [crcEntry_xor, h]; exact BitVec.xor_self
  have := crcEntry_eq_zero _ h0
  simpa using this

/-- Reading the table CRC_INIT builds (R86). -/
theorem crcTable_get (i : Fin 256) : crcTable[i] = crcEntry (BitVec.ofFin i) := by
  unfold crcTable
  exact Vector.getElem_ofFn _

/-- A fold step over the valid table. -/
theorem crcStep_crcTable (acc b : Byte) : crcStep crcTable acc b = crcEntry (acc ^^^ b) := by
  unfold crcStep
  rw [crcTable_get]

theorem crcFold_append (t : Vector Byte 256) (acc : Byte) (as bs : List Byte) :
    crcFold t acc (as ++ bs) = crcFold t (crcFold t acc as) bs := List.foldl_append

theorem crcFold_cons (t : Vector Byte 256) (acc b : Byte) (bs : List Byte) :
    crcFold t acc (b :: bs) = crcFold t (crcStep t acc b) bs := rfl

/-- Over the valid table, folds from different accumulators stay different. -/
theorem crcFold_injective (bs : List Byte) {a b : Byte}
    (h : crcFold crcTable a bs = crcFold crcTable b bs) : a = b := by
  induction bs generalizing a b with
  | nil => exact h
  | cons x bs ih =>
    rw [crcFold_cons, crcFold_cons] at h
    have := ih h
    rw [crcStep_crcTable, crcStep_crcTable] at this
    have := crcEntry_injective this
    simpa using this

end Sys2Proof.Machine
end

