-- ==== Sys2Proof/Laws/Draws.lean ====
section
/-! SUPPORT. What each draw of the oracle can answer: NONE for the no-fault oracle, the listed answer
where one is listed. -/

namespace Sys2Proof.Machine

open Sys2Proof.Safety

/-- The no-fault oracle answers NONE and stays the no-fault oracle. -/
theorem Oracle.drawErase_quiet {o : Oracle} (p : Nat) (h : o.Quiet) :
    (o.drawErase p).1 = .none ∧ (o.drawErase p).2.Quiet := by
  obtain ⟨h1, h2, h3⟩ := h
  unfold Oracle.drawErase
  split
  · rename_i a rest he
    rw [he] at h2
    exact ⟨h2 a List.mem_cons_self, h1, fun b hb => h2 b (List.mem_cons_of_mem _ hb), h3⟩
  · exact ⟨by simp [h1], h1, h2, h3⟩

theorem Oracle.drawProgram_quiet {o : Oracle} (d : Nat) (h : o.Quiet) :
    (o.drawProgram d).1 = .none ∧ (o.drawProgram d).2.Quiet := by
  obtain ⟨h1, h2, h3⟩ := h
  unfold Oracle.drawProgram
  split
  · rename_i a rest he
    rw [he] at h3
    exact ⟨h3 a List.mem_cons_self, h1, h2, fun b hb => h3 b (List.mem_cons_of_mem _ hb)⟩
  · exact ⟨by simp [h1], h1, h2, h3⟩

/-- A listed answer is the one given. -/
theorem Oracle.drawErase_listed {o : Oracle} (p : Nat) {a : EraseDraw} {rest : List EraseDraw}
    (h : o.eraseAnswers = a :: rest) :
    o.drawErase p = (a, { o.tick with eraseAnswers := rest }) := by
  unfold Oracle.drawErase; rw [h]

theorem Oracle.drawProgram_listed {o : Oracle} (d : Nat) {a : ProgramDraw} {rest : List ProgramDraw}
    (h : o.programAnswers = a :: rest) :
    o.drawProgram d = (a, { o.tick with programAnswers := rest }) := by
  unfold Oracle.drawProgram; rw [h]

/-- A draw uses up the first listed answer; what it gives is an answer the oracle can give first. -/
theorem Oracle.drawErase_spec (o : Oracle) (p : Nat) :
    (o.drawErase p).2.eraseAnswers = o.eraseAnswers.tail ∧ (o.drawErase p).2.noFault = o.noFault ∧
      ((o.drawErase p).1 = .none → o.eraseAnswers[0]? ≠ some .fault) ∧
      ((o.drawErase p).1 = .fault → MayAnswer o.eraseAnswers o.noFault 0 .fault) := by
  unfold Oracle.drawErase
  split
  · rename_i a rest he
    simp only [he]
    exact ⟨rfl, rfl, fun h => by simp [h], fun h => .inl (by simp [h])⟩
  · rename_i he
    simp only [he]
    refine ⟨by simp [Oracle.tick, he], rfl, fun _ => by simp, fun h => .inr ⟨rfl, ?_⟩⟩
    cases hn : o.noFault
    · rfl
    · simp [hn] at h

theorem Oracle.drawProgram_spec (o : Oracle) (d : Nat) :
    (o.drawProgram d).2.programAnswers = o.programAnswers.tail ∧ (o.drawProgram d).2.noFault = o.noFault ∧
      ((o.drawProgram d).1 ≠ .hwFault → o.programAnswers[0]? ≠ some .hwFault) ∧
      ∀ x, x ≠ .none → (o.drawProgram d).1 = x → MayAnswer o.programAnswers o.noFault 0 x := by
  unfold Oracle.drawProgram
  split
  · rename_i a rest he
    simp only [he]
    exact ⟨rfl, rfl, fun h => by simpa using h, fun x _ h => .inl (by simp [h])⟩
  · rename_i he
    simp only [he]
    refine ⟨by simp [Oracle.tick, he], rfl, fun _ => by simp, fun x hx h => .inr ⟨rfl, ?_⟩⟩
    cases hn : o.noFault
    · rfl
    · simp [hn] at h; exact absurd h.symm hx

/-- The answers after the first, one further on. -/
theorem mayAnswer_tail {α : Type} {l : List α} {b : Bool} {k : Nat} {x : α} (h : MayAnswer l.tail b k x) :
    MayAnswer l b (k + 1) x := by
  simpa [MayAnswer] using h

theorem Oracle.drawByte_listed {o : Oracle} (x : Nat) {b : Byte} {rest : List Byte}
    (h : o.byteAnswers = b :: rest) :
    o.drawByte x = (b, { o.tick with byteAnswers := rest }) := by
  unfold Oracle.drawByte; rw [h]

/-- A span of n bytes draws n bytes. -/
@[simp] theorem Oracle.drawBytes_length (o : Oracle) (a n : Nat) : (o.drawBytes a n).1.length = n := by
  induction n generalizing o a with
  | zero => rfl
  | succ n ih => simp [Oracle.drawBytes, ih]

/-- Listed bytes are drawn in the order of their addresses. -/
theorem Oracle.drawBytes_listed (o : Oracle) (a : Nat) (bs rest : List Byte)
    (h : o.byteAnswers = bs ++ rest) : (o.drawBytes a bs.length).1 = bs := by
  induction bs generalizing o a with
  | nil => rfl
  | cons b bs ih =>
    simp only [Oracle.drawBytes, List.length_cons]
    rw [Oracle.drawByte_listed a (b := b) (rest := bs ++ rest) (by simpa using h)]
    simp only [List.cons.injEq, true_and]
    exact ih _ _ rfl

/-- The counter alone moves the no-fault oracle nowhere else. -/
theorem Oracle.tick_quiet {o : Oracle} (h : o.Quiet) : o.tick.Quiet := h

/-- Bytes that an oracle draws leave its fault answers as they are. -/
theorem Oracle.drawByte_quiet {o : Oracle} (x : Nat) (h : o.Quiet) : (o.drawByte x).2.Quiet := by
  unfold Oracle.drawByte
  split <;> exact h

theorem Oracle.drawBytes_quiet {o : Oracle} (a n : Nat) (h : o.Quiet) : (o.drawBytes a n).2.Quiet := by
  induction n generalizing o a with
  | zero => exact h
  | succ n ih => exact ih (a + 1) (Oracle.drawByte_quiet a h)

/-- Drawn bytes leave the fault answers where they are. -/
theorem Oracle.drawBytes_answers (o : Oracle) (a n : Nat) :
    (o.drawBytes a n).2.programAnswers = o.programAnswers ∧ (o.drawBytes a n).2.noFault = o.noFault := by
  induction n generalizing o a with
  | zero => exact ⟨rfl, rfl⟩
  | succ n ih =>
    have h : (o.drawByte a).2.programAnswers = o.programAnswers ∧ (o.drawByte a).2.noFault = o.noFault := by
      unfold Oracle.drawByte
      split <;> exact ⟨rfl, rfl⟩
    exact ⟨(ih _ _).1.trans h.1, (ih _ _).2.trans h.2⟩

end Sys2Proof.Machine
end

