-- ==== Sys2Proof/Laws/Memory.lean ====
section
/-! SUPPORT. The laws of the flash map: what a read gives after a write, a run of writes or a clear, and
that every operation keeps the canonical form and the address range. -/

namespace Sys2Proof.Machine

theorem Memory.read_cons (a : Nat) (b : Byte) (rest : Memory) (x : Nat)
    (h : Memory.read rest a = Config.erased) :
    Memory.read (Memory.cons a b rest) x = if x = a then b else Memory.read rest x := by
  unfold Memory.cons
  split
  · rename_i hb
    split
    · rename_i hx; rw [hx, h, hb]
    · rfl
  · simp only [Memory.read, eq_comm (a := a)]

/-- An address below every listed one is not listed. -/
theorem Memory.read_of_lt (m : Memory) (a : Nat) (h : ∀ c ∈ m, a < c.1) :
    Memory.read m a = Config.erased := by
  induction m with
  | nil => rfl
  | cons c rest ih =>
    have h1 := h c List.mem_cons_self
    simp only [Memory.read]
    rw [if_neg (by omega)]
    exact ih fun d hd => h d (List.mem_cons_of_mem _ hd)

theorem Memory.wf_tail {c : Host.Cell} {m : Memory} (h : Memory.wf (c :: m)) : Memory.wf m :=
  ⟨(List.pairwise_cons.1 h.1).2, fun d hd => h.2 d (List.mem_cons_of_mem _ hd)⟩

theorem Memory.wf_head {c : Host.Cell} {m : Memory} (h : Memory.wf (c :: m)) : ∀ d ∈ m, c.1 < d.1 :=
  (List.pairwise_cons.1 h.1).1

/-- Read after write: the byte written, and every other byte as before. -/
theorem Memory.read_write (m : Memory) (a : Nat) (b : Byte) (x : Nat) (h : Memory.wf m) :
    Memory.read (Memory.write m a b) x = if x = a then b else Memory.read m x := by
  induction m with
  | nil => exact Memory.read_cons a b [] x rfl
  | cons c rest ih =>
    obtain ⟨k, v⟩ := c
    have hk := Memory.wf_head h
    simp only [Memory.write]
    split
    · rename_i hak
      apply Memory.read_cons
      apply Memory.read_of_lt
      rintro d hd
      rcases List.mem_cons.1 hd with rfl | hd
      · exact hak
      · exact Nat.lt_trans hak (hk d hd)
    · split
      · rename_i _ hak
        subst hak
        rw [Memory.read_cons a b rest x (Memory.read_of_lt rest a hk)]
        simp only [Memory.read]
        split
        · rfl
        · rename_i hx; rw [if_neg (fun e => hx e.symm)]
      · rename_i _ hak
        simp only [Memory.read]
        rw [ih (Memory.wf_tail h)]
        split
        · rename_i hkx; subst hkx; rw [if_neg (fun e => hak e.symm)]
        · rfl

theorem Memory.mem_cons_cell {a : Nat} {b : Byte} {rest : Memory} {c : Host.Cell}
    (h : c ∈ Memory.cons a b rest) : (c = (a, b) ∧ b ≠ Config.erased) ∨ c ∈ rest := by
  unfold Memory.cons at h
  split at h
  · exact .inr h
  · rename_i hb
    rcases List.mem_cons.1 h with rfl | h
    · exact .inl ⟨rfl, hb⟩
    · exact .inr h

/-- A cell of the written map is the written one or was there before. -/
theorem Memory.mem_write {m : Memory} {a : Nat} {b : Byte} {c : Host.Cell}
    (h : c ∈ Memory.write m a b) : (c = (a, b) ∧ b ≠ Config.erased) ∨ c ∈ m := by
  induction m with
  | nil => exact (Memory.mem_cons_cell h)
  | cons d rest ih =>
    obtain ⟨k, v⟩ := d
    simp only [Memory.write] at h
    split at h
    · exact Memory.mem_cons_cell h
    · split at h
      · rcases Memory.mem_cons_cell h with h | h
        · exact .inl h
        · exact .inr (List.mem_cons_of_mem _ h)
      · rcases List.mem_cons.1 h with rfl | h
        · exact .inr List.mem_cons_self
        · rcases ih h with h | h
          · exact .inl h
          · exact .inr (List.mem_cons_of_mem _ h)

theorem Memory.cons_wf {a : Nat} {b : Byte} {rest : Memory} (h : Memory.wf rest)
    (hlt : ∀ d ∈ rest, a < d.1) : Memory.wf (Memory.cons a b rest) := by
  unfold Memory.cons
  split
  · exact h
  · rename_i hb
    refine ⟨List.pairwise_cons.2 ⟨hlt, h.1⟩, fun c hc => ?_⟩
    rcases List.mem_cons.1 hc with rfl | hc
    · exact hb
    · exact h.2 c hc

/-- A write keeps the canonical form. -/
theorem Memory.write_wf {m : Memory} (a : Nat) (b : Byte) (h : Memory.wf m) :
    Memory.wf (Memory.write m a b) := by
  induction m with
  | nil => exact Memory.cons_wf h (fun d hd => by simp at hd)
  | cons c rest ih =>
    obtain ⟨k, v⟩ := c
    have hk := Memory.wf_head h
    simp only [Memory.write]
    split
    · rename_i hak
      refine Memory.cons_wf h fun d hd => ?_
      rcases List.mem_cons.1 hd with rfl | hd
      · exact hak
      · exact Nat.lt_trans hak (hk d hd)
    · split
      · rename_i _ hak
        subst hak
        exact Memory.cons_wf (Memory.wf_tail h) hk
      · rename_i h1 h2
        have iw := ih (Memory.wf_tail h)
        refine ⟨List.pairwise_cons.2 ⟨fun d hd => ?_, iw.1⟩, fun d hd => ?_⟩
        · rcases Memory.mem_write hd with ⟨rfl, _⟩ | hd
          · simp only; omega
          · exact hk d hd
        · rcases List.mem_cons.1 hd with rfl | hd
          · exact h.2 _ List.mem_cons_self
          · exact iw.2 d hd

/-- A write inside a range keeps every listed address inside it. -/
theorem Memory.write_within {m : Memory} {lo hi a : Nat} (b : Byte) (h : Memory.within m lo hi)
    (hlo : lo ≤ a) (hhi : a < hi) : Memory.within (Memory.write m a b) lo hi := by
  intro c hc
  rcases Memory.mem_write hc with ⟨rfl, _⟩ | hc
  · exact ⟨hlo, hhi⟩
  · exact h c hc

/-- A run of writes: its own bytes, and every other byte as before. -/
theorem Memory.read_writeBytes (m : Memory) (a : Nat) (bs : List Byte) (x : Nat) (h : Memory.wf m) :
    Memory.read (Memory.writeBytes m a bs) x =
      if a ≤ x ∧ x < a + bs.length then bs.getD (x - a) Config.erased else Memory.read m x := by
  induction bs generalizing m a with
  | nil => simp [Memory.writeBytes]
  | cons b bs ih =>
    simp only [Memory.writeBytes]
    rw [ih _ _ (Memory.write_wf a b h), Memory.read_write m a b x h]
    rcases Nat.lt_trichotomy x a with hx | hx | hx
    · rw [if_neg (by omega), if_neg (by omega), if_neg (by omega)]
    · subst hx; rw [if_neg (by omega), if_pos rfl, if_pos (by simp)]; simp
    · by_cases hb : x < a + 1 + bs.length
      · rw [if_pos (by omega), if_pos (by simp only [List.length_cons]; omega)]
        rw [show x - a = (x - (a + 1)) + 1 by omega, List.getD_cons_succ]
      · rw [if_neg (by omega), if_neg (by omega), if_neg (by simp only [List.length_cons]; omega)]

/-- A run of writes keeps the canonical form. -/
theorem Memory.writeBytes_wf {m : Memory} (a : Nat) (bs : List Byte) (h : Memory.wf m) :
    Memory.wf (Memory.writeBytes m a bs) := by
  induction bs generalizing m a with
  | nil => exact h
  | cons b bs ih => exact ih (a + 1) (Memory.write_wf a b h)

/-- A run of writes inside a range keeps every listed address inside it. -/
theorem Memory.writeBytes_within {m : Memory} {lo hi : Nat} (a : Nat) (bs : List Byte)
    (h : Memory.within m lo hi) (hlo : lo ≤ a) (hhi : a + bs.length ≤ hi) :
    Memory.within (Memory.writeBytes m a bs) lo hi := by
  induction bs generalizing m a with
  | nil => exact h
  | cons b bs ih =>
    simp only [List.length_cons] at hhi
    exact ih (a + 1) (Memory.write_within b h hlo (by omega)) (by omega) (by omega)

/-- A cleared range reads erased, and every other byte as before (R54). -/
theorem Memory.read_clear (m : Memory) (a n x : Nat) :
    Memory.read (Memory.clear m a n) x =
      if a ≤ x ∧ x < a + n then Config.erased else Memory.read m x := by
  unfold Memory.clear
  induction m with
  | nil => simp [Memory.read]
  | cons c rest ih =>
    obtain ⟨k, v⟩ := c
    rw [List.filter_cons]
    split
    · rename_i hk
      simp only [decide_eq_true_eq] at hk
      simp only [Memory.read]
      rw [ih]
      by_cases hx : k = x
      · subst hx
        rw [if_pos rfl, if_neg (by omega), if_pos rfl]
      · rw [if_neg hx, if_neg hx]
    · rename_i hk
      simp only [decide_eq_true_eq] at hk
      rw [ih]
      simp only [Memory.read]
      by_cases hx : k = x
      · subst hx
        rw [if_pos (by omega), if_pos (by omega)]
      · rw [if_neg hx]

/-- Clearing keeps the canonical form. -/
theorem Memory.clear_wf {m : Memory} (a n : Nat) (h : Memory.wf m) : Memory.wf (Memory.clear m a n) :=
  ⟨h.1.filter _, fun c hc => h.2 c (List.mem_of_mem_filter hc)⟩

theorem Memory.clear_within {m : Memory} {lo hi : Nat} (a n : Nat) (h : Memory.within m lo hi) :
    Memory.within (Memory.clear m a n) lo hi := fun c hc => h c (List.mem_of_mem_filter hc)

/-- A listed byte is the byte read. -/
theorem Memory.read_of_mem {m : Memory} {c : Host.Cell} (h : Memory.wf m) (hc : c ∈ m) :
    Memory.read m c.1 = c.2 := by
  induction m with
  | nil => cases hc
  | cons d rest ih =>
    simp only [Memory.read]
    rcases List.mem_cons.1 hc with rfl | hc
    · rw [if_pos rfl]
    · have := Memory.wf_head h c hc
      rw [if_neg (by omega)]
      exact ih (Memory.wf_tail h) hc

/-- A byte that is not erased is listed. -/
theorem Memory.mem_of_read {m : Memory} {a : Nat} (h : Memory.read m a ≠ Config.erased) :
    ∃ c ∈ m, c.1 = a := by
  induction m with
  | nil => exact absurd rfl h
  | cons d rest ih =>
    simp only [Memory.read] at h
    by_cases hd : d.1 = a
    · exact ⟨d, List.mem_cons_self, hd⟩
    · rw [if_neg hd] at h
      obtain ⟨c, hc, he⟩ := ih h
      exact ⟨c, List.mem_cons_of_mem _ hc, he⟩

/-- A map that reads as one inside a range does at every address outside it is inside it too. -/
theorem Memory.within_of_read {m f : Memory} {lo hi : Nat} (hf : Memory.wf f)
    (h : ∀ a, a < lo ∨ hi ≤ a → Memory.read f a = Memory.read m a) (hm : Memory.within m lo hi) :
    Memory.within f lo hi := by
  intro c hc
  by_contra hout
  have hr := Memory.read_of_mem hf hc
  rw [h c.1 (by omega)] at hr
  obtain ⟨d, hd, he⟩ := Memory.mem_of_read (m := m) (a := c.1) (by rw [hr]; exact hf.2 c hc)
  have := hm d hd
  omega

@[simp] theorem Memory.readBytes_length (m : Memory) (a n : Nat) :
    (Memory.readBytes m a n).length = n := by simp [Memory.readBytes]

theorem Memory.readBytes_getD (m : Memory) (a n i : Nat) (x : Byte) (h : i < n) :
    (Memory.readBytes m a n).getD i x = Memory.read m (a + i) := by
  simp [Memory.readBytes, List.getD_eq_getElem?_getD, h]

/-- Two spans read alike when each of their bytes does. -/
theorem Memory.readBytes_congr {m m' : Memory} {a n : Nat}
    (h : ∀ i, i < n → Memory.read m (a + i) = Memory.read m' (a + i)) :
    Memory.readBytes m a n = Memory.readBytes m' a n := by
  unfold Memory.readBytes
  exact List.map_congr_left fun i hi => h i (List.mem_range.1 hi)

/-- A span equals a list exactly when its bytes do. -/
theorem Memory.readBytes_eq {m : Memory} {a : Nat} {bs : List Byte}
    (h : ∀ i, i < bs.length → Memory.read m (a + i) = bs.getD i Config.erased) :
    Memory.readBytes m a bs.length = bs := by
  apply List.ext_getElem
  · simp
  · intro i h1 h2
    simp only [Memory.readBytes, List.getElem_map, List.getElem_range]
    rw [h i h2, List.getD_eq_getElem?_getD, List.getElem?_eq_getElem h2, Option.getD_some]

end Sys2Proof.Machine
end

