-- ==== Sys2Proof/Laws/FlashOps.lean ====
section
/-! SUPPORT. Everything `Read`, `Erase` and `Program` can do (R104, R110, R114): what they answer, what
they change, and what they leave. Callers cite these and do not unfold the loops. -/

namespace Sys2Proof.Machine

open Sys2Proof.Safety

/-- `UNIT` as a numeral (R9), for arithmetic. -/
theorem unit_eq : Config.unit = 8 := rfl

/-! ### The unlocked primitives -/

theorem flashErasePage_unlocked {s : State} (h : s.lock = false) (n : Nat) :
    s.flashErasePage n =
      { s with flash := s.flash.clear (Params.pageAddr s.params n) s.params.pageSize } := by
  simp [State.flashErasePage, h]

theorem flashWriteUnit_unlocked {s : State} (h : s.lock = false) (a : Nat) (u : List Byte) :
    s.flashWriteUnit a u = { s with flash := s.flash.writeBytes a u } := by
  simp [State.flashWriteUnit, h]

theorem flashDrawBytes_unlocked {s : State} (h : s.lock = false) (a n : Nat) :
    s.flashDrawBytes a n =
      { s with flash := s.flash.writeBytes a (s.oracle.drawBytes a n).1,
               oracle := (s.oracle.drawBytes a n).2 } := by
  simp [State.flashDrawBytes, h]

/-- While LOCK = 1 no primitive changes anything (log entry 10). -/
theorem primitives_locked {s : State} (h : s.lock = true) (a n : Nat) (u : List Byte) :
    s.flashErasePage n = s ∧ s.flashWriteUnit a u = s ∧ s.flashDrawBytes a n = s := by
  simp [State.flashErasePage, State.flashWriteUnit, State.flashDrawBytes, h]

/-! ### Read -/

theorem readOp_ok {s : State} {a n : Nat} (hn : n ≠ 0) (hlo : s.params.flashBase ≤ a)
    (hhi : a + n ≤ s.params.flashEnd) : s.readOp a n = (.ok, s.flashRead a n) := by
  unfold State.readOp
  rw [if_neg hn, if_neg (by omega)]

theorem readOp_zero (s : State) (a : Nat) : s.readOp a 0 = (.readZero, []) := by
  simp [State.readOp]

theorem readOp_outside {s : State} {a n : Nat} (hn : n ≠ 0)
    (h : a < s.params.flashBase ∨ s.params.flashEnd < a + n) : s.readOp a n = (.readRange, []) := by
  unfold State.readOp
  rw [if_neg hn, if_pos h]

/-! ### Erase -/

theorem pageAddr_succ (p : Params) (n : Nat) :
    Params.pageAddr p (n + 1) = Params.pageAddr p n + p.pageSize := by
  unfold Params.pageAddr; rw [Nat.succ_mul]; omega

theorem pageAddr_le (p : Params) {m n : Nat} (h : m ≤ n) : Params.pageAddr p m ≤ Params.pageAddr p n := by
  unfold Params.pageAddr
  exact Nat.add_le_add_left (Nat.mul_le_mul_right _ h) _

/-- What the erase loop can do, whatever the oracle answers (R110, R112). -/
theorem eraseLoop_spec (P : Params) (n p : Nat) (s : State) (hP : s.params = P) (hl : s.lock = false)
    (hw : Memory.wf s.flash) :
    ∃ c f o, eraseLoop n p s = (c, { s with flash := f, oracle := o }) ∧ Memory.wf f ∧
      (c = .ok ∧ (∀ a, Memory.read f a =
          if Params.pageAddr P p ≤ a ∧ a < Params.pageAddr P (p + n) then Config.erased
          else Memory.read s.flash a) ∧ (∀ j, j < n → s.oracle.eraseAnswers[j]? ≠ some .fault) ∨
       c = .eraseHw ∧ ∃ k, k < n ∧ MayAnswer s.oracle.eraseAnswers s.oracle.noFault k .fault ∧
          (∀ j, j < k → s.oracle.eraseAnswers[j]? ≠ some .fault) ∧ ∀ a,
          (Params.pageAddr P p ≤ a ∧ a < Params.pageAddr P (p + k) →
            Memory.read f a = Config.erased) ∧
          (a < Params.pageAddr P p ∨ Params.pageAddr P (p + k + 1) ≤ a →
            Memory.read f a = Memory.read s.flash a)) := by
  induction n generalizing p s with
  | zero =>
    refine ⟨.ok, s.flash, s.oracle, rfl, hw, .inl ⟨rfl, fun a => ?_, fun j hj => by omega⟩⟩
    rw [if_neg (by simp only [Nat.add_zero]; omega)]
  | succ n ih =>
    obtain ⟨htl, hnf, hno, hfl⟩ := Oracle.drawErase_spec s.oracle p
    have hpa : Params.pageAddr s.params p = Params.pageAddr P p := by rw [hP]
    have hps : s.params.pageSize = P.pageSize := by rw [hP]
    have hsucc := pageAddr_succ P p
    cases hd : (s.oracle.drawErase p).1 with
    | none =>
      simp only [eraseLoop, hd]
      rw [flashErasePage_unlocked (by exact hl)]
      simp only [hpa, hps]
      obtain ⟨c, f, o, he, hf, hc⟩ := ih (p + 1)
        { s with oracle := (s.oracle.drawErase p).2,
                 flash := s.flash.clear (Params.pageAddr P p) P.pageSize }
        hP hl (Memory.clear_wf _ _ hw)
      refine ⟨c, f, o, he, hf, ?_⟩
      have hle := pageAddr_le P (show p + 1 ≤ p + 1 + n by omega)
      simp only [htl, hnf] at hc
      have hcons : ∀ m, (∀ j, j < m → s.oracle.eraseAnswers.tail[j]? ≠ some .fault) →
          ∀ j, j < m + 1 → s.oracle.eraseAnswers[j]? ≠ some .fault := by
        intro m h j hj
        cases j with
        | zero => exact hno hd
        | succ j => have := h j (by omega); rwa [List.getElem?_tail] at this
      rcases hc with ⟨rfl, h, hj⟩ | ⟨rfl, k, hk, hmay, hj, h⟩
      · refine .inl ⟨rfl, fun a => ?_, hcons n hj⟩
        rw [h a, show p + (n + 1) = p + 1 + n by omega]
        simp only [Memory.read_clear]
        by_cases h1 : Params.pageAddr P (p + 1) ≤ a ∧ a < Params.pageAddr P (p + 1 + n)
        · rw [if_pos h1, if_pos (by omega)]
        · rw [if_neg h1]
          by_cases h2 : Params.pageAddr P p ≤ a ∧ a < Params.pageAddr P p + P.pageSize
          · rw [if_pos h2, if_pos (by omega)]
          · rw [if_neg h2, if_neg (by omega)]
      · refine .inr ⟨rfl, k + 1, by omega, mayAnswer_tail hmay, hcons k hj, fun a => ?_⟩
        have h' := h a
        simp only [Memory.read_clear] at h'
        rw [show p + (k + 1) = p + 1 + k by omega]
        have hle2 := pageAddr_le P (show p + 1 ≤ p + 1 + k by omega)
        have hle3 := pageAddr_le P (show p + 1 + k ≤ p + 1 + k + 1 by omega)
        constructor
        · intro ha
          by_cases h1 : Params.pageAddr P (p + 1) ≤ a
          · exact h'.1 ⟨h1, ha.2⟩
          · rw [h'.2 (by omega), if_pos (by omega)]
        · intro ha
          rw [h'.2 (by omega), if_neg (by omega)]
    | fault =>
      simp only [eraseLoop, hd, hpa, hps]
      rw [flashDrawBytes_unlocked (by exact hl)]
      refine ⟨.eraseHw, _, _, rfl, Memory.writeBytes_wf _ _ hw,
        .inr ⟨rfl, 0, by omega, hfl hd, fun j hj => by omega, fun a => ?_⟩⟩
      simp only [Nat.add_zero]
      refine ⟨fun ha => by omega, fun ha => ?_⟩
      rw [Memory.read_writeBytes _ _ _ _ hw, if_neg]
      simp only [Oracle.drawBytes_length]
      omega

/-- Where the oracle's next k answers are NONE, the erase loop erases k pages and goes on with the answers
after them (R110, R112). -/
theorem eraseLoop_prefix (P : Params) (k n p : Nat) (s : State) (rest : List EraseDraw) (hP : s.params = P)
    (hl : s.lock = false) (hw : Memory.wf s.flash) (hk : k ≤ n)
    (ha : s.oracle.eraseAnswers = List.replicate k .none ++ rest) :
    ∃ f m, eraseLoop n p s = eraseLoop (n - k) (p + k)
        { s with flash := f, oracle := { s.oracle with eraseAnswers := rest, drawn := m } } ∧ Memory.wf f ∧
      ∀ a, Memory.read f a =
        if Params.pageAddr P p ≤ a ∧ a < Params.pageAddr P (p + k) then Config.erased
        else Memory.read s.flash a := by
  induction k generalizing n p s with
  | zero =>
    refine ⟨s.flash, s.oracle.drawn, ?_, hw, fun a => by rw [if_neg (by simp only [Nat.add_zero]; omega)]⟩
    simp only [List.replicate, List.nil_append] at ha
    simp only [Nat.sub_zero, Nat.add_zero, ← ha]
  | succ k ih =>
    obtain ⟨n, rfl⟩ := Nat.exists_eq_succ_of_ne_zero (show n ≠ 0 by omega)
    have hd := Oracle.drawErase_listed p (o := s.oracle) (a := .none)
      (rest := List.replicate k .none ++ rest) (by rw [ha]; rfl)
    have hsucc := pageAddr_succ P p
    have hle := pageAddr_le P (show p + 1 ≤ p + 1 + k by omega)
    simp only [eraseLoop, hd]
    rw [flashErasePage_unlocked (by exact hl)]
    simp only [hP]
    obtain ⟨f, m, he, hf, hr⟩ := ih n (p + 1)
      { s with oracle := { s.oracle.tick with eraseAnswers := List.replicate k .none ++ rest },
               flash := s.flash.clear (Params.pageAddr P p) P.pageSize }
      hP hl (Memory.clear_wf _ _ hw) (by omega) rfl
    simp only [hP] at he
    refine ⟨f, m, ?_, hf, fun a => ?_⟩
    · rw [he, show n - k = n + 1 - (k + 1) by omega, show p + 1 + k = p + (k + 1) by omega]
      rfl
    · rw [hr a, show p + (k + 1) = p + 1 + k by omega]
      simp only [Memory.read_clear]
      by_cases h1 : Params.pageAddr P (p + 1) ≤ a ∧ a < Params.pageAddr P (p + 1 + k)
      · rw [if_pos h1, if_pos (by omega)]
      · rw [if_neg h1]
        by_cases h2 : Params.pageAddr P p ≤ a ∧ a < Params.pageAddr P p + P.pageSize
        · rw [if_pos h2, if_pos (by omega)]
        · rw [if_neg h2, if_neg (by omega)]

/-- Under the no-fault oracle the erase loop answers OK (R124). -/
theorem eraseLoop_quiet (n p : Nat) (s : State) (hl : s.lock = false) (hq : s.oracle.Quiet) :
    (eraseLoop n p s).1 = .ok ∧ (eraseLoop n p s).2.oracle.Quiet := by
  induction n generalizing p s with
  | zero => exact ⟨rfl, hq⟩
  | succ n ih =>
    obtain ⟨h1, h2⟩ := Oracle.drawErase_quiet p hq
    simp only [eraseLoop, h1]
    rw [flashErasePage_unlocked (by exact hl)]
    exact ih _ _ hl h2

theorem page_pos {p : Params} (h : p.WellFormed) : 0 < p.pageSize := by
  have h5 := h.2.2.2.2.1
  rw [← h5]; exact Nat.two_pow_pos _

/-- An address that is the first of a page is its page's address (R51). -/
theorem pageAddr_pageOf {p : Params} {a : Nat} (h1 : p.flashBase ≤ a)
    (h2 : (a - p.flashBase) % p.pageSize = 0) : Params.pageAddr p (Params.pageOf p a) = a := by
  unfold Params.pageAddr Params.pageOf
  rw [Nat.div_mul_cancel (Nat.dvd_of_mod_eq_zero h2)]
  omega

/-- USER_END is the first address of a page (R9). -/
theorem userEnd_page {p : Params} (h : p.WellFormed) :
    Params.pageAddr p (Params.pageOf p p.userEnd) = p.userEnd := by
  have h2 := h.2.1
  have h7 := h.2.2.2.2.2.2.1
  have h9 := h.2.2.2.2.2.2.2.2.1
  refine pageAddr_pageOf (by omega) (Nat.mod_eq_zero_of_dvd ?_)
  exact Nat.dvd_sub (Nat.dvd_of_mod_eq_zero h9) (Nat.dvd_of_mod_eq_zero h2)

/-- RECORD_ADDR is where `Erase` may start (R9, R150). -/
theorem record_eraseStart {p : Params} (h : p.WellFormed) : EraseStart p p.recordAddr := by
  obtain ⟨_, h2, _, _, _, _, _, _, _, h10, h11, h12, _, _⟩ := h
  exact ⟨h11, by omega, Nat.mod_eq_zero_of_dvd
    (Nat.dvd_sub (Nat.dvd_of_mod_eq_zero h10) (Nat.dvd_of_mod_eq_zero h2))⟩

/-- A page number of the array is in range exactly when its address is before USER_END. -/
theorem pageOf_le {p : Params} {a b : Nat} (h : a ≤ b) : Params.pageOf p a ≤ Params.pageOf p b :=
  Nat.div_le_div_right (by omega)

/-- `Erase` past its checks is its loop, between the unlock and the lock (R102, R110). -/
theorem eraseOp_eq {s : State} {a : Nat} (ha : EraseStart s.params a) :
    s.eraseOp a =
      ((eraseLoop (Params.pageOf s.params s.params.userEnd - Params.pageOf s.params a)
          (Params.pageOf s.params a) s.unlock).1,
        (eraseLoop (Params.pageOf s.params s.params.userEnd - Params.pageOf s.params a)
          (Params.pageOf s.params a) s.unlock).2.relock) := by
  obtain ⟨h1, h2, h3⟩ := ha
  unfold State.eraseOp
  rw [if_neg (by omega), if_neg (by simp [h3])]

/-- The k-th page from a page's first address. -/
theorem pageAddr_add {p : Params} {a : Nat} (ha : EraseStart p a) (k : Nat) :
    Params.pageAddr p (Params.pageOf p a + k) = a + k * p.pageSize := by
  have h := pageAddr_pageOf ha.1 ha.2.2
  unfold Params.pageAddr at h ⊢
  rw [Nat.add_mul]
  omega

/-- How many pages the range of `Erase` has, said by addresses. -/
theorem pages_le {p : Params} {a k : Nat} (hp : p.WellFormed) (ha : EraseStart p a) :
    (Params.pageOf p p.userEnd - Params.pageOf p a ≤ k ↔ p.userEnd ≤ a + k * p.pageSize) := by
  have hE := userEnd_page hp
  rw [← pageAddr_add ha k]
  constructor
  · intro h
    have := pageAddr_le p (show Params.pageOf p p.userEnd ≤ Params.pageOf p a + k by omega)
    rwa [hE] at this
  · intro h
    by_contra hc
    have h1 := pageAddr_le p (show Params.pageOf p a + k + 1 ≤ Params.pageOf p p.userEnd by omega)
    rw [pageAddr_succ, hE] at h1
    have := page_pos hp
    omega

/-- `Erase` past its checks, whatever the oracle answers (R110, R112, R127). -/
theorem eraseOp_spec {s : State} {a : Nat} (hp : s.params.WellFormed) (ha : EraseStart s.params a)
    (hw : Memory.wf s.flash) :
    ∃ c f o, s.eraseOp a = (c, { s with flash := f, oracle := o, lock := true }) ∧ Memory.wf f ∧
      (c = .ok ∧ ErasedRange s f a ∨ c = .eraseHw ∧ ∃ k, EraseStopped s f a k) := by
  have hA := pageAddr_pageOf ha.1 ha.2.2
  have hE := userEnd_page hp
  have hle : Params.pageOf s.params a ≤ Params.pageOf s.params s.params.userEnd :=
    pageOf_le (by omega)
  have hin : ∀ k, a + (k + 1) * s.params.pageSize ≤ s.params.userEnd ↔
      k < Params.pageOf s.params s.params.userEnd - Params.pageOf s.params a := by
    intro k
    have hk := pages_le (k := k) hp ha
    have hsm : (k + 1) * s.params.pageSize = k * s.params.pageSize + s.params.pageSize := Nat.succ_mul _ _
    have hps := page_pos hp
    constructor
    · intro h
      by_contra hc
      have := hk.1 (by omega)
      omega
    · intro h
      have := pageAddr_le s.params (show Params.pageOf s.params a + (k + 1) ≤
        Params.pageOf s.params s.params.userEnd by omega)
      rwa [pageAddr_add ha, hE] at this
  obtain ⟨c, f, o, he, hf, hc⟩ := eraseLoop_spec s.params
    (Params.pageOf s.params s.params.userEnd - Params.pageOf s.params a)
    (Params.pageOf s.params a) s.unlock rfl rfl hw
  refine ⟨c, f, o, ?_, hf, ?_⟩
  · rw [eraseOp_eq ha, he]; rfl
  · simp only [State.unlock_flash] at hc
    rw [Nat.add_sub_cancel' hle] at hc
    simp only [hA, hE] at hc
    rcases hc with ⟨rfl, h, hj⟩ | ⟨rfl, k, hk, hmay, hj, h⟩
    · exact .inl ⟨rfl, fun k hk => hj k ((hin k).1 hk), h⟩
    · simp only [Nat.add_assoc, pageAddr_add ha] at h
      exact .inr ⟨rfl, k, (hin k).2 hk, hmay, hj, fun x h1 h2 => (h x).1 ⟨h1, h2⟩, fun x hx => (h x).2 hx⟩

/-- `Erase` past its checks under the no-fault oracle (R113). -/
theorem eraseOp_quiet {s : State} {a : Nat} (hp : s.params.WellFormed) (ha : EraseStart s.params a)
    (hw : Memory.wf s.flash) (hq : s.oracle.Quiet) :
    ∃ f o, s.eraseOp a = (.ok, { s with flash := f, oracle := o, lock := true }) ∧ Memory.wf f ∧
      o.Quiet ∧ ∀ x, Memory.read f x =
        if a ≤ x ∧ x < s.params.userEnd then Config.erased else Memory.read s.flash x := by
  have hq' := eraseLoop_quiet (Params.pageOf s.params s.params.userEnd - Params.pageOf s.params a)
    (Params.pageOf s.params a) s.unlock rfl hq
  have hop : s.eraseOp a = ((eraseLoop (Params.pageOf s.params s.params.userEnd - Params.pageOf s.params a)
      (Params.pageOf s.params a) s.unlock).1, (eraseLoop (Params.pageOf s.params s.params.userEnd -
        Params.pageOf s.params a) (Params.pageOf s.params a) s.unlock).2.relock) := by
    exact eraseOp_eq ha
  obtain ⟨c, f, o, he, hf, hc⟩ := eraseOp_spec hp ha hw
  have e1 : c = .ok := by
    have := congrArg Prod.fst (he.symm.trans hop)
    exact this.trans hq'.1
  have e2 : o.Quiet := by
    have := congrArg (fun r => r.2.oracle) (he.symm.trans hop)
    simp only [State.relock_oracle] at this
    rw [this]; exact hq'.2
  subst e1
  rcases hc with ⟨_, h⟩ | ⟨h, _⟩
  · exact ⟨f, o, he, hf, e2, h.flash⟩
  · cases h

/-- Where the oracle answers NONE for every page of the range, `Erase` answers OK (R110, R112). -/
theorem eraseOp_noFault {s : State} {a k : Nat} {rest : List EraseDraw} (hp : s.params.WellFormed)
    (ha : EraseStart s.params a) (hw : Memory.wf s.flash)
    (hx : s.oracle.eraseAnswers = List.replicate k .none ++ rest)
    (hk : s.params.userEnd ≤ a + k * s.params.pageSize) : (s.eraseOp a).1 = .ok := by
  have hn := (pages_le hp ha).2 hk
  rw [eraseOp_eq ha]
  generalize Params.pageOf s.params s.params.userEnd - Params.pageOf s.params a = n at hn
  obtain ⟨f, m, he, _, _⟩ := eraseLoop_prefix s.params n n (Params.pageOf s.params a) s.unlock
    (List.replicate (k - n) .none ++ rest) rfl rfl hw (Nat.le_refl _) (by
      rw [← List.append_assoc, List.replicate_append_replicate, show n + (k - n) = k by omega]; exact hx)
  rw [he, Nat.sub_self]
  rfl

/-- Where the oracle answers NONE for k pages of the range and FAULT for the next, `Erase` stops there: the
pages before are erased, those after are as before (R110, R112). -/
theorem eraseOp_fault {s : State} {a k : Nat} {rest : List EraseDraw} (hp : s.params.WellFormed)
    (ha : EraseStart s.params a) (hw : Memory.wf s.flash)
    (hx : s.oracle.eraseAnswers = List.replicate k .none ++ .fault :: rest)
    (hk : a + (k + 1) * s.params.pageSize ≤ s.params.userEnd) :
    (s.eraseOp a).1 = .eraseHw ∧
      (∀ x, a ≤ x → x < a + k * s.params.pageSize → Memory.read (s.eraseOp a).2.flash x = Config.erased) ∧
      (∀ x, x < a ∨ a + (k + 1) * s.params.pageSize ≤ x →
        Memory.read (s.eraseOp a).2.flash x = Memory.read s.flash x) := by
  have hps := page_pos hp
  have hsm : (k + 1) * s.params.pageSize = k * s.params.pageSize + s.params.pageSize := Nat.succ_mul _ _
  have hn : ¬ Params.pageOf s.params s.params.userEnd - Params.pageOf s.params a ≤ k := by
    rw [pages_le hp ha]; omega
  rw [eraseOp_eq ha]
  generalize Params.pageOf s.params s.params.userEnd - Params.pageOf s.params a = n at hn
  obtain ⟨f, m, he, hf, hr⟩ := eraseLoop_prefix s.params k n (Params.pageOf s.params a) s.unlock
    (.fault :: rest) rfl rfl hw (by omega) hx
  rw [pageAddr_add ha, show Params.pageAddr s.params (Params.pageOf s.params a) = a from
    pageAddr_pageOf ha.1 ha.2.2] at hr
  obtain ⟨j, hj⟩ := Nat.exists_eq_succ_of_ne_zero (show n - k ≠ 0 by omega)
  rw [he, hj]
  simp only [eraseLoop]
  rw [Oracle.drawErase_listed (a := .fault) (rest := rest) _ rfl]
  simp only
  rw [flashDrawBytes_unlocked rfl]
  simp only [State.unlock_params, pageAddr_add ha, State.relock_flash]
  have hlen : ∀ (o : Oracle) (y : Nat), (o.drawBytes y s.params.pageSize).1.length = s.params.pageSize :=
    fun o y => Oracle.drawBytes_length o y _
  refine ⟨trivial, fun x h1 h2 => ?_, fun x h => ?_⟩
  · rw [Memory.read_writeBytes _ _ _ _ hf, hlen, if_neg (by omega), hr x, if_pos ⟨h1, h2⟩]
  · rw [Memory.read_writeBytes _ _ _ _ hf, hlen, if_neg (by omega), hr x, if_neg (by omega)]
    rfl

/-- `Erase` rejects a start outside the user area before anything else (R110, R113). -/
theorem eraseOp_outside {s : State} {a : Nat} (h : a < s.params.flashBase ∨ s.params.userEnd ≤ a) :
    s.eraseOp a = (.eraseRange, s) := by
  unfold State.eraseOp; rw [if_pos h]

/-- `Erase` rejects a start inside a page (R111). -/
theorem eraseOp_misaligned {s : State} {a : Nat} (h1 : s.params.flashBase ≤ a) (h2 : a < s.params.userEnd)
    (h : (a - s.params.flashBase) % s.params.pageSize ≠ 0) : s.eraseOp a = (.align, s) := by
  unfold State.eraseOp; rw [if_neg (by omega), if_pos h]

/-! ### Program -/

@[simp] theorem unitAt_length (bs : List Byte) (k : Nat) : (unitAt bs k).length = 8 := by
  simp [unitAt]

theorem unitAt_getD (bs : List Byte) (k j : Nat) (h : j < 8) (x : Byte) :
    (unitAt bs k).getD j x = bs.getD (8 * k + j) Config.erased := by
  simp [unitAt, List.getD_eq_getElem?_getD, h]

@[simp] theorem unitsOf_length (bs : List Byte) : (unitsOf bs).length = (bs.length + 7) / 8 := by
  simp [unitsOf]

theorem unitsOf_getD (bs : List Byte) (k : Nat) (h : k < (bs.length + 7) / 8) :
    (unitsOf bs).getD k [] = unitAt bs k := by
  simp [unitsOf, List.getD_eq_getElem?_getD, h]

theorem unitsOf_lengths {bs u : List Byte} (h : u ∈ unitsOf bs) : u.length = 8 := by
  obtain ⟨k, _, rfl⟩ := List.mem_map.1 h
  simp

/-- What the array holds after a unit is programmed, read or drawn (R55, R114). -/
theorem programUnit_spec {s : State} (hl : s.lock = false) (f : ProgramDraw) (d : Nat) {u : List Byte}
    (hu : u.length = 8) :
    ∃ bs o, s.programUnit f d u =
        { s with flash := s.flash.writeBytes d bs, oracle := o } ∧ bs.length = 8 ∧
      (f = .none → bs = u ∧ o = s.oracle) ∧
      o.programAnswers = s.oracle.programAnswers ∧ o.noFault = s.oracle.noFault := by
  cases f with
  | none =>
    refine ⟨u, s.oracle, ?_, hu, fun _ => ⟨rfl, rfl⟩, rfl, rfl⟩
    simp only [State.programUnit]; rw [flashWriteUnit_unlocked hl]
  | hwFault =>
    refine ⟨_, (s.oracle.drawBytes d 8).2, ?_, Oracle.drawBytes_length s.oracle d 8, fun h => (by cases h),
      Oracle.drawBytes_answers _ _ _⟩
    simp only [State.programUnit]; rw [flashDrawBytes_unlocked hl]
  | silent =>
    refine ⟨_, (s.oracle.drawBytes d 8).2, ?_, Oracle.drawBytes_length s.oracle d 8, fun h => (by cases h),
      Oracle.drawBytes_answers _ _ _⟩
    simp only [State.programUnit]; rw [flashDrawBytes_unlocked hl]

/-- An erased unit reads erased byte by byte (R116). -/
theorem read_of_erasedUnit {s : State} {d j : Nat} (h : s.flashRead d 8 = erasedUnit) (hj : j < 8) :
    Memory.read s.flash (d + j) = Config.erased := by
  have := congrArg (fun l => l.getD j Config.erased) h
  simp only [State.flashRead] at this
  rw [Memory.readBytes_getD _ _ _ _ _ hj] at this
  rw [this]
  simp [erasedUnit, List.getD_eq_getElem?_getD, hj]

/-- A span that reads erased byte by byte reads as an erased unit (R116). -/
theorem flashRead_erased {s : State} {d : Nat} (h : ∀ j, j < 8 → Memory.read s.flash (d + j) = Config.erased) :
    s.flashRead d Config.unit = erasedUnit := by
  unfold State.flashRead
  have : erasedUnit.length = Config.unit := by simp [erasedUnit]
  rw [← this]
  refine Memory.readBytes_eq fun i hi => ?_
  rw [this] at hi
  rw [h i hi]
  simp [erasedUnit, List.getD_eq_getElem?_getD]

/-- Byte i of a list of units. -/
def unitsByte (us : List (List Byte)) (i : Nat) : Byte := (us.getD (i / 8) []).getD (i % 8) Config.erased

theorem unitsByte_head (u : List Byte) (us : List (List Byte)) {i : Nat} (h : i < 8) :
    unitsByte (u :: us) i = u.getD i Config.erased := by
  rw [unitsByte, show i / 8 = 0 by omega, show i % 8 = i by omega, List.getD_cons_zero]

theorem unitsByte_tail (u : List Byte) (us : List (List Byte)) (i : Nat) :
    unitsByte (u :: us) (8 + i) = unitsByte us i := by
  rw [unitsByte, unitsByte, show (8 + i) / 8 = i / 8 + 1 by omega, show (8 + i) % 8 = i % 8 by omega,
    List.getD_cons_succ]

theorem programmed_zero (s : State) (f : Memory) (d : Nat) (want : Nat → Byte) : Programmed s f d 0 want :=
  ⟨fun k hk => by omega, fun k hk => by omega, fun i hi => by omega, fun i hi => by omega⟩

/-- Where two programs want the same bytes of their units, one is programmed where the other is. -/
theorem programmed_congr {s : State} {f : Memory} {d n : Nat} {w w' : Nat → Byte}
    (h : Programmed s f d n w) (e : ∀ i, i < 8 * n → w i = w' i) : Programmed s f d n w' :=
  ⟨h.inArea, h.answers, h.erased, fun i hi => (h.holds i hi).trans (e i hi)⟩

theorem stoppedAt_congr {s : State} {f : Memory} {d k : Nat} {c : Code} {w w' : Nat → Byte}
    (h : StoppedAt s f d k c w) (e : ∀ i, i < 8 * (k + 1) → w i = w' i) : StoppedAt s f d k c w' :=
  ⟨programmed_congr h.earlier fun i hi => e i (by omega), h.others, h.cause.imp id (.imp id fun ⟨h1, h2, h3⟩ =>
    ⟨h1, h2, h3.imp id fun ⟨h4, h5, j, hj, h6⟩ => ⟨h4, h5, j, hj, by rwa [← e _ (by omega)]⟩⟩)⟩

/-- What a program from the second unit on did is what the whole program did from its second unit on: `t` is
the state after the first unit. -/
theorem programmed_cons {s t : State} {f : Memory} {d n : Nat} {w w' : Nat → Byte}
    (hp : t.params = s.params) (ha : t.oracle.programAnswers = s.oracle.programAnswers.tail)
    (hsame : ∀ a, d + 8 ≤ a → Memory.read t.flash a = Memory.read s.flash a)
    (h0 : Programmed s f d 1 w) (hnext : ∀ i, w (8 + i) = w' i) (h : Programmed t f (d + 8) n w') :
    Programmed s f d (n + 1) w := by
  refine ⟨fun k hk => ?_, fun k hk => ?_, fun i hi => ?_, fun i hi => ?_⟩
  · cases k with
    | zero => exact h0.inArea 0 (by omega)
    | succ k => have := h.inArea k (by omega); rw [hp] at this; omega
  · cases k with
    | zero => exact h0.answers 0 (by omega)
    | succ k => have := h.answers k (by omega); rwa [ha, List.getElem?_tail] at this
  · by_cases h8 : i < 8
    · exact h0.erased i (by omega)
    · have := h.erased (i - 8) (by omega)
      rwa [hsame _ (by omega), show d + 8 + (i - 8) = d + i by omega] at this
  · by_cases h8 : i < 8
    · exact h0.holds i (by omega)
    · have := h.holds (i - 8) (by omega)
      rwa [← hnext, show d + 8 + (i - 8) = d + i by omega, show 8 + (i - 8) = i by omega] at this

theorem stopCause_cons {s t : State} {f : Memory} {d k : Nat} {c : Code} {w w' : Nat → Byte}
    (hp : t.params = s.params) (ha : t.oracle.programAnswers = s.oracle.programAnswers.tail)
    (hnf : t.oracle.noFault = s.oracle.noFault)
    (hsame : ∀ a, d + 8 ≤ a → Memory.read t.flash a = Memory.read s.flash a)
    (hnext : ∀ i, w (8 + i) = w' i) (h : StopCause t f (d + 8) k c w') : StopCause s f d (k + 1) c w := by
  have hadr : ∀ j, d + 8 + (8 * k + j) = d + (8 * (k + 1) + j) := fun j => by omega
  unfold StopCause at h ⊢
  rw [hp, ha, hnf] at h
  rcases h with ⟨h1, h2, h3⟩ | ⟨h1, h2, ⟨j, hj, h3⟩, h4⟩ | ⟨h1, h2, h3⟩
  · exact .inl ⟨h1, by omega, fun a ha => (h3 a (by omega)).trans (hsame a (by omega))⟩
  · exact .inr (.inl ⟨h1, by omega, ⟨j, hj, by rwa [hsame _ (by omega), hadr] at h3⟩,
      fun a ha => (h4 a (by omega)).trans (hsame a (by omega))⟩)
  · refine .inr (.inr ⟨by omega, fun j hj => by rw [← h2 j hj, hsame _ (by omega), hadr], ?_⟩)
    rcases h3 with ⟨h3, h4⟩ | ⟨h3, h4, j, hj, h5⟩
    · exact .inl ⟨h3, mayAnswer_tail h4⟩
    · refine .inr ⟨h3, mayAnswer_tail h4, j, hj, ?_⟩
      rwa [hadr, ← hnext, show 8 + (8 * k + j) = 8 * (k + 1) + j by omega] at h5

/-- What the program loop can do, whatever the oracle answers (R114, R116, R117, R118, R126, R127). -/
theorem programLoop_spec (us : List (List Byte)) (d : Nat) (s : State) (hl : s.lock = false)
    (hw : Memory.wf s.flash) (hu : ∀ u ∈ us, u.length = 8) :
    ∃ c f o, programLoop us d s = (c, { s with flash := f, oracle := o }) ∧ Memory.wf f ∧
      (c = .ok ∨ c = .writeRange ∨ c = .writeHw ∨ c = .writeVerify) ∧
      (∀ a, a < d ∨ d + 8 * us.length ≤ a ∨ s.params.userEnd ≤ a →
        Memory.read f a = Memory.read s.flash a) ∧
      (c = .ok → Programmed s f d us.length (unitsByte us)) ∧
      (c ≠ .ok → ∃ k, k < us.length ∧ StoppedAt s f d k c (unitsByte us)) := by
  induction us generalizing d s with
  | nil =>
    exact ⟨.ok, s.flash, s.oracle, rfl, hw, .inl rfl, fun _ _ => rfl, fun _ => programmed_zero _ _ _ _,
      fun h => absurd rfl h⟩
  | cons u us ih =>
    simp only [programLoop, unit_eq]
    have hu8 := hu u List.mem_cons_self
    have hstop : ∀ {f c}, (∀ a, a < d ∨ d + 8 ≤ a → Memory.read f a = Memory.read s.flash a) →
        StopCause s f d 0 c (unitsByte (u :: us)) →
        ∃ k, k < (u :: us).length ∧ StoppedAt s f d k c (unitsByte (u :: us)) :=
      fun h hc => ⟨0, Nat.succ_pos _, programmed_zero _ _ _ _, fun a ha => h a (by omega), hc⟩
    by_cases h1 : s.params.userEnd < d + 8
    · rw [if_pos h1]
      exact ⟨_, s.flash, s.oracle, rfl, hw, .inr (.inl rfl), fun _ _ => rfl, fun h => (by cases h),
        fun _ => hstop (fun _ _ => rfl) (.inl ⟨rfl, by omega, fun _ _ => rfl⟩)⟩
    · rw [if_neg h1]
      by_cases h2 : s.flashRead d 8 ≠ erasedUnit
      · rw [if_pos h2]
        refine ⟨_, s.flash, s.oracle, rfl, hw, .inr (.inr (.inl rfl)), fun _ _ => rfl, fun h => (by cases h),
          fun _ => hstop (fun _ _ => rfl) (.inr (.inl ⟨rfl, by omega, ?_, fun _ _ => rfl⟩))⟩
        by_contra hall
        exact h2 (flashRead_erased fun j hj => by
          by_contra hne
          exact hall ⟨j, hj, by simpa using hne⟩)
      · rw [if_neg h2]
        have her : ∀ j, j < 8 → Memory.read s.flash (d + j) = 0xFF#8 :=
          fun j hj => read_of_erasedUnit (Decidable.of_not_not h2) hj
        obtain ⟨htl, hnf, hpass, hmay⟩ := Oracle.drawProgram_spec s.oracle d
        obtain ⟨bs, o, hs2, hbs, hbu, hoa, hon⟩ := programUnit_spec
          (s := { s with oracle := (s.oracle.drawProgram d).2 }) hl (s.oracle.drawProgram d).1 d hu8
        rw [hs2]
        have hw2 := Memory.writeBytes_wf d bs hw
        have hunit : ∀ a, a < d ∨ d + 8 ≤ a →
            Memory.read (s.flash.writeBytes d bs) a = Memory.read s.flash a := by
          intro a ha
          rw [Memory.read_writeBytes _ _ _ _ hw, if_neg (by omega)]
        have hout : ∀ a, a < d ∨ d + 8 * (u :: us).length ≤ a ∨ s.params.userEnd ≤ a →
            Memory.read (s.flash.writeBytes d bs) a = Memory.read s.flash a := by
          intro a ha
          simp only [List.length_cons] at ha
          exact hunit a (by omega)
        by_cases h3 : (s.oracle.drawProgram d).1 = .hwFault
        · rw [if_pos h3]
          exact ⟨_, _, o, rfl, hw2, .inr (.inr (.inl rfl)), hout, fun h => (by cases h),
            fun _ => hstop hunit (.inr (.inr ⟨by omega, fun j hj => by simpa using her j hj,
              .inl ⟨rfl, hmay _ (by simp) h3⟩⟩))⟩
        · rw [if_neg h3]
          by_cases h4 : State.flashRead { s with oracle := o, flash := s.flash.writeBytes d bs } d 8 ≠ u
          · rw [if_pos h4]
            refine ⟨_, _, o, rfl, hw2, .inr (.inr (.inr rfl)), hout, fun h => (by cases h),
              fun _ => hstop hunit (.inr (.inr ⟨by omega, fun j hj => by simpa using her j hj,
                .inr ⟨rfl, hmay _ (by simp) ?_, ?_⟩⟩))⟩
            · cases hx : (s.oracle.drawProgram d).1 with
              | hwFault => exact absurd hx h3
              | silent => rfl
              | none =>
                refine absurd ?_ h4
                rw [(hbu hx).1, ← hu8]
                refine Memory.readBytes_eq fun i hi => ?_
                simp only
                rw [Memory.read_writeBytes _ _ _ _ hw, if_pos (by omega)]
                simp
            · by_contra hall
              refine h4 ?_
              rw [← hu8]
              refine Memory.readBytes_eq fun i hi => ?_
              by_contra hne
              refine hall ⟨i, by omega, ?_⟩
              rw [Nat.mul_zero, Nat.zero_add, unitsByte_head u us (by omega)]
              exact hne
          · rw [if_neg h4]
            obtain ⟨c, f, o', he, hf, hc, hsame, hok, hno⟩ := ih (d + 8)
              { s with oracle := o, flash := s.flash.writeBytes d bs } hl hw2
              (fun v hv => hu v (List.mem_cons_of_mem _ hv))
            have h0 : Programmed s f d 1 (unitsByte (u :: us)) := by
              refine ⟨fun k hk => by omega, fun k hk => ?_, fun i hi => her i (by omega), fun i hi => ?_⟩
              · rw [show k = 0 by omega]; exact hpass h3
              · have h6 := congrArg (fun l => l.getD i Config.erased) (Decidable.of_not_not h4)
                simp only [State.flashRead] at h6
                rw [Memory.readBytes_getD _ _ _ _ _ (by omega)] at h6
                rw [hsame _ (by omega), h6, unitsByte_head u us (by omega)]
            have ha := hoa.trans htl
            refine ⟨c, f, o', he, hf, hc, fun a ha => ?_, fun hcok => ?_, fun hcno => ?_⟩
            · simp only [List.length_cons] at ha
              rw [hsame a (by simp only; omega), hout a (by simp only [List.length_cons]; omega)]
            · exact programmed_cons (t := { s with oracle := o, flash := s.flash.writeBytes d bs }) rfl ha
                (fun a ha => hunit a (by omega)) h0 (unitsByte_tail u us) (hok hcok)
            · obtain ⟨k, hk, h5, h6, h7⟩ := hno hcno
              refine ⟨k + 1, by simpa using hk,
                programmed_cons (t := { s with oracle := o, flash := s.flash.writeBytes d bs }) rfl ha
                  (fun a ha => hunit a (by omega)) h0 (unitsByte_tail u us) h5,
                fun a ha => (h6 a (by omega)).trans (hunit a (by omega)),
                stopCause_cons (t := { s with oracle := o, flash := s.flash.writeBytes d bs }) rfl ha
                  (hon.trans hnf) (fun a ha => hunit a (by omega)) (unitsByte_tail u us) h7⟩

/-- One fault-free unit of the loop: it is written, and the loop goes on (R114, R117). -/
theorem programLoop_unit {us : List (List Byte)} {u : List Byte} {d : Nat} {s : State} (hl : s.lock = false)
    (hw : Memory.wf s.flash) (hu8 : u.length = 8) (hend : d + 8 ≤ s.params.userEnd)
    (her : s.flashRead d 8 = erasedUnit) (hq : (s.oracle.drawProgram d).1 = .none) :
    programLoop (u :: us) d s = programLoop us (d + 8)
      { s with oracle := (s.oracle.drawProgram d).2, flash := s.flash.writeBytes d u } := by
  have hread : State.flashRead { s with oracle := (s.oracle.drawProgram d).2,
                                        flash := s.flash.writeBytes d u } d 8 = u := by
    rw [← hu8]
    refine Memory.readBytes_eq fun i hi => ?_
    simp only
    rw [Memory.read_writeBytes _ _ _ _ hw, if_pos (by omega)]
    simp
  have hs2 := flashWriteUnit_unlocked (s := { s with oracle := (s.oracle.drawProgram d).2 }) hl d u
  simp only [programLoop, unit_eq, hq, State.programUnit, hs2, hread, her]
  rw [if_neg (by omega)]
  simp

/-- The state after a fault on the unit at `d`, with the oracle as the fault's answer left it: drawn bytes in
the unit (R114). -/
def State.faulted (s : State) (o : Oracle) (d : Nat) : State :=
  { s with flash := s.flash.writeBytes d (o.drawBytes d 8).1, oracle := (o.drawBytes d 8).2 }

@[simp] theorem State.faulted_flash (s : State) (o : Oracle) (d : Nat) :
    (s.faulted o d).flash = s.flash.writeBytes d (o.drawBytes d 8).1 := rfl
@[simp] theorem State.faulted_oracle (s : State) (o : Oracle) (d : Nat) :
    (s.faulted o d).oracle = (o.drawBytes d 8).2 := rfl
@[simp] theorem State.faulted_lock (s : State) (o : Oracle) (d : Nat) : (s.faulted o d).lock = s.lock := rfl
@[simp] theorem State.faulted_params (s : State) (o : Oracle) (d : Nat) : (s.faulted o d).params = s.params := rfl

/-- One faulted unit of the loop: a reported fault ends it, a silent one is left to the read-back (R114, R117). -/
theorem programLoop_faulted {us : List (List Byte)} {u : List Byte} {d : Nat} {s : State} {x : ProgramDraw}
    {o : Oracle} (hl : s.lock = false) (hend : d + 8 ≤ s.params.userEnd) (her : s.flashRead d 8 = erasedUnit)
    (hx : s.oracle.drawProgram d = (x, o)) (hne : x ≠ .none) :
    programLoop (u :: us) d s =
      if x = .hwFault then (.writeHw, s.faulted o d)
      else if (s.faulted o d).flashRead d 8 ≠ u then (.writeVerify, s.faulted o d)
      else programLoop us (d + 8) (s.faulted o d) := by
  have hp : State.programUnit { s with oracle := o } x d u = s.faulted o d := by
    have hf := flashDrawBytes_unlocked (s := { s with oracle := o }) hl d 8
    cases x with
    | none => exact absurd rfl hne
    | hwFault => exact hf
    | silent => exact hf
  simp only [programLoop, unit_eq, hx, her, hp]
  rw [if_neg (by omega)]
  simp

/-- Under the no-fault oracle, over erased units that all lie below USER_END, the loop answers OK (R124). -/
theorem programLoop_quiet (us : List (List Byte)) (d : Nat) (s : State) (hl : s.lock = false)
    (hw : Memory.wf s.flash) (hu : ∀ u ∈ us, u.length = 8) (hq : s.oracle.Quiet)
    (hend : d + 8 * us.length ≤ s.params.userEnd)
    (her : ∀ a, d ≤ a → a < d + 8 * us.length → Memory.read s.flash a = Config.erased) :
    (programLoop us d s).1 = .ok ∧ (programLoop us d s).2.oracle.Quiet := by
  induction us generalizing d s with
  | nil => exact ⟨rfl, hq⟩
  | cons u us ih =>
    have hu8 := hu u List.mem_cons_self
    obtain ⟨hq1, hq2⟩ := Oracle.drawProgram_quiet d hq
    simp only [List.length_cons] at hend her
    have hstep := programLoop_unit (us := us) hl hw hu8 (by omega)
      (flashRead_erased fun j hj => her _ (by omega) (by omega)) hq1
    rw [hstep]
    refine ih _ _ hl (Memory.writeBytes_wf _ _ hw) (fun v hv => hu v (List.mem_cons_of_mem _ hv)) hq2
      (by simp only; omega) (fun a h1 h2 => ?_)
    simp only
    rw [Memory.read_writeBytes _ _ _ _ hw, if_neg (by omega)]
    exact her a (by omega) (by omega)

/-- Under the no-fault oracle no read-back differs (R117). -/
theorem programLoop_quiet_verifies (us : List (List Byte)) (d : Nat) (s : State) (hl : s.lock = false)
    (hw : Memory.wf s.flash) (hu : ∀ u ∈ us, u.length = 8) (hq : s.oracle.Quiet) :
    (programLoop us d s).1 ≠ .writeVerify := by
  induction us generalizing d s with
  | nil => simp [programLoop]
  | cons u us ih =>
    obtain ⟨hq1, hq2⟩ := Oracle.drawProgram_quiet d hq
    by_cases h1 : s.params.userEnd < d + 8
    · simp [programLoop, h1]
    · by_cases h2 : s.flashRead d 8 = erasedUnit
      · rw [programLoop_unit hl hw (hu u List.mem_cons_self) (by omega) h2 hq1]
        exact ih _ _ hl (Memory.writeBytes_wf _ _ hw) (fun v hv => hu v (List.mem_cons_of_mem _ hv)) hq2
      · simp [programLoop, h1, h2]

/-- Where the oracle's next k answers are NONE, the loop programs k erased units and goes on with the answers
after them (R114, R126). -/
theorem programLoop_prefix (k : Nat) (us : List (List Byte)) (d : Nat) (s : State) (rest : List ProgramDraw)
    (hl : s.lock = false) (hw : Memory.wf s.flash) (hu : ∀ u ∈ us, u.length = 8) (hk : k ≤ us.length)
    (ha : s.oracle.programAnswers = List.replicate k .none ++ rest) (hend : d + 8 * k ≤ s.params.userEnd)
    (her : ∀ j, j < 8 * k → Memory.read s.flash (d + j) = Config.erased) :
    ∃ f n, programLoop us d s = programLoop (us.drop k) (d + 8 * k)
        { s with flash := f, oracle := { s.oracle with programAnswers := rest, drawn := n } } ∧ Memory.wf f ∧
      ∀ a, Memory.read f a =
        if d ≤ a ∧ a < d + 8 * k then unitsByte us (a - d) else Memory.read s.flash a := by
  induction k generalizing us d s with
  | zero =>
    refine ⟨s.flash, s.oracle.drawn, ?_, hw, fun a => by rw [if_neg (by omega)]⟩
    simp only [List.replicate, List.nil_append] at ha
    simp only [List.drop_zero, Nat.mul_zero, Nat.add_zero, ← ha]
  | succ k ih =>
    cases us with
    | nil => simp at hk
    | cons u us =>
      have hu8 := hu u List.mem_cons_self
      have hd := Oracle.drawProgram_listed d (o := s.oracle) (a := .none)
        (rest := List.replicate k .none ++ rest) (by rw [ha]; rfl)
      rw [programLoop_unit hl hw hu8 (by omega) (flashRead_erased fun j hj => her j (by omega)) (by rw [hd]), hd]
      obtain ⟨f, n, he, hf, hr⟩ := ih us (d + 8)
        { s with oracle := { s.oracle.tick with programAnswers := List.replicate k .none ++ rest },
                 flash := s.flash.writeBytes d u } hl (Memory.writeBytes_wf _ _ hw)
        (fun v hv => hu v (List.mem_cons_of_mem _ hv)) (by simpa using hk) rfl (by simp only; omega)
        (fun j hj => by
          simp only
          rw [Memory.read_writeBytes _ _ _ _ hw, if_neg (by omega), show d + 8 + j = d + (8 + j) by omega]
          exact her _ (by omega))
      refine ⟨f, n, ?_, hf, fun a => ?_⟩
      · rw [he, List.drop_succ_cons, show d + 8 + 8 * k = d + 8 * (k + 1) by omega]
        rfl
      · rw [hr a]
        simp only [Memory.read_writeBytes _ _ _ _ hw, hu8]
        by_cases h1 : d + 8 ≤ a ∧ a < d + 8 + 8 * k
        · rw [if_pos h1, if_pos (by omega), unitsByte, unitsByte, show (a - d) / 8 = (a - (d + 8)) / 8 + 1 by omega,
            show (a - d) % 8 = (a - (d + 8)) % 8 by omega, List.getD_cons_succ]
        · rw [if_neg h1]
          by_cases h2 : d ≤ a ∧ a < d + 8
          · rw [if_pos h2, if_pos (by omega), unitsByte, show (a - d) / 8 = 0 by omega,
              show (a - d) % 8 = a - d by omega, List.getD_cons_zero]
          · rw [if_neg h2, if_neg (by omega)]

theorem programOp_eq {s : State} {d : Nat} {bs : List Byte} (hd : ProgramStart s.params d)
    (hb : bs.length ≠ 0) :
    s.programOp d bs = ((programLoop (unitsOf bs) d s.unlock).1,
      (programLoop (unitsOf bs) d s.unlock).2.relock) := by
  unfold State.programOp
  rw [if_neg (by omega), if_neg (by simp [hd.2]), if_neg hb]

theorem programOp_below {s : State} {d : Nat} (bs : List Byte) (h : d < s.params.flashBase) :
    s.programOp d bs = (.writeRange, s) := by unfold State.programOp; rw [if_pos h]

theorem programOp_misaligned {s : State} {d : Nat} (bs : List Byte) (h1 : s.params.flashBase ≤ d)
    (h : d % 8 ≠ 0) : s.programOp d bs = (.align, s) := by
  unfold State.programOp; rw [if_neg (by omega), if_pos h]

theorem programOp_empty {s : State} {d : Nat} (hd : ProgramStart s.params d) :
    s.programOp d [] = (.ok, s) := by
  unfold State.programOp; rw [if_neg (by omega), if_neg (by simp [hd.2]), if_pos List.length_nil]

/-- Byte i of the units of a list: the list's byte, or the padding (R119). -/
theorem unitsByte_unitsOf (bs : List Byte) {i : Nat} (h : i < unitSpan bs.length) :
    unitsByte (unitsOf bs) i = bs.getD i Config.erased := by
  have hk : i / 8 < (bs.length + 7) / 8 := by unfold unitSpan at h; omega
  rw [unitsByte, unitsOf_getD _ _ hk, unitAt_getD _ _ _ (by omega),
    show 8 * (i / 8) + i % 8 = i by omega]

/-- `Program` past its checks, whatever the oracle answers (R114, R116, R117, R118, R126, R127). -/
theorem programOp_spec {s : State} {d : Nat} {bs : List Byte} (hd : ProgramStart s.params d)
    (hb : bs.length ≠ 0) (hw : Memory.wf s.flash) :
    ∃ c f o, s.programOp d bs = (c, { s with flash := f, oracle := o, lock := true }) ∧ Memory.wf f ∧
      (c = .ok ∨ c = .writeRange ∨ c = .writeHw ∨ c = .writeVerify) ∧
      (∀ a, a < d ∨ d + unitSpan bs.length ≤ a ∨ s.params.userEnd ≤ a →
        Memory.read f a = Memory.read s.flash a) ∧
      (c = .ok → Programmed s f d ((bs.length + 7) / 8) (fun i => bs.getD i Config.erased)) ∧
      (c ≠ .ok → ∃ k, k < (bs.length + 7) / 8 ∧
        StoppedAt s f d k c (fun i => bs.getD i Config.erased)) := by
  obtain ⟨c, f, o, he, hf, hc, hsame, hok, hno⟩ := programLoop_spec (unitsOf bs) d s.unlock rfl hw
    (fun u hu => unitsOf_lengths hu)
  rw [unitsOf_length] at hok hno
  refine ⟨c, f, o, ?_, hf, hc, fun a ha => ?_, fun h => ?_, fun h => ?_⟩
  · rw [programOp_eq hd hb, he]; rfl
  · exact hsame a (by simpa [unitSpan] using ha)
  · obtain ⟨h1, h2, h3, h4⟩ := programmed_congr (hok h) fun i hi => unitsByte_unitsOf bs (by unfold unitSpan; omega)
    exact ⟨h1, h2, h3, h4⟩
  · obtain ⟨k, hk, hst⟩ := hno h
    obtain ⟨⟨h1, h2, h3, h4⟩, h5, h6⟩ :=
      stoppedAt_congr hst fun i hi => unitsByte_unitsOf bs (by unfold unitSpan; omega)
    exact ⟨k, hk, ⟨h1, h2, h3, h4⟩, h5, h6⟩

/-- `Program` over erased units below USER_END under the no-fault oracle (R124). -/
theorem programOp_quiet {s : State} {d : Nat} {bs : List Byte} (hd : ProgramStart s.params d)
    (hb : bs.length ≠ 0) (hw : Memory.wf s.flash) (hq : s.oracle.Quiet)
    (hend : d + unitSpan bs.length ≤ s.params.userEnd)
    (her : ∀ a, d ≤ a → a < d + unitSpan bs.length → Memory.read s.flash a = Config.erased) :
    ∃ f o, s.programOp d bs = (.ok, { s with flash := f, oracle := o, lock := true }) ∧ Memory.wf f ∧
      o.Quiet ∧ ∀ a, Memory.read f a =
        if d ≤ a ∧ a < d + unitSpan bs.length then bs.getD (a - d) Config.erased
        else Memory.read s.flash a := by
  have hq' := programLoop_quiet (unitsOf bs) d s.unlock rfl hw (fun u hu => unitsOf_lengths hu) hq
    (by simpa [unitSpan] using hend) (by simpa [unitSpan] using her)
  obtain ⟨c, f, o, he, hf, _, hsame, hok, _⟩ := programOp_spec hd hb hw
  have hop := programOp_eq (s := s) hd hb
  have e1 : c = .ok := (congrArg Prod.fst (he.symm.trans hop)).trans hq'.1
  have e2 : o.Quiet := by
    have := congrArg (fun r => r.2.oracle) (he.symm.trans hop)
    simp only [State.relock_oracle] at this
    rw [this]; exact hq'.2
  subst e1
  refine ⟨f, o, he, hf, e2, fun a => ?_⟩
  split
  · rename_i ha
    have := (hok rfl).holds (a - d) (by unfold unitSpan at ha; omega)
    rwa [show d + (a - d) = a by omega] at this
  · exact hsame a (by omega)

/-- Where the oracle answers NONE for every unit, `Program` over erased units below USER_END answers OK
(R114, R116, R117). -/
theorem programOp_noFault {s : State} {d k : Nat} {bs : List Byte} {rest : List ProgramDraw}
    (hd : ProgramStart s.params d) (hb : bs.length ≠ 0) (hw : Memory.wf s.flash)
    (hx : s.oracle.programAnswers = List.replicate k .none ++ rest) (hk : (bs.length + 7) / 8 ≤ k)
    (hend : d + unitSpan bs.length ≤ s.params.userEnd)
    (her : ∀ a, d ≤ a → a < d + unitSpan bs.length → Memory.read s.flash a = Config.erased) :
    (s.programOp d bs).1 = .ok := by
  have hlen := unitsOf_length bs
  unfold unitSpan at hend her
  obtain ⟨f, m, he, _, _⟩ := programLoop_prefix (unitsOf bs).length (unitsOf bs) d s.unlock
    (List.replicate (k - (unitsOf bs).length) .none ++ rest) rfl hw (fun u hu => unitsOf_lengths hu)
    (Nat.le_refl _) (by
      rw [← List.append_assoc, List.replicate_append_replicate,
        show (unitsOf bs).length + (k - (unitsOf bs).length) = k by omega]
      exact hx) (by simp only [State.unlock_params]; omega)
    (fun j hj => her _ (by omega) (by omega))
  rw [programOp_eq hd hb, he, List.drop_length]
  rfl

/-- A first unit that is not erased stops `Program` with WRITE_HW and nothing changed (R116). -/
theorem programOp_notErased {s : State} {d : Nat} {bs : List Byte} (hd : ProgramStart s.params d)
    (hb : bs.length ≠ 0) (hend : d + 8 ≤ s.params.userEnd)
    (hne : ∃ j, j < 8 ∧ Memory.read s.flash (d + j) ≠ Config.erased) :
    s.programOp d bs = (.writeHw, { s with lock := true }) := by
  have hnot : s.flashRead d Config.unit ≠ erasedUnit := by
    obtain ⟨j, hj, hne⟩ := hne
    exact fun h => hne (read_of_erasedUnit h hj)
  rw [programOp_eq hd hb]
  have hlen : (unitsOf bs).length ≠ 0 := by rw [unitsOf_length]; omega
  cases hus : unitsOf bs with
  | nil => rw [hus] at hlen; simp at hlen
  | cons u us =>
    have hstep : programLoop (u :: us) d s.unlock = (.writeHw, s.unlock) := by
      simp only [programLoop]
      rw [if_neg (by simp only [unit_eq, State.unlock_params]; omega), if_pos (by exact hnot)]
    rw [hstep]
    rfl

/-! ### The operand DBUF[0 .. LEN) (R90, R122) -/

theorem dbufOperand_length {s : State} (h : s.len.toNat ≤ 16) : s.dbufOperand.length = s.len.toNat := by
  simp [State.dbufOperand, bufferPrefix, State.lenOperand, h]

theorem dbufOperand_getD {s : State} {i : Nat} (x : Byte) (hi : i < s.len.toNat) (h : s.len.toNat ≤ 16) :
    s.dbufOperand.getD i x = s.dbuf.toList.getD i 0 := by
  have h16 : i < 16 := by omega
  simp [State.dbufOperand, bufferPrefix, State.lenOperand, List.getD_eq_getElem?_getD, hi, h16]

end Sys2Proof.Machine
end

