-- ==== Sys2Proof/Laws/Sequencer.lean ====
section
/-! SUPPORT. What the sequencer's steps share: the frames of the flash operations over every state, their
independence of the host's registers (R149), and the record region's place in the array (R9, R150). -/

namespace Sys2Proof.Machine

open Sys2Proof.Safety

/-! ### Frames of the flash operations, over every state -/

theorem flashErasePage_frame (s : State) (n : Nat) :
    ∃ f, s.flashErasePage n = { s with flash := f } := by
  unfold State.flashErasePage; split
  · exact ⟨s.flash, rfl⟩
  · exact ⟨_, rfl⟩

theorem flashDrawBytes_frame (s : State) (a n : Nat) :
    ∃ f o, s.flashDrawBytes a n = { s with flash := f, oracle := o } := by
  unfold State.flashDrawBytes; split
  · exact ⟨s.flash, s.oracle, rfl⟩
  · exact ⟨_, _, rfl⟩

theorem programUnit_frame (s : State) (f : ProgramDraw) (d : Nat) (u : List Byte) :
    ∃ m o, s.programUnit f d u = { s with flash := m, oracle := o } := by
  cases f
  · simp only [State.programUnit, State.flashWriteUnit]
    split
    · exact ⟨s.flash, s.oracle, rfl⟩
    · exact ⟨_, s.oracle, rfl⟩
  · exact flashDrawBytes_frame s d 8
  · exact flashDrawBytes_frame s d 8

theorem eraseLoop_frame (n p : Nat) (s : State) :
    ∃ c f o, eraseLoop n p s = (c, { s with flash := f, oracle := o }) := by
  induction n generalizing p s with
  | zero => exact ⟨.ok, s.flash, s.oracle, rfl⟩
  | succ n ih =>
    simp only [eraseLoop]
    split
    · obtain ⟨f, hf⟩ := flashErasePage_frame { s with oracle := (s.oracle.drawErase p).2 } p
      rw [hf]
      obtain ⟨c, f', o', h⟩ := ih (p + 1) { s with oracle := (s.oracle.drawErase p).2, flash := f }
      exact ⟨c, f', o', h⟩
    · obtain ⟨f, o, hf⟩ := flashDrawBytes_frame { s with oracle := (s.oracle.drawErase p).2 }
        (Params.pageAddr s.params p) s.params.pageSize
      exact ⟨.eraseHw, f, o, by rw [hf]⟩

theorem programLoop_frame (us : List (List Byte)) (d : Nat) (s : State) :
    ∃ c f o, programLoop us d s = (c, { s with flash := f, oracle := o }) := by
  induction us generalizing d s with
  | nil => exact ⟨.ok, s.flash, s.oracle, rfl⟩
  | cons u us ih =>
    simp only [programLoop]
    split
    · exact ⟨_, s.flash, s.oracle, rfl⟩
    · split
      · exact ⟨_, s.flash, s.oracle, rfl⟩
      · obtain ⟨f, o, hf⟩ := programUnit_frame { s with oracle := (s.oracle.drawProgram d).2 }
          (s.oracle.drawProgram d).1 d u
        simp only [hf]
        split
        · exact ⟨_, f, o, rfl⟩
        · split
          · exact ⟨_, f, o, rfl⟩
          · obtain ⟨c, f', o', h⟩ := ih (d + Config.unit) { s with oracle := o, flash := f }
            exact ⟨c, f', o', h⟩

/-- `Erase` changes only flash, LOCK and the model's oracle; it leaves LOCK = 1 or as it was (R102). -/
theorem eraseOp_frame (s : State) (a : Nat) :
    ∃ c f o l, s.eraseOp a = (c, { s with flash := f, oracle := o, lock := l }) ∧
      (s.lock = true → l = true) := by
  unfold State.eraseOp
  split
  · exact ⟨_, s.flash, s.oracle, s.lock, rfl, id⟩
  · split
    · exact ⟨_, s.flash, s.oracle, s.lock, rfl, id⟩
    · obtain ⟨c, f, o, h⟩ := eraseLoop_frame
        (Params.pageOf s.params s.params.userEnd - Params.pageOf s.params a) (Params.pageOf s.params a) s.unlock
      simp only [h]
      exact ⟨c, f, o, true, rfl, fun _ => rfl⟩

/-- `Program` changes only flash, LOCK and the model's oracle; it leaves LOCK = 1 or as it was (R102). -/
theorem programOp_frame (s : State) (d : Nat) (bs : List Byte) :
    ∃ c f o l, s.programOp d bs = (c, { s with flash := f, oracle := o, lock := l }) ∧
      (s.lock = true → l = true) := by
  unfold State.programOp
  split
  · exact ⟨_, s.flash, s.oracle, s.lock, rfl, id⟩
  · split
    · exact ⟨_, s.flash, s.oracle, s.lock, rfl, id⟩
    · split
      · exact ⟨_, s.flash, s.oracle, s.lock, rfl, id⟩
      · obtain ⟨c, f, o, h⟩ := programLoop_frame (unitsOf bs) d s.unlock
        simp only [h]
        exact ⟨c, f, o, true, rfl, fun _ => rfl⟩

/-! ### The host's registers do not matter to the flash operations (R149) -/

/-- `s` with other values in the registers that the sequencer does not use. -/
def State.patch (s : State) (a : Word) (ln : BitVec 5) (d : Vector Byte 16) (acc : Byte) (v : Bool)
    (c : Code) (b : Bool) : State :=
  { s with addr := a, len := ln, dbuf := d, crcAcc := acc, vok := v, err := c, busy := b }

section Patch

variable (a : Word) (ln : BitVec 5) (d : Vector Byte 16) (acc : Byte) (v : Bool) (c : Code) (b : Bool)

theorem flashErasePage_patch (s : State) (n : Nat) :
    (s.patch a ln d acc v c b).flashErasePage n = (s.flashErasePage n).patch a ln d acc v c b := by
  unfold State.flashErasePage State.patch; simp only; split <;> rfl

theorem flashDrawBytes_patch (s : State) (x n : Nat) :
    (s.patch a ln d acc v c b).flashDrawBytes x n = (s.flashDrawBytes x n).patch a ln d acc v c b := by
  unfold State.flashDrawBytes State.patch; simp only; split <;> rfl

theorem programUnit_patch (s : State) (f : ProgramDraw) (x : Nat) (u : List Byte) :
    (s.patch a ln d acc v c b).programUnit f x u = (s.programUnit f x u).patch a ln d acc v c b := by
  cases f
  · simp only [State.programUnit]
    unfold State.flashWriteUnit State.patch; simp only; split <;> rfl
  · exact flashDrawBytes_patch a ln d acc v c b s x 8
  · exact flashDrawBytes_patch a ln d acc v c b s x 8

theorem eraseLoop_patch (n p : Nat) (s : State) :
    eraseLoop n p (s.patch a ln d acc v c b) =
      ((eraseLoop n p s).1, (eraseLoop n p s).2.patch a ln d acc v c b) := by
  induction n generalizing p s with
  | zero => rfl
  | succ n ih =>
    cases hd : (s.oracle.drawErase p).1 with
    | none =>
      have h1 : eraseLoop (n + 1) p s = eraseLoop n (p + 1)
          (State.flashErasePage { s with oracle := (s.oracle.drawErase p).2 } p) := by
        simp only [eraseLoop, hd]
      have h2 : eraseLoop (n + 1) p (s.patch a ln d acc v c b) = eraseLoop n (p + 1)
          (State.flashErasePage (State.patch { s with oracle := (s.oracle.drawErase p).2 } a ln d acc v c b) p) := by
        simp only [eraseLoop, State.patch, hd]
      rw [h1, h2, flashErasePage_patch, ih]
    | fault =>
      have h1 : eraseLoop (n + 1) p s = (.eraseHw, State.flashDrawBytes
          { s with oracle := (s.oracle.drawErase p).2 } (Params.pageAddr s.params p) s.params.pageSize) := by
        simp only [eraseLoop, hd]
      have h2 : eraseLoop (n + 1) p (s.patch a ln d acc v c b) = (.eraseHw, State.flashDrawBytes
          (State.patch { s with oracle := (s.oracle.drawErase p).2 } a ln d acc v c b)
          (Params.pageAddr s.params p) s.params.pageSize) := by
        simp only [eraseLoop, State.patch, hd]
      rw [h1, h2, flashDrawBytes_patch]

theorem programLoop_patch (us : List (List Byte)) (x : Nat) (s : State) :
    programLoop us x (s.patch a ln d acc v c b) =
      ((programLoop us x s).1, (programLoop us x s).2.patch a ln d acc v c b) := by
  induction us generalizing x s with
  | nil => rfl
  | cons u us ih =>
    have hp := programUnit_patch a ln d acc v c b { s with oracle := (s.oracle.drawProgram x).2 }
      (s.oracle.drawProgram x).1 x u
    by_cases h1 : s.params.userEnd < x + Config.unit
    · simp only [programLoop]; rw [if_pos (by exact h1), if_pos h1]
    · by_cases h2 : s.flashRead x Config.unit ≠ erasedUnit
      · simp only [programLoop]; rw [if_neg (by exact h1), if_pos (by exact h2), if_neg h1, if_pos h2]
      · by_cases h3 : (s.oracle.drawProgram x).1 = .hwFault
        · simp only [programLoop]
          rw [if_neg (by exact h1), if_neg (by exact h2), if_pos (by exact h3), if_neg h1, if_neg h2, if_pos h3]
          exact congrArg (Prod.mk Code.writeHw) hp
        · by_cases h4 : State.flashRead (State.programUnit { s with oracle := (s.oracle.drawProgram x).2 }
              (s.oracle.drawProgram x).1 x u) x Config.unit ≠ u
          · have h4' : State.flashRead (State.programUnit
                (State.patch { s with oracle := (s.oracle.drawProgram x).2 } a ln d acc v c b)
                (s.oracle.drawProgram x).1 x u) x Config.unit ≠ u := by rw [hp]; exact h4
            simp only [programLoop]
            rw [if_neg (by exact h1), if_neg (by exact h2), if_neg (by exact h3), if_pos (by exact h4'),
              if_neg h1, if_neg h2, if_neg h3, if_pos h4]
            exact congrArg (Prod.mk Code.writeVerify) hp
          · have h4' : ¬ State.flashRead (State.programUnit
                (State.patch { s with oracle := (s.oracle.drawProgram x).2 } a ln d acc v c b)
                (s.oracle.drawProgram x).1 x u) x Config.unit ≠ u := by rw [hp]; exact h4
            simp only [programLoop]
            rw [if_neg (by exact h1), if_neg (by exact h2), if_neg (by exact h3), if_neg (by exact h4'),
              if_neg h1, if_neg h2, if_neg h3, if_neg h4]
            rw [← ih]
            exact congrArg (programLoop us (x + Config.unit)) hp

theorem eraseOp_patch (s : State) (x : Nat) :
    (s.patch a ln d acc v c b).eraseOp x =
      ((s.eraseOp x).1, (s.eraseOp x).2.patch a ln d acc v c b) := by
  by_cases h1 : x < s.params.flashBase ∨ s.params.userEnd ≤ x
  · unfold State.eraseOp; rw [if_pos (by exact h1), if_pos h1]
  · by_cases h2 : (x - s.params.flashBase) % s.params.pageSize ≠ 0
    · unfold State.eraseOp; rw [if_neg (by exact h1), if_pos (by exact h2), if_neg h1, if_pos h2]
    · unfold State.eraseOp
      rw [if_neg (by exact h1), if_neg (by exact h2), if_neg h1, if_neg h2]
      have := eraseLoop_patch a ln d acc v c b
        (Params.pageOf s.params s.params.userEnd - Params.pageOf s.params x) (Params.pageOf s.params x) s.unlock
      have e : (s.patch a ln d acc v c b).unlock = s.unlock.patch a ln d acc v c b := rfl
      simp only [e]
      have e2 : (s.patch a ln d acc v c b).params = s.params := rfl
      rw [e2, this]
      rfl

theorem programOp_patch (s : State) (x : Nat) (bs : List Byte) :
    (s.patch a ln d acc v c b).programOp x bs =
      ((s.programOp x bs).1, (s.programOp x bs).2.patch a ln d acc v c b) := by
  by_cases h1 : x < s.params.flashBase
  · unfold State.programOp; rw [if_pos (by exact h1), if_pos h1]
  · by_cases h2 : x % Config.unit ≠ 0
    · unfold State.programOp; rw [if_neg (by exact h1), if_pos h2, if_neg h1, if_pos h2]
    · by_cases h3 : bs.length = 0
      · unfold State.programOp
        rw [if_neg (by exact h1), if_neg h2, if_pos h3, if_neg h1, if_neg h2, if_pos h3]
      · unfold State.programOp
        rw [if_neg (by exact h1), if_neg h2, if_neg h3, if_neg h1, if_neg h2, if_neg h3]
        have := programLoop_patch a ln d acc v c b (unitsOf bs) x s.unlock
        have e : (s.patch a ln d acc v c b).unlock = s.unlock.patch a ln d acc v c b := rfl
        simp only [e]
        rw [this]
        rfl

end Patch

/-! ### The record region (R9, R62) -/

theorem recLen_le {p : Params} (h : p.WellFormed) : 13 ≤ p.recLen ∧ p.recLen ≤ 14 := by
  rcases h.2.2.2.2.2.2.2.2.2.2.2.2.1 with h | h <;> simp [Params.recLen, h]

/-- The record is two units long (R10). -/
theorem record_unitSpan {p : Params} (h : p.WellFormed) : unitSpan p.recLen = 16 := by
  have := recLen_le h
  unfold unitSpan
  omega

/-- RECORD_ADDR is where `Program` may start (R9, R152). -/
theorem record_programStart {p : Params} (h : p.WellFormed) : ProgramStart p p.recordAddr := by
  obtain ⟨_, _, _, _, _, h6, _, _, _, h10, h11, _, _, _⟩ := h
  refine ⟨h11, Nat.mod_eq_zero_of_dvd ?_⟩
  exact Nat.dvd_trans (Nat.dvd_of_mod_eq_zero h6) (Nat.dvd_of_mod_eq_zero h10)

/-- `Read` of the record region always answers OK (R150). -/
theorem record_readOp {s : State} (h : s.params.WellFormed) :
    s.readOp s.params.recordAddr s.params.recLen = (.ok, recordBytes s) := by
  have hr := recLen_le h
  have h8 := h.2.2.2.2.2.2.2.1
  have h11 := h.2.2.2.2.2.2.2.2.2.2.1
  have h12 := h.2.2.2.2.2.2.2.2.2.2.2.1
  exact readOp_ok (by omega) h11 (by omega)

@[simp] theorem serialize_length (p : Params) (t : Vector Byte 256) (flag : Byte) (h : p.WellFormed) :
    (serialize p t flag).length = p.recLen := by
  have h14 := h.2.2.2.2.2.2.2.2.2.2.2.2.2
  simp [serialize, recordBody, h14, Params.recLen]

/-! ### What the flash operations do to any address, from any start (R62, R127) -/

/-- `Erase` from any start: its frame, the canonical form, and no byte outside the user area changed. -/
theorem eraseOp_userArea {s : State} (a : Nat) (hp : s.params.WellFormed) (hw : Memory.wf s.flash)
    (hl : s.lock = true) :
    ∃ c f o, s.eraseOp a = (c, { s with flash := f, oracle := o }) ∧ Memory.wf f ∧
      ∀ x, x < s.params.flashBase ∨ s.params.userEnd ≤ x → Memory.read f x = Memory.read s.flash x := by
  by_cases h1 : a < s.params.flashBase ∨ s.params.userEnd ≤ a
  · exact ⟨_, s.flash, s.oracle, eraseOp_outside h1, hw, fun _ _ => rfl⟩
  · by_cases h2 : (a - s.params.flashBase) % s.params.pageSize = 0
    · obtain ⟨c, f, o, he, hf, hc⟩ := eraseOp_spec hp ⟨by omega, by omega, h2⟩ hw
      refine ⟨c, f, o, by rw [he, ← hl], hf, fun x hx => ?_⟩
      rcases hc with ⟨_, h⟩ | ⟨_, k, h⟩
      · rw [h.flash x, if_neg (by omega)]
      · have := h.inRange
        exact h.others x (by omega)
    · exact ⟨_, s.flash, s.oracle, eraseOp_misaligned (by omega) (by omega) h2, hw, fun _ _ => rfl⟩

/-- `Program` from any destination: its frame, the canonical form, and no byte outside the user area
changed. -/
theorem programOp_userArea {s : State} (d : Nat) (bs : List Byte) (hw : Memory.wf s.flash)
    (hl : s.lock = true) :
    ∃ c f o, s.programOp d bs = (c, { s with flash := f, oracle := o }) ∧ Memory.wf f ∧
      ∀ x, x < s.params.flashBase ∨ s.params.userEnd ≤ x → Memory.read f x = Memory.read s.flash x := by
  by_cases h1 : d < s.params.flashBase
  · exact ⟨_, s.flash, s.oracle, programOp_below bs h1, hw, fun _ _ => rfl⟩
  · by_cases h2 : d % 8 = 0
    · by_cases hb : bs.length = 0
      · rw [List.length_eq_zero_iff] at hb
        subst hb
        exact ⟨_, s.flash, s.oracle, programOp_empty ⟨by omega, h2⟩, hw, fun _ _ => rfl⟩
      · obtain ⟨c, f, o, he, hf, _, h, _⟩ := programOp_spec (bs := bs) ⟨by omega, h2⟩ hb hw
        exact ⟨c, f, o, by rw [he, ← hl], hf, fun x hx => h x (by omega)⟩
    · exact ⟨_, s.flash, s.oracle, programOp_misaligned bs (by omega) h2, hw, fun _ _ => rfl⟩

/-! ### Loading a buffer (R120, R136, R150) -/

theorem loadBuffer_get (b : Vector Byte 16) (bs : List Byte) (i : Fin 16) :
    (loadBuffer b bs)[i] = if i.val < bs.length then bs.getD i.val 0 else b[i] := by
  unfold loadBuffer
  simp only [Fin.getElem_fin, Vector.getElem_ofFn]
  split
  · rename_i h; simp [List.getD_eq_getElem?_getD, h]
  · rename_i h; simp [List.getD_eq_getElem?_getD, h]

theorem loadBuffer_take (b : Vector Byte 16) (bs : List Byte) (h : bs.length ≤ 16) :
    bufferPrefix (loadBuffer b bs) bs.length = bs := by
  apply List.ext_getElem
  · simp [bufferPrefix, h]
  · intro i h1 h2
    have := loadBuffer_get b bs ⟨i, by omega⟩
    simp only [bufferPrefix, List.getElem_take, Vector.getElem_toList]
    simp only [Fin.getElem_fin] at this
    rw [this, if_pos h2, List.getD_eq_getElem?_getD, List.getElem?_eq_getElem h2, Option.getD_some]

end Sys2Proof.Machine
end

