-- ==== Sys2Proof/Laws/Window.lean ====
section
/-! SUPPORT. What the host's accesses can do: the register map both ways (R22), the reads (R39), the
admitted accesses (R58), and the schedule (R74, R146, R177). -/

namespace Sys2Proof.Machine

/-- The table window (R22, R31). -/
theorem regAt_tbl {off : Nat} (h1 : 0x400 ≤ off) (h2 : off < 0x800) :
    regAt off = some (.tbl (Fin.ofNat 256 ((off - 0x400) / 4))) := by
  unfold regAt
  repeat' split
  all_goals first | rfl | (exfalso; omega)

/-- The map of R22 has each register at its offset. -/
theorem regAt_regOffset (r : Reg) : regAt (regOffset r) = some r := by
  cases r with
  | cmd => rfl
  | status => rfl
  | addr => rfl
  | len => rfl
  | crcAcc => rfl
  | seq => rfl
  | info => rfl
  | dbuf k => revert k; decide
  | obs k => revert k; decide
  | int k => revert k; decide
  | tbl i =>
    have hi := i.isLt
    rw [regOffset, regAt_tbl (by omega) (by omega), show (0x400 + 4 * i.val - 0x400) / 4 = i.val by omega]
    simp

/-- A read moves nothing but the model's oracle (R39, R61). -/
theorem busRead32_state (off : Nat) (s : State) :
    (busRead32 off s).2 = { s with oracle := (busRead32 off s).2.oracle } := by
  unfold busRead32
  split
  · rfl
  · split <;> rfl
  · rfl

/-- A read moves nothing at all where the table is valid or the register is no table entry. -/
theorem busRead32_same (off : Nat) (s : State) (h : s.tblValid = true ∨ off < 0x400) :
    (busRead32 off s).2 = s := by
  unfold busRead32
  split
  · rfl
  · rename_i i hi
    rw [if_pos]
    rcases h with h | h
    · exact h
    · exfalso
      unfold regAt at hi
      repeat' split at hi
      all_goals first | omega | (simp at hi)
  · rfl

/-- The window offset of an admitted access (R22, R58). -/
theorem busOffset_ok {p : Params} {a : Nat} {w : Width} (h : admittedAccess p a w) :
    busOffset p a w = .ok (a - p.blockBase) := by
  obtain ⟨h1, h2, h3, h4⟩ := h
  unfold busOffset
  rw [if_neg (by simp [h1]), if_neg (by omega), if_neg (by omega)]

/-- An admitted access is the only one with an offset (R58). -/
theorem busOffset_admitted {p : Params} {a off : Nat} {w : Width} (h : busOffset p a w = .ok off) :
    admittedAccess p a w ∧ off = a - p.blockBase := by
  unfold busOffset at h
  split at h
  · cases h
  · split at h
    · cases h
    · split at h
      · cases h
      · rename_i h1 h2 h3
        cases h
        exact ⟨⟨by simpa using h1, by omega, by omega, by omega⟩, rfl⟩

/-! ### The schedule -/

theorem command_enabled (s : State) : Turn.command ∈ s.enabled ↔ s.busy = true := by
  unfold State.enabled
  cases s.busy <;> cases s.run <;> by_cases h : s.inputs = [] <;> simp [h]

theorem sequencer_enabled (s : State) : Turn.sequencer ∈ s.enabled ↔ s.run = true := by
  unfold State.enabled
  cases s.busy <;> cases s.run <;> by_cases h : s.inputs = [] <;> simp [h]

theorem host_enabled (s : State) : Turn.host ∈ s.enabled ↔ s.inputs ≠ [] := by
  unfold State.enabled
  cases s.busy <;> cases s.run <;> by_cases h : s.inputs = [] <;> simp [h]

theorem pickTurn_mem {t u : Turn} {ts : List Turn} (h : pickTurn t ts = some u) : u ∈ ts := by
  unfold pickTurn at h
  split at h
  · rename_i ht; cases h; exact ht
  · exact List.mem_of_mem_head? (by rw [h]; rfl)

/-- Only an enabled agent is given a turn. -/
theorem nextTurn_enabled {s : State} {t : Turn} (h : s.nextTurn = some t) : t ∈ s.enabled := by
  unfold State.nextTurn at h
  split at h
  · cases h
  · rename_i u he; cases h; rw [he]; exact List.mem_cons_self
  · split at h <;> exact pickTurn_mem h

/-- No turn is given only where no agent is enabled. -/
theorem nextTurn_none {s : State} (h : s.nextTurn = none) : s.enabled = [] := by
  unfold State.nextTurn at h
  split at h
  · assumption
  · cases h
  · rename_i h1 h2
    have key : ∀ t, pickTurn t s.enabled ≠ none := by
      intro t ht
      unfold pickTurn at ht
      split at ht
      · cases ht
      · exact h1 (List.head?_eq_none_iff.1 ht)
    split at h <;> exact absurd h (key _)

end Sys2Proof.Machine
end

