-- ==== Sys2Proof/Laws/Invariant.lean ====
section
/-! SUPPORT. What keeps the invariant of Safety.lean: the flash operations, the record's buffers, the host's
writes and reads. -/

namespace Sys2Proof.Machine

open Sys2Proof.Safety

/-- The invariant looks only at the parameters, LOCK, the table, RUN, RST_REQ, flash, OBS and INT. -/
theorem invariant_congr {s t : State} (h : Invariant s) (h1 : t.params = s.params) (h2 : t.lock = s.lock)
    (h3 : t.tblValid = s.tblValid) (h4 : t.table = s.table) (h5 : t.run = s.run) (h6 : t.rstReq = s.rstReq)
    (h7 : t.flash = s.flash) (h8 : t.obs = s.obs) (h9 : t.intd = s.intd) : Invariant t := by
  obtain ⟨a, b, c, d, e, f, g, i⟩ := h
  constructor
  · rw [h1]; exact a
  · rw [h2]; exact b
  · rw [h3, h4]; exact c
  · rw [h5, h3, h6]; exact d
  · rw [h7]; exact e
  · rw [h7, h1]; exact f
  · rw [h1, h8]; exact g
  · rw [h1, h9]; exact i

/-- A flash array that differs only inside the user area, and any oracle, keep the invariant. -/
theorem invariant_flash {s : State} (h : Invariant s) {f : Memory} {o : Oracle} (hf : Memory.wf f)
    (hr : ∀ x, x < s.params.flashBase ∨ s.params.userEnd ≤ x → Memory.read f x = Memory.read s.flash x) :
    Invariant { s with flash := f, oracle := o } := by
  have h8 := h.params.2.2.2.2.2.2.2.1
  exact ⟨h.params, h.locked, h.table, h.running, hf,
    Memory.within_of_read (lo := s.params.flashBase) (hi := s.params.flashEnd) hf
      (fun a ha => hr a (by omega)) h.flashIn, h.obsTail, h.intTail⟩

theorem eraseOp_invariant {s : State} (h : Invariant s) (a : Nat) : Invariant (s.eraseOp a).2 := by
  obtain ⟨c, f, o, he, hf, hr⟩ := eraseOp_userArea a h.params h.flashWf h.locked
  rw [he]; exact invariant_flash h hf hr

theorem programOp_invariant {s : State} (h : Invariant s) (d : Nat) (bs : List Byte) :
    Invariant (s.programOp d bs).2 := by
  obtain ⟨c, f, o, he, hf, hr⟩ := programOp_userArea d bs h.flashWf h.locked
  rw [he]; exact invariant_flash h hf hr

/-- Loading at most n bytes keeps a zero tail from n on (R33). -/
theorem loadBuffer_tail {b : Vector Byte 16} {n : Nat} (bs : List Byte) (hb : bs.length ≤ n)
    (h : ∀ i : Fin 16, n ≤ i.val → b[i] = 0) : ∀ i : Fin 16, n ≤ i.val → (loadBuffer b bs)[i] = 0 := by
  intro i hi
  rw [loadBuffer_get, if_neg (by omega)]
  exact h i hi

/-- What R152 and R158 share keeps the invariant. -/
theorem programRecord_invariant {s : State} (h : Invariant s) (flag : Byte) :
    Invariant (programRecord flag s).2 := by
  have hi : Invariant { s with intd := loadBuffer s.intd (serialize s.params s.table flag) } :=
    ⟨h.params, h.locked, h.table, h.running, h.flashWf, h.flashIn, h.obsTail,
      loadBuffer_tail _ (by rw [serialize_length _ _ _ h.params]) h.intTail⟩
  obtain ⟨a, b, c, d, e, f, g, i⟩ := programOp_invariant hi s.params.recordAddr
    (bufferPrefix (loadBuffer s.intd (serialize s.params s.table flag)) s.params.recLen)
  unfold programRecord
  exact ⟨a, b, c, d, e, f, g, i⟩

/-- No register write of the host breaks the invariant (R34, R40, R42). -/
theorem busWrite32_invariant {s : State} (h : Invariant s) (off : Nat) (v : Word) :
    Invariant (busWrite32 off v s) := by
  obtain ⟨a, b, c, d, e, f, g, i⟩ := h
  unfold busWrite32
  split <;> first | exact ⟨a, b, c, d, e, f, g, i⟩ | skip
  · unfold writeCmd; split <;> exact ⟨a, b, c, d, e, f, g, i⟩
  · unfold writeAddr; split <;> exact ⟨a, b, c, d, e, f, g, i⟩
  · unfold writeLen; split <;> exact ⟨a, b, c, d, e, f, g, i⟩
  · unfold writeSeq; split <;> exact ⟨a, b, c, d, e, f, g, i⟩
  · unfold writeDbuf; split <;> exact ⟨a, b, c, d, e, f, g, i⟩

theorem hostRead_invariant {s : State} (h : Invariant s) (off : Nat) : Invariant (hostRead off s) := by
  obtain ⟨a, b, c, d, e, f, g, i⟩ := h
  unfold hostRead
  rw [busRead32_state]
  exact ⟨a, b, c, d, e, f, g, i⟩

end Sys2Proof.Machine
end

