-- ==== Sys2Proof/Laws/PerInstr.lean ====
section
/-! SUPPORT. Laws said once for every command: the fields of its word (R70, R73). -/

namespace Sys2Proof.Laws.Encoding

/-- The word of a command has the command's OP, its immediate and reserved bits 0 (R70, R73). -/
def Statement (i : Instr) : Prop :=
  Word.op (encode i) = i.op ∧ Word.imm8 (encode i) = i.imm8 ∧ Word.rsv (encode i) = 0#16

/-- The fields of a word put together from its three fields. -/
theorem fields (r : BitVec 16) (m o : Byte) :
    Word.op (r ++ m ++ o) = o ∧ Word.imm8 (r ++ m ++ o) = m ∧ Word.rsv (r ++ m ++ o) = r := by
  refine ⟨?_, ?_, ?_⟩
  · apply BitVec.eq_of_getLsbD_eq
    intro i hi
    rw [Word.op, BitVec.getLsbD_extractLsb', BitVec.getLsbD_append]
    simp [hi]
  · apply BitVec.eq_of_getLsbD_eq
    intro i hi
    rw [Word.imm8, BitVec.getLsbD_extractLsb', BitVec.getLsbD_append, BitVec.getLsbD_append]
    simp [hi]
  · apply BitVec.eq_of_getLsbD_eq
    intro i hi
    rw [Word.rsv, BitVec.getLsbD_extractLsb', BitVec.getLsbD_append, BitVec.getLsbD_append,
      if_neg (by omega), if_neg (by omega), show 16 + i - 8 - 8 = i by omega]
    simp [hi]

theorem crcInit : Statement .crcInit := fields _ _ _
theorem crcClear : Statement .crcClear := fields _ _ _
theorem crcFeed (b : Byte) : Statement (.crcFeed b) := fields _ _ _
theorem crcBuf : Statement .crcBuf := fields _ _ _
theorem flRead : Statement .flRead := fields _ _ _
theorem flErase : Statement .flErase := fields _ _ _
theorem flProgram : Statement .flProgram := fields _ _ _
theorem recSer0 : Statement .recSer0 := fields _ _ _
theorem recSer1 : Statement .recSer1 := fields _ _ _
theorem recVerify : Statement .recVerify := fields _ _ _
theorem seqTrigger : Statement .seqTrigger := fields _ _ _

end Sys2Proof.Laws.Encoding
end

