-- ==== Sys2Proof/Laws/Runs.lean ====
section
/-! SUPPORT. The record as it is serialized into a buffer (R130, R134), its programming under the no-fault
oracle (R152, R158), and the step of a run that nothing else interleaves with (R146). -/

namespace Sys2Proof.Machine

open Sys2Proof.Safety

/-- Loading the serialized record puts the record of R130 at the buffer's start. -/
theorem serialize_holdsRecord {p : Params} (h : p.WellFormed) (t) (flag : Byte) (b : Vector Byte 16) : HoldsRecord p t flag (loadBuffer b (serialize p t flag)) := by
  have hr := recLen_le h
  have hlen := serialize_length p t flag h
  have hn : p.deviceName.length = p.nameLen := h.2.2.2.2.2.2.2.2.2.2.2.2.2
  have hrl : p.recLen = p.nameLen + 4 := rfl
  have key : ∀ i, i < p.recLen → (loadBuffer b (serialize p t flag)).toList.getD i 0 = (serialize p t flag).getD i 0 := by
    intro i hi
    have := loadBuffer_get b (serialize p t flag) ⟨i, by omega⟩
    rw [if_pos (by simp only; omega)] at this
    rw [List.getD_eq_getElem?_getD, Vector.getElem?_toList, Vector.getElem?_eq_getElem (by omega)]
    exact this
  have e : serialize p t flag = p.deviceName ++ [p.hwRev, p.fwRev, flag] ++ [crc8 t (p.deviceName ++ [p.hwRev, p.fwRev, flag])] := by
    unfold serialize recordBody
    rw [← hn, List.take_length]
  have hb : (loadBuffer b (serialize p t flag)).toList.take (p.nameLen+3) = p.deviceName ++ [p.hwRev, p.fwRev, flag] := by
    apply List.ext_getElem
    · simp [hn]; omega
    · intro i h1 h2
      simp [hn] at h2
      have := key i (by omega)
      rw [List.getElem_take]
      rw [List.getD_eq_getElem?_getD, List.getD_eq_getElem?_getD, List.getElem?_eq_getElem (by simp; omega), Option.getD_some, e, List.getElem?_append_left (by simp; omega), List.getElem?_eq_getElem (by simp; omega)] at this
      simpa [e] using this
  constructor
  · intro i hi
    rw [key i (by omega), e, List.append_assoc, List.getD_append _ _ _ _ (by omega)]
  · rw [key _ (by omega), e, List.append_assoc, List.getD_append_right _ _ _ _ (by omega)]; simp [hn]
  · rw [key _ (by omega), e, List.append_assoc, List.getD_append_right _ _ _ _ (by omega)]; simp [hn]
  · rw [key _ (by omega), e, List.append_assoc, List.getD_append_right _ _ _ _ (by omega)]; simp [hn]
  · rw [hb, key _ (by omega), e, List.getD_append_right _ _ _ _ (by simp [hn])]; simp [hn]

/-- What was loaded is the buffer's start. -/
theorem bufferPrefix_serialize {p : Params} (h : p.WellFormed) (t) (flag : Byte) (b : Vector Byte 16) :
   bufferPrefix (loadBuffer b (serialize p t flag)) p.recLen = serialize p t flag := by
  have hr := recLen_le h
  rw [← serialize_length p t flag h]
  exact loadBuffer_take _ _ (by rw [serialize_length _ _ _ h]; omega)

/-- Byte i of the buffer that the record was loaded into is the record's byte i (R134). -/
theorem loadBuffer_serialize_getD {p : Params} (h : p.WellFormed) (t : Vector Byte 256) (flag : Byte)
    (b : Vector Byte 16) {i : Nat} (hi : i < p.recLen) :
    (loadBuffer b (serialize p t flag)).toList.getD i 0 = (serialize p t flag).getD i Config.erased := by
  have hr := recLen_le h
  have hlen := serialize_length p t flag h
  generalize serialize p t flag = bs at hlen ⊢
  have hg := loadBuffer_get b bs ⟨i, by omega⟩
  rw [if_pos (by show i < bs.length; omega)] at hg
  rw [List.getD_eq_getElem?_getD (l := Vector.toList _), List.getElem?_eq_getElem (by simp; omega),
    Option.getD_some, Vector.getElem_toList]
  refine hg.trans ?_
  show bs.getD i 0 = bs.getD i Config.erased
  rw [List.getD_eq_getElem?_getD, List.getD_eq_getElem?_getD, List.getElem?_eq_getElem (by omega)]
  rfl

/-- What programming the record can do, whatever the oracle answers (R152, R158): the code is the program's,
and a failure stopped at a unit of the record. -/
theorem programRecord_spec {s : State} (flag : Byte) (h : s.params.WellFormed) (hw : Memory.wf s.flash) :
    ∃ c f o, programRecord flag s = (c, { s with intd := loadBuffer s.intd (serialize s.params s.table flag), flash := f, oracle := o, lock := true, seqErr := c }) ∧
      State.programOp { s with intd := loadBuffer s.intd (serialize s.params s.table flag) } s.params.recordAddr (serialize s.params s.table flag) =
        (c, { s with intd := loadBuffer s.intd (serialize s.params s.table flag), flash := f, oracle := o, lock := true }) ∧
      Memory.wf f ∧
      (∀ a, a < s.params.recordAddr ∨ s.params.recordAddr + 16 ≤ a → Memory.read f a = Memory.read s.flash a) ∧
      (c = .ok → Programmed s f s.params.recordAddr 2
        (fun i => (serialize s.params s.table flag).getD i Config.erased)) ∧
      (c ≠ .ok → ∃ k, k < 2 ∧ StoppedAt s f s.params.recordAddr k c
        (fun i => (serialize s.params s.table flag).getD i Config.erased)) := by
  have hr := recLen_le h
  have hlen := serialize_length s.params s.table flag h
  let s1 : State := { s with intd := loadBuffer s.intd (serialize s.params s.table flag) }
  obtain ⟨c, f, o, he, hf, _, hsame, hok, hno⟩ := programOp_spec (s := s1)
    (bs := serialize s.params s.table flag) (record_programStart h) (by omega) hw
  rw [hlen] at hsame hok hno
  rw [record_unitSpan h] at hsame
  rw [show (s.params.recLen + 7) / 8 = 2 by omega] at hok hno
  refine ⟨c, f, o, ?_, he, hf, fun a ha => hsame a (ha.imp id .inl), fun hc => ?_, fun hc => ?_⟩
  rotate_left
  · obtain ⟨h1, h2, h3, h4⟩ := hok hc
    exact ⟨h1, h2, h3, h4⟩
  · obtain ⟨k, hk, ⟨h1, h2, h3, h4⟩, h5, h6⟩ := hno hc
    exact ⟨k, hk, ⟨h1, h2, h3, h4⟩, h5, h6⟩
  unfold programRecord
  simp only [bufferPrefix_serialize h]
  show (((s1.programOp _ _).1, { (s1.programOp _ _).2 with seqErr := (s1.programOp _ _).1 }) : Code × State) = _
  rw [he]

/-- Under the no-fault oracle, over an erased range, the record is programmed whole (R119, R152, R158). -/
theorem programRecord_quiet {s : State} (flag : Byte) (h : s.params.WellFormed) (hw : Memory.wf s.flash) (hq : s.oracle.Quiet)
   (her : ∀ a, s.params.recordAddr ≤ a → a < s.params.userEnd → Memory.read s.flash a = Config.erased) :
   ∃ f o, programRecord flag s = (.ok, { s with intd := loadBuffer s.intd (serialize s.params s.table flag), flash := f, oracle := o, lock := true, seqErr := .ok }) ∧ Memory.wf f ∧ o.Quiet ∧
     ∀ a, Memory.read f a = if s.params.recordAddr ≤ a ∧ a < s.params.recordAddr + s.params.recLen then (serialize s.params s.table flag).getD (a - s.params.recordAddr) 0 else Memory.read s.flash a := by
  have hr := recLen_le h
  have h12 := h.2.2.2.2.2.2.2.2.2.2.2.1
  have hs := record_unitSpan h
  have hlen := serialize_length s.params s.table flag h
  let s1 : State := { s with intd := loadBuffer s.intd (serialize s.params s.table flag) }
  obtain ⟨f, o, he, hf, ho, hrd⟩ := programOp_quiet (s := s1) (d := s.params.recordAddr) (bs := serialize s.params s.table flag)
     (record_programStart h) (by omega) hw hq (by rw [hlen, hs]; exact h12) (by
       intro a h1 h2; rw [hlen, hs] at h2; exact her a h1 (by omega))
  refine ⟨f, o, ?_, hf, ho, fun a => ?_⟩
  · unfold programRecord
    simp only [bufferPrefix_serialize h]
    show (((s1.programOp _ _).1, { (s1.programOp _ _).2 with seqErr := (s1.programOp _ _).1 }) : Code × State) = _
    rw [he]
  · rw [hrd a, hlen, hs]
    by_cases h1 : s.params.recordAddr ≤ a ∧ a < s.params.recordAddr + s.params.recLen
    · rw [if_pos h1, if_pos (by omega), List.getD_eq_getElem?_getD, List.getD_eq_getElem?_getD, List.getElem?_eq_getElem (by omega)]
      rfl
    · rw [if_neg h1]
      split
      · rename_i h2
        rw [List.getD_eq_getElem?_getD, List.getElem?_eq_none (by omega)]
        show Config.erased = Memory.read s.flash a
        rw [her a (by omega) (by omega)]
      · rfl

/-- Where only the sequencer is enabled, the step is its step (R146). -/
theorem step_sequencer_alone {s : State} (h1 : s.resetPin = false) (h2 : s.busy = false) (h3 : s.run = true) (h4 : s.inputs = []) :
   step s = .next (sequencerStep s.tookTurn) := by
  have he : s.enabled = [.sequencer] := by unfold State.enabled; rw [h2, h3, h4]; rfl
  unfold step State.nextTurn
  rw [h1, he]; rfl

end Sys2Proof.Machine
end

