-- ==== Sys2Proof/Tests/Slice0.lean ====
section
/-! SUPPORT. Tests on small states, with expected values from the spec (95_test_vectors.md: VC, VF, VO, VR,
VS, VE and the programs; R73 for the words; R96 for the table), and a witness for the hypotheses of every
obligation that has some. -/

namespace Sys2Proof.Tests

open Sys2Proof Sys2Proof.Machine Sys2Proof.Safety
set_option Elab.async false

/-! ### Helpers -/

/-- The no-fault oracle. -/
def quiet : Oracle := { eraseAnswers := [], programAnswers := [], byteAnswers := [], noFault := true, drawn := 0 }

/-- The whole table of R96, row by row. -/
def tableRows : List Byte :=
    [0x00, 0x07, 0x0E, 0x09, 0x1C, 0x1B, 0x12, 0x15, 0x38, 0x3F, 0x36, 0x31, 0x24, 0x23, 0x2A, 0x2D] ++
    [0x70, 0x77, 0x7E, 0x79, 0x6C, 0x6B, 0x62, 0x65, 0x48, 0x4F, 0x46, 0x41, 0x54, 0x53, 0x5A, 0x5D] ++
    [0xE0, 0xE7, 0xEE, 0xE9, 0xFC, 0xFB, 0xF2, 0xF5, 0xD8, 0xDF, 0xD6, 0xD1, 0xC4, 0xC3, 0xCA, 0xCD] ++
    [0x90, 0x97, 0x9E, 0x99, 0x8C, 0x8B, 0x82, 0x85, 0xA8, 0xAF, 0xA6, 0xA1, 0xB4, 0xB3, 0xBA, 0xBD] ++
    [0xC7, 0xC0, 0xC9, 0xCE, 0xDB, 0xDC, 0xD5, 0xD2, 0xFF, 0xF8, 0xF1, 0xF6, 0xE3, 0xE4, 0xED, 0xEA] ++
    [0xB7, 0xB0, 0xB9, 0xBE, 0xAB, 0xAC, 0xA5, 0xA2, 0x8F, 0x88, 0x81, 0x86, 0x93, 0x94, 0x9D, 0x9A] ++
    [0x27, 0x20, 0x29, 0x2E, 0x3B, 0x3C, 0x35, 0x32, 0x1F, 0x18, 0x11, 0x16, 0x03, 0x04, 0x0D, 0x0A] ++
    [0x57, 0x50, 0x59, 0x5E, 0x4B, 0x4C, 0x45, 0x42, 0x6F, 0x68, 0x61, 0x66, 0x73, 0x74, 0x7D, 0x7A] ++
    [0x89, 0x8E, 0x87, 0x80, 0x95, 0x92, 0x9B, 0x9C, 0xB1, 0xB6, 0xBF, 0xB8, 0xAD, 0xAA, 0xA3, 0xA4] ++
    [0xF9, 0xFE, 0xF7, 0xF0, 0xE5, 0xE2, 0xEB, 0xEC, 0xC1, 0xC6, 0xCF, 0xC8, 0xDD, 0xDA, 0xD3, 0xD4] ++
    [0x69, 0x6E, 0x67, 0x60, 0x75, 0x72, 0x7B, 0x7C, 0x51, 0x56, 0x5F, 0x58, 0x4D, 0x4A, 0x43, 0x44] ++
    [0x19, 0x1E, 0x17, 0x10, 0x05, 0x02, 0x0B, 0x0C, 0x21, 0x26, 0x2F, 0x28, 0x3D, 0x3A, 0x33, 0x34] ++
    [0x4E, 0x49, 0x40, 0x47, 0x52, 0x55, 0x5C, 0x5B, 0x76, 0x71, 0x78, 0x7F, 0x6A, 0x6D, 0x64, 0x63] ++
    [0x3E, 0x39, 0x30, 0x37, 0x22, 0x25, 0x2C, 0x2B, 0x06, 0x01, 0x08, 0x0F, 0x1A, 0x1D, 0x14, 0x13] ++
    [0xAE, 0xA9, 0xA0, 0xA7, 0xB2, 0xB5, 0xBC, 0xBB, 0x96, 0x91, 0x98, 0x9F, 0x8A, 0x8D, 0x84, 0x83] ++
    [0xDE, 0xD9, 0xD0, 0xD7, 0xC2, 0xC5, 0xCC, 0xCB, 0xE6, 0xE1, 0xE8, 0xEF, 0xFA, 0xFD, 0xF4, 0xF3]

/-- The table of R96 as the register T. -/
def specTable : Vector Byte 256 := ⟨tableRows.toArray, by decide +kernel⟩

/-- State VC4 of the vectors with the no-fault oracle: the table is built. -/
def ready : State := { State.reset with tblValid := true, table := specTable, oracle := quiet }

/-- A buffer from its first bytes. -/
def buf (bs : List Byte) : Vector Byte 16 := Vector.ofFn fun i => bs.getD i.val 0

/-- `ready` with the operands ADDR and LEN. -/
def at_ (a : Word) (n : BitVec 5) : State := { ready with addr := a, len := n }

/-- `ready` with a run in progress at a STATE. -/
def running (st : BitVec 3) : State := { ready with run := true, seqState := st }

/-- The request record of vector 1.1 (95). -/
def request : List Byte := [0x47, 0x58, 0x30, 0x31, 0, 0, 0, 0, 0, 0, 1, 1, 1, 0xA8]

/-- The default record of vector 1.5 (95). -/
def default14 : List Byte := [0x47, 0x58, 0x30, 0x31, 0, 0, 0, 0, 0, 0, 1, 1, 0, 0xAF]

/-- A flash array that holds the request record. -/
def recordFlash : Memory := Memory.writeBytes [] 0x0800F800 request

/-- An instance with 8-byte pages and the 13-byte record (conflict C1). -/
def small : Params where
  blockBase := 0
  flashBase := 0x100
  flashSize := 0x40
  pageSize := 8
  userEnd := 0x130
  recordAddr := 0x120
  nameLen := 9
  deviceName := [0x47, 0x58, 0x30, 0x31, 0, 0, 0, 0, 0]
  hwRev := 1
  fwRev := 1

/-- `ready` over the small instance. -/
def smallReady (a : Word) (n : BitVec 5) : State := { at_ a n with params := small }

/-- The fault of a step that stops. -/
def stuck (r : Result) : Option Fault :=
  match r with
  | .next _ => none
  | .fault f => some f
  | .refused _ => none

/-- What is seen of the next state, if there is one. -/
def got {α : Type} (f : State → α) (r : Result) : Option α :=
  match r with
  | .next t => some (f t)
  | .fault _ => none
  | .refused _ => none

/-! ### Decoding: the words of R73, and the words of R75 and R76 that are no command -/

theorem test_decode_crc_init : decode 0x00000001#32 = .ok .crcInit := by decide
theorem test_decode_crc_clear : decode 0x00000002#32 = .ok .crcClear := by decide
/-- VC1: CRC_FEED 0x31 is 0x0000_3103. -/
theorem test_decode_crc_feed : decode 0x00003103#32 = .ok (.crcFeed 0x31) := by decide
theorem test_decode_crc_buf : decode 0x00000004#32 = .ok .crcBuf := by decide
theorem test_decode_fl_read : decode 0x00000010#32 = .ok .flRead := by decide
theorem test_decode_fl_erase : decode 0x00000011#32 = .ok .flErase := by decide
theorem test_decode_fl_program : decode 0x00000012#32 = .ok .flProgram := by decide
theorem test_decode_rec_ser_0 : decode 0x00000020#32 = .ok .recSer0 := by decide
theorem test_decode_rec_ser_1 : decode 0x00000120#32 = .ok .recSer1 := by decide
theorem test_decode_rec_verify : decode 0x00000021#32 = .ok .recVerify := by decide
theorem test_decode_seq_trigger : decode 0x00000030#32 = .ok .seqTrigger := by decide

/-- VE1, VE2: reserved opcodes (R76). -/
theorem test_decode_reserved_op :
    decode 0x00000000#32 = .error .unknownOp ∧ decode 0x00000005#32 = .error .unknownOp ∧
      decode 0x0000FFFF#32 = .error .unknownOp := by decide
/-- VC10, VE3: an immediate where the command takes none. -/
theorem test_decode_stray_immediate :
    decode 0x00000104#32 = .error .strayImmediate ∧ decode 0x00000111#32 = .error .strayImmediate := by decide
/-- VE4: reserved bits set. -/
theorem test_decode_reserved_bits :
    decode 0x00010030#32 = .error .reservedBits ∧ decode 0x80000003#32 = .error .reservedBits := by decide
/-- VR3: a selector that is neither 0 nor 1. -/
theorem test_decode_bad_selector : decode 0x00000220#32 = .error .badSelector := by decide
theorem test_encode_words :
    encode (.crcFeed 0xF4) = 0x0000F403#32 ∧ encode .recSer1 = 0x00000120#32 ∧
      encode .seqTrigger = 0x00000030#32 := by decide
theorem test_decode_table_word : decodeTableWord 32 0x00000011 = some .flErase ∧
    decodeTableWord 8 0x11 = some .flErase ∧ decodeTableWord 32 5 = none := by decide

/-! ### Well-formedness: each check refuses an ill-formed term -/

theorem test_wf_instances : Config.exampleParams.WellFormed ∧ small.WellFormed := by decide
theorem test_wf_block_base : ¬ { Config.exampleParams with blockBase := 0x40025004 }.WellFormed := by decide
theorem test_wf_flash_base : ¬ { Config.exampleParams with flashBase := 0x08000400 }.WellFormed := by decide
theorem test_wf_flash_size : ¬ { Config.exampleParams with flashSize := 0x10400 }.WellFormed := by decide
theorem test_wf_flash_empty : ¬ { Config.exampleParams with flashSize := 0 }.WellFormed := by decide
/-- A page of 24 bytes is no power of two; every other constraint holds. -/
theorem test_wf_page_power : ¬ { small with
    flashBase := 0, flashSize := 48, pageSize := 24, userEnd := 48, recordAddr := 24 }.WellFormed := by decide
/-- A page of 4 bytes is no multiple of UNIT. -/
theorem test_wf_page_units : ¬ { small with pageSize := 4 }.WellFormed := by decide
theorem test_wf_user_area_empty : ¬ { Config.exampleParams with userEnd := 0x08000000 }.WellFormed := by decide
theorem test_wf_user_end_outside : ¬ { Config.exampleParams with userEnd := 0x08010800 }.WellFormed := by decide
theorem test_wf_user_end_page : ¬ { Config.exampleParams with userEnd := 0x0800FC00 }.WellFormed := by decide
theorem test_wf_record_page : ¬ { Config.exampleParams with recordAddr := 0x0800F808 }.WellFormed := by decide
theorem test_wf_record_below : ¬ { Config.exampleParams with recordAddr := 0x07FFF800 }.WellFormed := by decide
theorem test_wf_record_above : ¬ { small with recordAddr := 0x128 }.WellFormed := by decide
theorem test_wf_name_len : ¬ { small with nameLen := 8, deviceName := [1, 2, 3, 4, 5, 6, 7, 8] }.WellFormed := by
  decide
theorem test_wf_device_name : ¬ { small with deviceName := [1, 2, 3] }.WellFormed := by decide
theorem test_wf_instr : ∀ b : Byte, (Instr.crcFeed b).wellFormed = true := fun _ => rfl
/-- VE11 and R22: narrow, unaligned and outside accesses are refused, admitted ones are not. -/
theorem test_wf_accesses :
    (Input.write 0x40025000 .byte 0).wellFormed Config.exampleParams = false ∧
    (Input.read 0x40025000 .half).wellFormed Config.exampleParams = false ∧
    (Input.write 0x40025002 .word 0).wellFormed Config.exampleParams = false ∧
    (Input.read 0x40024FFC .word).wellFormed Config.exampleParams = false ∧
    (Input.read 0x40025800 .word).wellFormed Config.exampleParams = false ∧
    (Input.read 0x40025000 .word).wellFormed Config.exampleParams = true ∧
    (Input.write 0x400257FC .word 0).wellFormed Config.exampleParams = true := by decide
theorem test_wf_outside_flash :
    (Input.outsideFlash 0x07FFFFFF 0).wellFormed Config.exampleParams = false ∧
    (Input.outsideFlash 0x08010000 0).wellFormed Config.exampleParams = false ∧
    (Input.outsideFlash 0x0800FFFF 0).wellFormed Config.exampleParams = true := by decide

/-! ### The table and the checksum -/

/-- CRC_INIT's table is the table of R96. -/
theorem test_crc_table : crcTable.toList = tableRows := by decide +kernel
theorem test_crc_table_spec : specTable = crcTable :=
  Vector.toList_inj.1 test_crc_table.symm
/-- The vectors of section 2.2 of 95. -/
theorem test_crc8_vectors :
    crc8 specTable [] = 0x00 ∧ crc8 specTable [0x07] = 0x15 ∧ crc8 specTable [0x41] = 0xC0 ∧
    crc8 specTable [0xFF, 0xFF] = 0x24 ∧ crc8 specTable [1, 2, 3, 4] = 0xE3 ∧
    crc8 specTable [0x31, 0x32, 0x33, 0x34, 0x35, 0x36, 0x37, 0x38, 0x39] = 0xF4 ∧
    crc8 specTable (List.replicate 13 0xFF) = 0xA3 ∧ crc8 specTable (List.replicate 12 0xFF) = 0x71 ∧
    crc8 specTable (request.take 13) = 0xA8 ∧ crc8 specTable request = 0x00 := by decide +kernel
/-- Vector 1.1: the four records, for both readings of conflict C1. -/
theorem test_serialize :
    serialize Config.exampleParams specTable 1 = request ∧
    serialize Config.exampleParams specTable 0 = default14 ∧
    serialize small specTable 1 = [0x47, 0x58, 0x30, 0x31, 0, 0, 0, 0, 0, 1, 1, 1, 0x52] ∧
    serialize small specTable 0 = [0x47, 0x58, 0x30, 0x31, 0, 0, 0, 0, 0, 1, 1, 0, 0x55] := by decide +kernel

/-! ### Commands, at most two tests each -/

/-- VC4, VC5: CRC_INIT builds the table; STATUS = 0x0000_0006. -/
theorem test_crc_init : got (fun t => (t.statusWord, t.table[(1 : Fin 256)], t.table[(255 : Fin 256)]))
    (exec .crcInit State.reset) = some (0x00000006, 0x07, 0xF3) := by decide +kernel
/-- VC2: CRC_CLEAR executes without the table. -/
theorem test_crc_clear : got (fun t => (t.statusWord, t.crcAcc))
    (exec .crcClear { State.reset with crcAcc := 0x5A }) = some (0x00000004, 0) := by decide +kernel
/-- VC1: NOT_INIT. -/
theorem test_crc_feed_not_init : got (fun t => (t.statusWord, t.crcAcc))
    (exec (.crcFeed 0x31) State.reset) = some (0x00000A04, 0) := by decide +kernel
/-- VC7: T[0x07 ^ 0x07] = 0; from 0, VC6: 0x07. -/
theorem test_crc_feed :
    got (·.crcAcc) (exec (.crcFeed 0x01) ready) = some 0x07 ∧
    got (·.crcAcc) (exec (.crcFeed 0x07) { ready with crcAcc := 0x07 }) = some 0x00 := by decide +kernel
/-- P1: "123456789" gives 0xF4, whatever CRC_ACC held. -/
theorem test_crc_buf : got (fun t => (t.crcAcc, t.err))
    (exec .crcBuf { ready with
      dbuf := buf [0x31, 0x32, 0x33, 0x34, 0x35, 0x36, 0x37, 0x38, 0x39, 0xEE], len := 9, crcAcc := 0x5A }) =
    some (0xF4, .ok) := by decide +kernel
/-- VC9, VE6: BADLEN leaves CRC_ACC; without the table NOT_INIT comes first. -/
theorem test_crc_buf_bad_len :
    got (fun t => (t.crcAcc, t.err)) (exec .crcBuf { ready with len := 17, crcAcc := 0x5A }) =
      some (0x5A, .badLen) ∧
    got (·.err) (exec .crcBuf { State.reset with len := 17 }) = some .notInit := by decide +kernel
/-- VF18, and bytes beyond LEN unchanged. -/
theorem test_fl_read : got (fun t => (t.dbuf.toList.take 4, t.err)) (exec .flRead (at_ 0x0800F801 3)) =
    some ([0xFF, 0xFF, 0xFF, 0], .ok) := by decide +kernel
/-- VF15, VF16, VF17. -/
theorem test_fl_read_errors :
    got (·.err) (exec .flRead (at_ 0x0800F800 0)) = some .readZero ∧
    got (·.err) (exec .flRead (at_ 0x0800F800 17)) = some .badLen ∧
    got (·.err) (exec .flRead (at_ 0x0800FFFC 8)) = some .readRange := by decide +kernel
/-- VF1, VF6 over the small instance: every page from ADDR to USER_END and no other. -/
theorem test_fl_erase : got (fun t => (t.flash, t.lock, t.err)) (exec .flErase { smallReady 0x120 0 with
    flash := [(0x11F, 1), (0x120, 2), (0x12F, 3), (0x130, 4)] }) =
    some ([(0x11F, 1), (0x130, 4)], true, .ok) := by decide +kernel
/-- VF2 to VF5, and the order of R111. -/
theorem test_fl_erase_errors :
    got (·.err) (exec .flErase (at_ 0x0800F808 0)) = some .align ∧
    got (·.err) (exec .flErase (at_ 0x08010000 0)) = some .eraseRange ∧
    got (·.err) (exec .flErase (at_ 0x07FFF800 0)) = some .eraseRange ∧
    got (·.err) (exec .flErase (at_ 0x08010008 0)) = some .eraseRange := by decide +kernel
/-- VF14: the padding stays erased. -/
theorem test_fl_program : got (fun t => (t.flash, t.lock, t.err))
    (exec .flProgram { at_ 0x0800F800 3 with dbuf := buf [0x11, 0x22, 0x33, 0x44] }) =
    some ([(0x0800F800, 0x11), (0x0800F801, 0x22), (0x0800F802, 0x33)], true, .ok) := by decide +kernel
/-- VF8, VF9, VF10, VF11, VF13. -/
theorem test_fl_program_errors :
    got (·.err) (exec .flProgram (at_ 0x0800F804 8)) = some .align ∧
    got (fun t => (t.err, t.flash.length, Memory.read t.flash 0x0800FFF8))
      (exec .flProgram (at_ 0x0800FFF8 16)) = some (.writeRange, 8, 0) ∧
    got (·.err) (exec .flProgram (at_ 0x08010000 8)) = some .writeRange ∧
    got (·.err) (exec .flProgram (at_ 0x07FFFFF8 8)) = some .writeRange ∧
    got (·.err) (exec .flProgram { at_ 0x0800F800 8 with flash := recordFlash }) = some .writeHw := by
  decide +kernel
/-- VR2. -/
theorem test_rec_ser_0 : got (fun t => (bufferWord t.dbuf 0, bufferWord t.dbuf 3, t.len)) (exec .recSer0 ready) =
    some (0x31305847, 0x0000AF00, 14) := by decide +kernel
/-- VR1; bytes 14 and 15 unchanged. -/
theorem test_rec_ser_1 : got (fun t => (bufferWord t.dbuf 2, bufferWord t.dbuf 3, t.len))
    (exec .recSer1 { ready with dbuf := Vector.replicate 16 0x55 }) =
    some (0x01010000, 0x5555A801, 14) := by decide +kernel
/-- VR4, VR5: VOK follows the outcome. -/
theorem test_rec_verify :
    got (·.statusWord) (exec .recVerify { ready with dbuf := buf request }) = some 0x00000016 ∧
    got (·.statusWord) (exec .recVerify { ready with dbuf := buf (request.set 12 0), vok := true }) =
      some 0x00000906 := by decide +kernel
/-- VR6, VR7: an erased record fails, a zeroed one passes. -/
theorem test_rec_verify_checksum_only :
    got (·.err) (exec .recVerify { ready with dbuf := Vector.replicate 16 0xFF }) = some .checksum ∧
    got (·.err) (exec .recVerify ready) = some .ok := by decide +kernel
/-- VS1, VS2. -/
theorem test_seq_trigger :
    got (·.statusWord) (exec .seqTrigger ready) = some 0x0000000E ∧
    got (fun t => (t.err, t.run)) (exec .seqTrigger State.reset) = some (.notInit, false) := by decide +kernel
/-- VE5, VS8 and vector 1.7: BUSY during a run. -/
theorem test_busy_during_run :
    got (fun t => (t.err, t.run, t.table[(1 : Fin 256)] == 7)) (exec .crcInit (running 1)) = some (.busy, true, true) ∧
    got (·.err) (commandStep { running 1 with pend := 5 }) = some .busy ∧
    got (fun t => (t.err, t.seqState)) (exec .seqTrigger (running 3)) = some (.busy, 3) := by decide +kernel

/-! ### The fault oracle (VO) over the small instance -/

/-- VO2: the loop stops at the first faulted page; later pages are untouched. -/
theorem test_erase_fault : got (fun t => (t.flash, t.lock, t.err)) (exec .flErase { smallReady 0x118 0 with
    flash := [(0x118, 7), (0x120, 2), (0x12F, 3)],
    oracle := { quiet with eraseAnswers := [.none, .fault], byteAnswers := [0xFF, 9] ++ List.replicate 6 0xFF } }) =
    some ([(0x121, 9), (0x12F, 3)], true, .eraseHw) := by decide +kernel
/-- VO3: a reported fault in unit 0; unit 1 is untouched. -/
theorem test_program_hw_fault : got (fun t => (t.flash, t.lock, t.err)) (exec .flProgram { at_ 0x0800F800 14 with
    dbuf := buf request,
    oracle := { quiet with programAnswers := [.hwFault], byteAnswers := 9 :: List.replicate 7 0xFF } }) =
    some ([(0x0800F800, 9)], true, .writeHw) := by decide +kernel
/-- VO4, VO5: a silent fault is caught exactly when the bytes differ; the unit before it is kept. -/
theorem test_program_silent_fault :
    got (fun t => (t.flash, t.err)) (exec .flProgram { at_ 0x0800F800 14 with
      dbuf := buf request,
      oracle := { quiet with programAnswers := [.none, .silent], byteAnswers := 1 :: List.replicate 7 0xFF } }) =
      some (Memory.writeBytes [] 0x0800F800 (request.take 8 ++ [1]), .writeVerify) ∧
    got (fun t => (t.flash, t.err)) (exec .flProgram { at_ 0x0800F800 1 with
      oracle := { quiet with programAnswers := [.silent], byteAnswers := 0 :: List.replicate 7 0xFF } }) =
      some ([(0x0800F800, 0)], .ok) := by decide +kernel

/-! ### Sequencer steps (P3, P5, VS) -/

/-- P3, step 1. -/
theorem test_seq_read : (fun t : State => (bufferWord t.obs 3, t.seqWord, t.run))
    (sequencerStep { running 0 with flash := Memory.writeBytes [] 0x0800F800 default14 }) =
    (0x0000AF00, 0x001, true) := by decide +kernel
/-- P3, step 2. -/
theorem test_seq_erase : (fun t : State => (t.flash, t.seqWord, t.events, t.lock))
    (sequencerStep { running 1 with flash := recordFlash }) = ([], 0x002, [.eraseOk], true) := by decide +kernel
/-- VS4: a faulted erase stays and emits nothing. -/
theorem test_seq_erase_fault : (fun t : State => (t.seqWord, t.events, t.run))
    (sequencerStep { running 1 with
      params := small, oracle := { quiet with eraseAnswers := [.fault] } }) =
    (0x401, [], true) := by decide +kernel
/-- P3, step 3. -/
theorem test_seq_write : (fun t : State => (t.flash, bufferWord t.intd 3, t.seqWord))
    (sequencerStep (running 2)) = (recordFlash, 0x0000A801, 0x003) := by decide +kernel
/-- P3, step 4; VS6 with byte 0 corrupted in bit 7. -/
theorem test_seq_check :
    (fun t : State => (bufferWord t.obs 3, t.seqWord, t.events))
      (sequencerStep { running 3 with flash := recordFlash }) = (0x0000A801, 0x004, []) ∧
    (fun t : State => (t.seqWord, t.events))
      (sequencerStep { running 3 with flash := recordFlash.write 0x0800F800 0xC7 }) = (0x903, [.crcFail]) := by
  decide +kernel
/-- P3, step 5. -/
theorem test_seq_end : (fun t : State => (t.statusWord, t.seqWord, t.events)) (sequencerStep (running 4)) =
    (0x00000026, 0x000, [.success]) := by decide +kernel
/-- P5: an invalid state erases and writes the default record, and stays. -/
theorem test_seq_invalid : (fun t : State => (bufferWord t.intd 3, t.seqWord, t.events))
      (sequencerStep { running 5 with flash := recordFlash }) = (0x0000AF00, 0x005, []) ∧
    (fun t : State => (t.flash, t.run)) (sequencerStep { running 7 with flash := recordFlash }) =
      (Memory.writeBytes [] 0x0800F800 default14, true) := by
  decide +kernel

/-! ### The host's window -/

/-- VR10, for both readings of conflict C1. -/
theorem test_info : (busRead32 0x018 ready).1 = 0x00080E01 ∧
    (busRead32 0x018 (smallReady 0 0)).1 = 0x00080D01 := by decide +kernel
/-- VS9, VS10, VE8: dropped writes set OVR; an accepted CMD write clears it. -/
theorem test_ovr :
    (busWrite32 0x014 2 (running 1)).ovr = true ∧ (busWrite32 0x014 2 (running 1)).seqState = 1 ∧
    (busWrite32 0x014 0 { ready with rstReq := true }).ovr = true ∧
    (busWrite32 0x008 5 { ready with busy := true }).addr = 0 ∧
    (busWrite32 0x000 2 { ready with ovr := true }).ovr = false := by decide +kernel
/-- P1: the words of DBUF0 and DBUF2. -/
theorem test_dbuf_words :
    (busWrite32 0x020 0x34333231 ready).dbuf = buf [0x31, 0x32, 0x33, 0x34] ∧
    (busRead32 0x028 { ready with dbuf := buf [0, 0, 0, 0, 0, 0, 0, 0, 0x39] }).1 = 0x39 := by decide +kernel
/-- VE9, VE10, and section 2.1: TBL255 at 0x7FC. -/
theorem test_window :
    (busWrite32 0x004 0xFFFFFFFF ready).statusWord = 0x00000006 ∧ (busRead32 0x000 { ready with pend := 7 }).1 = 0 ∧
    (busRead32 0x7FC ready).1 = 0xF3 ∧ (busRead32 0x600 ready).1 = 0x89 := by decide +kernel
/-- VC3: a TBL read before CRC_INIT takes the listed draw, zero-extended. -/
theorem test_tbl_free : (busRead32 0x404 { State.reset with oracle := { quiet with byteAnswers := [0xAB] } }).1 =
    0x000000AB := by decide +kernel
/-- VE11: the host is stuck. -/
theorem test_stuck_accesses :
    stuck (step { ready with inputs := [.write 0x40025000 .byte 1] }) = some .narrowAccess ∧
    stuck (step { ready with inputs := [.read 0x40025002 .word] }) = some .unalignedAccess ∧
    stuck (step { ready with inputs := [.read 0x40025800 .word] }) = some .outsideWindow := by decide +kernel
/-- R77, and the encodings of P1. -/
theorem test_program_notation : expandProgram Config.exampleParams
      [.cmd (.crcFeed 0x31), .poll, .wr (.dbuf 0) 0x34333231, .wr .len 9, .rd .crcAcc, .waitRun] =
    [.write 0x40025000 .word 0x00003103, .poll, .write 0x40025020 .word 0x34333231,
     .write 0x4002500C .word 9, .read 0x40025010 .word, .waitRun] ∧
    expandProgram Config.exampleParams [.loadBuf (buf [0x31, 0x32, 0x33, 0x34])] =
    [.write 0x40025020 .word 0x34333231, .write 0x40025024 .word 0, .write 0x40025028 .word 0,
     .write 0x4002502C .word 0] := by decide +kernel

/-! ### Steps -/

/-- The first step after `withFetchWord` runs that command (VS2: NOT_INIT from reset). -/
theorem test_with_fetch_word :
    got (fun t => (t.err, t.busy)) (step (State.reset.withFetchWord 32 0x00000030)) = some (.notInit, false) ∧
    got (·.tblValid) (step (State.reset.withFetchWord 32 0x00000001)) = some true := by decide +kernel
/-- R192: the idle block stays as it is. -/
theorem test_idle : step State.reset = .next State.reset := rfl
/-- VE7: both orders of an ADDR write and the pending command are admitted. -/
theorem test_admitted_orders :
    got (fun t => (t.addr, t.ovr)) (step { ready with
      busy := true, pend := 2, inputs := [.write 0x40025008 .word 5], sched := [.host] }) = some (0, true) ∧
    got (fun t => (t.busy, t.inputs.length)) (step { ready with
      busy := true, pend := 2, inputs := [.write 0x40025008 .word 5], sched := [.command] }) =
      some (false, 1) := by decide +kernel
/-- POLL reads STATUS until BUSY is 0 (R77). -/
theorem test_poll :
    got (fun t => (t.readLog, t.inputs)) (step { ready with
      busy := true, inputs := [.poll], sched := [.host] }) = some ([0x00000007], [.poll]) ∧
    got (fun t => (t.readLog, t.inputs)) (step { ready with inputs := [.poll] }) =
      some ([0x00000006], []) := by decide +kernel
/-- R190: the reset wins over a pending command; flash is kept, the run is gone. -/
theorem test_reset : got (fun t => (t.statusWord, t.seqWord, t.events, t.flash == recordFlash))
    (step { running 5 with flash := recordFlash, busy := true, pend := 1, events := [.success], resetPin := true }) =
    some (0x00000004, 0, [], true) := by decide +kernel

/-! ### Witnesses: for every obligation with hypotheses, a state and operands that meet them, one witness
for each clause, at the ends of its ranges -/

theorem ready_tableReady : TableReady ready := ⟨rfl, test_crc_table_spec⟩

theorem witness_IllegalWordsAreExactlyThese :
    (∃ r, decode { ready with pend := 0x00010030 }.pend = .error r) ∧
    (∃ r, decode { running 1 with pend := 0x00000220 }.pend = .error r) :=
  ⟨⟨.reservedBits, by decide⟩, ⟨.badSelector, by decide⟩⟩

theorem witness_StepRunsTheDecodedCommand_alone :
    let s : State := { ready with busy := true, pend := 0x0000FF03 }
    s.resetPin = false ∧ s.busy = true ∧ (s.run = false ∧ s.inputs = []) ∧
      decode s.pend = .ok (.crcFeed 0xFF) := by decide

theorem witness_StepRunsTheDecodedCommand_scheduled :
    let s : State := { running 1 with busy := true, pend := 0x30, sched := [.command], inputs := [.poll] }
    s.resetPin = false ∧ s.busy = true ∧ s.sched.head? = some .command ∧ decode s.pend = .ok .seqTrigger := by
  decide

theorem witness_EnabledStepsAndNoOthers :
    State.reset.resetPin = false ∧ State.reset.enabled = [] ∧
    (running 1).resetPin = false ∧ (running 1).enabled = [.sequencer] := by decide

theorem witness_CommandAndSequencerStepCommute :
    let s : State := { running 4 with busy := true }
    s.run = true ∧ s.resetPin = false ∧ s.busy = true := by decide

theorem witness_CommandsRejectedWhileRunning :
    (running 0).run = true ∧ { ready with rstReq := true }.rstReq = true := by decide

theorem witness_NotInitThenBadLen :
    (Ready State.reset ∧ State.reset.tblValid = false) ∧
    (Ready (at_ 0 17) ∧ 16 < (at_ 0 17).len.toNat ∧ (at_ 0 17).tblValid = true) ∧
    (Ready (at_ 0 31) ∧ 16 < (at_ 0 31).len.toNat) := by decide

theorem witness_CrcInitBuildsTheTable : Ready State.reset ∧ Ready ready ∧ TableReady ready :=
  ⟨by decide, by decide, ready_tableReady⟩

theorem witness_CrcClearZeroes : Ready State.reset := by decide

theorem witness_CrcFeedFoldsOneByte : Ready ready ∧ ready.tblValid = true := by decide

theorem witness_CrcBufFoldsTheBuffer :
    (Ready (at_ 0 0) ∧ (at_ 0 0).tblValid = true ∧ (at_ 0 0).len.toNat ≤ 16) ∧
    (Ready (at_ 0 16) ∧ (at_ 0 16).tblValid = true ∧ (at_ 0 16).len.toNat ≤ 16) := by decide

theorem witness_ClearThenFeedsLeaveChecksum : Ready ready ∧ ready.tblValid = true := by decide

theorem witness_ChecksumLaws : (0 : Fin 256).val = 0 := rfl

/-- The first and the last byte of a list; the first and the checksum byte of a record that verifies. -/
theorem witness_OneByteChangeIsDetected :
    (0 < [1, 2].length ∧ (9 : Byte) ≠ [1, 2].getD 0 0) ∧ (1 < [1, 2].length ∧ (9 : Byte) ≠ [1, 2].getD 1 0) ∧
    (request.length = Config.exampleParams.recLen ∧ verify Config.exampleParams crcTable request = true ∧
      0 < Config.exampleParams.recLen ∧ (0xC7 : Byte) ≠ request.getD 0 0) ∧
    (13 < Config.exampleParams.recLen ∧ (0 : Byte) ≠ request.getD 13 0) := by decide +kernel

/-- One byte at the array's first address; 16 bytes ending at its last. -/
theorem witness_FlReadCopiesTheSpan :
    (∀ s ∈ [at_ 0x08000000 1, at_ 0x0800FFF0 16], Ready s ∧ 0 < s.len.toNat ∧ s.len.toNat ≤ 16 ∧
      s.params.flashBase ≤ s.addr.toNat ∧
      s.addr.toNat + s.len.toNat ≤ s.params.flashBase + s.params.flashSize) := by decide

theorem witness_FlReadRejects :
    (Ready (at_ 0 0) ∧ (at_ 0 0).len.toNat = 0) ∧
    (∀ s ∈ [at_ 0x07FFFFFF 1, at_ 0x0800FFF1 16], Ready s ∧ 0 < s.len.toNat ∧ s.len.toNat ≤ 16 ∧
      (s.addr.toNat < s.params.flashBase ∨
        s.params.flashBase + s.params.flashSize < s.addr.toNat + s.len.toNat)) := by decide

theorem witness_FlEraseRejects :
    (∀ s ∈ [at_ 0x07FFFFFF 0, at_ 0x08010000 0], Ready s ∧
      (s.addr.toNat < s.params.flashBase ∨ s.params.userEnd ≤ s.addr.toNat)) ∧
    (∀ s ∈ [at_ 0x08000001 0, at_ 0x0800FFFF 0], Ready s ∧ s.params.flashBase ≤ s.addr.toNat ∧
      s.addr.toNat < s.params.userEnd ∧ (s.addr.toNat - s.params.flashBase) % s.params.pageSize ≠ 0) := by decide

/-- The first page of the array and the last of the user area. -/
theorem witness_FlEraseErasesToUserEnd :
    (∀ s ∈ [at_ 0x08000000 0, at_ 0x0800F800 0], Ready s ∧ s.params.WellFormed ∧ Memory.wf s.flash ∧
      s.oracle.Quiet ∧ EraseStart s.params s.addr.toNat) := by decide

theorem witness_FlErasePartialOutcomes :
    let s : State := { smallReady 0x100 0 with
      flash := [(0x11F, 1), (0x12F, 3)], oracle := { quiet with eraseAnswers := [.fault] } }
    Ready s ∧ s.params.WellFormed ∧ Memory.wf s.flash ∧ EraseStart s.params s.addr.toNat := by decide

/-- The first and the last page of a range that starts inside the array, and an oracle of each that answers a
fault there. -/
theorem witness_EveryEraseFaultIsAdmitted :
    ∀ k ∈ [0, 1],
      let s : State := { smallReady 0x120 0 with
        oracle := { quiet with eraseAnswers := List.replicate k .none ++ .fault :: [.fault] } }
      Ready s ∧ s.params.WellFormed ∧ Memory.wf s.flash ∧ EraseStart s.params s.addr.toNat ∧
      s.addr.toNat + (k + 1) * s.params.pageSize ≤ s.params.userEnd ∧
      s.oracle.eraseAnswers = List.replicate k .none ++ .fault :: [.fault] := by decide

theorem witness_FlProgramRejects :
    (Ready (at_ 0x07FFFFFF 16) ∧ (at_ 0x07FFFFFF 16).len.toNat ≤ 16 ∧
      (at_ 0x07FFFFFF 16).addr.toNat < Config.exampleParams.flashBase) ∧
    (Ready (at_ 0x08000001 0) ∧ (at_ 0x08000001 0).len.toNat ≤ 16 ∧
      Config.exampleParams.flashBase ≤ (at_ 0x08000001 0).addr.toNat ∧ (at_ 0x08000001 0).addr.toNat % 8 ≠ 0) ∧
    (Ready (at_ 0x08000000 0) ∧ (at_ 0x08000000 0).len.toNat ≤ 16 ∧
      ProgramStart (at_ 0x08000000 0).params (at_ 0x08000000 0).addr.toNat ∧
      (at_ 0x08000000 0).len.toNat = 0) := by decide

/-- One byte at the array's first address; 16 bytes ending at USER_END. -/
theorem witness_FlProgramWritesTheBuffer :
    (∀ s ∈ [at_ 0x08000000 1, at_ 0x0800FFF0 16], (Ready s ∧ Memory.wf s.flash ∧ s.oracle.Quiet ∧
      ProgramStart s.params s.addr.toNat ∧ 0 < s.len.toNat ∧ s.len.toNat ≤ 16 ∧
      s.addr.toNat + unitSpan s.len.toNat ≤ s.params.userEnd) ∧ s.flash = []) ∧
    (∀ a, Memory.read [] a = 0xFF#8) := ⟨by decide, fun _ => rfl⟩

/-- The first unit not erased in its last byte, at USER_END - 8; the second one so, at USER_END - 8, behind an
erased one, under the no-fault oracle and under one that is not. -/
theorem witness_FlProgramOverNonErasedFails :
    (let s : State := { at_ 0x0800FFF8 1 with flash := [(0x0800FFFF, 0)] }
     Ready s ∧ ProgramStart s.params s.addr.toNat ∧ 0 < s.len.toNat ∧ s.len.toNat ≤ 16 ∧
      s.addr.toNat + 8 ≤ s.params.userEnd ∧
      (7 < 8 ∧ Memory.read s.flash (s.addr.toNat + 7) ≠ 0xFF#8)) ∧
    (∀ n ∈ [9, 16], let s : State := { at_ 0x0800FFF0 n with flash := [(0x0800FFFF, 0)] }
     Ready s ∧ Memory.wf s.flash ∧ ProgramStart s.params s.addr.toNat ∧ 0 < s.len.toNat ∧ s.len.toNat ≤ 16 ∧
      1 < (s.len.toNat + 7) / 8 ∧ s.addr.toNat + 8 * (1 + 1) ≤ s.params.userEnd ∧
      (∀ i, i < 8 * 1 → Memory.read s.flash (s.addr.toNat + i) = 0xFF#8) ∧
      (7 < 8 ∧ Memory.read s.flash (s.addr.toNat + (8 * 1 + 7)) ≠ 0xFF#8) ∧ s.oracle.Quiet ∧
      { s.oracle with programAnswers := [.none], noFault := false }.programAnswers =
        List.replicate 1 .none ++ []) := by decide

theorem witness_FlProgramStopsAtUserEnd :
    (Ready (at_ 0x08010000 1) ∧ ProgramStart Config.exampleParams (at_ 0x08010000 1).addr.toNat ∧
      0 < (at_ 0x08010000 1).len.toNat ∧ (at_ 0x08010000 1).len.toNat ≤ 16 ∧
      Config.exampleParams.userEnd < (at_ 0x08010000 1).addr.toNat + 8) ∧
    (Ready (at_ 0x0800FFF8 9) ∧ ProgramStart Config.exampleParams (at_ 0x0800FFF8 9).addr.toNat ∧
      8 < (at_ 0x0800FFF8 9).len.toNat ∧ (at_ 0x0800FFF8 9).len.toNat ≤ 16 ∧
      (at_ 0x0800FFF8 9).addr.toNat + 8 = Config.exampleParams.userEnd ∧ Memory.wf (at_ 0x0800FFF8 9).flash ∧
      (at_ 0x0800FFF8 9).oracle.Quiet ∧
      (∀ j, j < 8 → Memory.read (at_ 0x0800FFF8 9).flash ((at_ 0x0800FFF8 9).addr.toNat + j) = 0xFF#8)) := by
  decide

/-- Two faults listed, the end of the area after the first unit, a second unit that is not erased, a program
that answers OK, and the two rejected destinations. -/
theorem witness_FlProgramOkMeansFlashHoldsTheData :
    (∀ s ∈ [{ at_ 0x0800F800 16 with oracle := { quiet with programAnswers := [.silent, .hwFault] } },
        at_ 0x0800FFF8 16, { at_ 0x0800F800 9 with flash := [(0x0800F80F, 0)] }, at_ 0x0800F800 16,
        at_ 0x07FFFFFF 16, at_ 0x08000001 16], Ready s ∧ Memory.wf s.flash ∧ s.len.toNat ≤ 16) ∧
    got (·.err) (exec .flProgram (at_ 0x0800FFF8 16)) = some .writeRange ∧
    got (fun t => (t.err, t.flash)) (exec .flProgram { at_ 0x0800F800 9 with flash := [(0x0800F80F, 0)] }) =
      some (.writeHw, Memory.writeBytes [(0x0800F80F, 0)] 0x0800F800 (List.replicate 8 0)) ∧
    got (·.err) (exec .flProgram (at_ 0x0800F800 16)) = some .ok ∧
    ProgramStart Config.exampleParams 0x0800FFF8 ∧
    ¬ ProgramStart Config.exampleParams (at_ 0x07FFFFFF 16).addr.toNat ∧
    ¬ ProgramStart Config.exampleParams (at_ 0x08000001 16).addr.toNat := by decide +kernel

/-- The shortest and the longest program that has a first unit, at USER_END - 8, and that has a second one, at
USER_END - 16; drawn bytes that are the padded unit of each, and drawn bytes that are not. -/
theorem witness_EveryProgramFaultIsAdmitted :
    (∀ c ∈ [(at_ 0x0800FFF8 1, 0), (at_ 0x0800FFF8 8, 0), (at_ 0x0800FFF0 9, 0), (at_ 0x0800FFF0 9, 1),
        (at_ 0x0800FFF0 16, 1)],
      Ready c.1 ∧ Memory.wf c.1.flash ∧ ProgramStart c.1.params c.1.addr.toNat ∧ c.1.len.toNat ≤ 16 ∧
      c.2 < (c.1.len.toNat + 7) / 8 ∧ c.1.addr.toNat + 8 * (c.2 + 1) ≤ c.1.params.userEnd ∧
      (∀ j, j < 8 * (c.2 + 1) → Memory.read c.1.flash (c.1.addr.toNat + j) = 0xFF#8) ∧
      (∀ j, j < 8 → (fun i : Nat => paddedByte c.1.dbuf c.1.len.toNat c.2 i) j =
        paddedByte c.1.dbuf c.1.len.toNat c.2 j) ∧
      (7 < 8 ∧ (fun _ : Nat => (0x5A : Byte)) 7 ≠ paddedByte c.1.dbuf c.1.len.toNat c.2 7)) ∧
    (at_ 0x0800FFF8 8).len.toNat ≤ 8 * (0 + 1) ∧ (at_ 0x0800FFF0 16).len.toNat ≤ 8 * (1 + 1) := by decide

/-- The empty list, and 16 bytes ending at USER_END. -/
theorem witness_EraseProgramReadRoundTrip :
    ready.params.WellFormed ∧ Memory.wf { ready with flash := recordFlash }.flash ∧ ready.oracle.Quiet ∧
    EraseStart ready.params 0x0800F800 ∧
    (∀ p ∈ [(0x0800F800, ([] : List Byte)), (0x0800FFF0, List.replicate 16 0x5A)],
      0x0800F800 ≤ p.1 ∧ p.1 % 8 = 0 ∧ p.2.length ≤ 16 ∧ p.1 + unitSpan p.2.length ≤ ready.params.userEnd) := by
  decide

theorem witness_RecSerStagesTheRecord :
    (∀ s ∈ [ready, smallReady 0 0], Ready s ∧ s.tblValid = true ∧ s.params.WellFormed) := by decide

theorem witness_RecVerifyChecksOnlyTheChecksum :
    let s : State := { ready with dbuf := buf request }
    let f : State := { ready with dbuf := Vector.replicate 16 0xFF }
    (Ready s ∧ s.tblValid = true ∧ s.params.WellFormed ∧
      crc8 s.table (s.dbuf.toList.take (s.params.nameLen + 3)) = s.dbuf.toList.getD (s.params.nameLen + 3) 0) ∧
    (Ready f ∧ f.tblValid = true ∧ f.params.WellFormed ∧
      crc8 f.table (f.dbuf.toList.take (f.params.nameLen + 3)) ≠ f.dbuf.toList.getD (f.params.nameLen + 3) 0) := by
  decide +kernel

theorem witness_SerializedRecordVerifies : Config.exampleParams.WellFormed ∧ small.WellFormed := by decide

theorem witness_SeqTriggerStartsARun :
    let s : State := { ready with seqState := 7 }
    Ready s ∧ s.tblValid = true := by decide

theorem witness_ReadStepMovesToErase : (running 0).params.WellFormed ∧ (running 0).seqState = 0#3 := by decide

/-- The Erase step over the small instance, whose range is two pages, under an oracle that is not the
no-fault one and has these answers. -/
def erasing (e : List EraseDraw) : State :=
  { running 1 with params := small, oracle := { quiet with eraseAnswers := e, noFault := false } }

theorem witness_EraseStepMovesToWriteOrStays :
    (∀ s ∈ [running 1, { running 1 with flash := recordFlash, oracle := { quiet with eraseAnswers := [.fault] } },
        erasing [.none, .none], erasing [.none, .fault]],
      s.params.WellFormed ∧ Memory.wf s.flash ∧ s.seqState = 1#3) ∧
    (running 1).oracle.Quiet ∧
    ((erasing [.none, .none]).eraseOp small.recordAddr).1 = .ok ∧
    ((erasing [.none, .fault]).eraseOp small.recordAddr).1 ≠ .ok ∧
    ((erasing [.none, .none]).oracle.eraseAnswers = List.replicate 2 .none ++ [] ∧
      small.userEnd ≤ small.recordAddr + 2 * small.pageSize) ∧
    ((erasing [.none, .fault]).oracle.eraseAnswers = List.replicate 1 .none ++ .fault :: [] ∧
      small.recordAddr + (1 + 1) * small.pageSize ≤ small.userEnd) := by decide +kernel

/-- An erased region under the no-fault oracle and under one that is not, a region that is not erased, and a
fault on the second unit. -/
theorem witness_WriteStepProgramsTheRequestRecord :
    (∀ s ∈ [running 2, { running 2 with oracle := { quiet with programAnswers := [.none, .none], noFault := false } },
        { running 2 with flash := recordFlash },
        { running 2 with oracle := { quiet with programAnswers := [.none, .hwFault] } }],
      s.params.WellFormed ∧ Memory.wf s.flash ∧ s.seqState = 2#3) ∧
    (running 2).oracle.Quiet ∧ (running 2).flash = [] ∧ (∀ a, Memory.read [] a = 0xFF#8) ∧
    (sequencerStep (running 2)).seqErr = .ok ∧
    (sequencerStep { running 2 with flash := recordFlash }).seqErr ≠ .ok ∧
    (sequencerStep { running 2 with oracle := { quiet with programAnswers := [.none, .hwFault] } }).seqErr ≠ .ok :=
  ⟨by decide, by decide, rfl, fun _ => rfl, by decide +kernel⟩

/-- The flash of the first state holds a record that verifies, that of the second does not. -/
theorem witness_CheckStepComparesTheChecksum :
    let s : State := { running 3 with flash := recordFlash }
    (s.params.WellFormed ∧ s.seqState = 3#3 ∧
      crc8 s.table ((recordBytes s).take (s.params.nameLen + 3)) = (recordBytes s).getD (s.params.nameLen + 3) 0) ∧
    ((running 3).params.WellFormed ∧ (running 3).seqState = 3#3 ∧
      crc8 (running 3).table ((recordBytes (running 3)).take ((running 3).params.nameLen + 3)) ≠
        (recordBytes (running 3)).getD ((running 3).params.nameLen + 3) 0) := by decide +kernel

theorem witness_EndStepRequestsRestart : (running 4).seqState = 4#3 := by decide

/-- A run in state 5 over the small instance, whose area from RECORD_ADDR to USER_END is two pages, with these
answers for its pages and for the record's two units. -/
def recovering (e : List EraseDraw) (p : List ProgramDraw) : State :=
  { running 5 with params := small, oracle := { quiet with eraseAnswers := e, programAnswers := p } }

theorem witness_InvalidStateRunsDefaultRecovery :
    (∀ s ∈ [running 5, { running 7 with flash := recordFlash }],
      s.params.WellFormed ∧ Memory.wf s.flash ∧ 5 ≤ s.seqState.toNat ∧ s.oracle.Quiet) ∧
    (∀ s ∈ [recovering [.fault] [], recovering [.none, .fault] [], recovering [] [.hwFault],
        recovering [] [.none, .silent]],
      s.params.WellFormed ∧ Memory.wf s.flash ∧ 5 ≤ s.seqState.toNat) ∧
    (recovering [.fault] []).oracle.eraseAnswers.head? = some .fault ∧
    ((recovering [.none, .fault] []).eraseOp small.recordAddr).1 ≠ .ok ∧
    ((recovering [] [.hwFault]).eraseOp small.recordAddr).1 = .ok ∧
    (sequencerStep (recovering [] [.hwFault])).seqErr ≠ .ok ∧
    (sequencerStep (recovering [] [])).seqErr = .ok := by decide +kernel

theorem witness_SequencerTouchesOnlyItsOwn :
    (∀ s ∈ [running 1, running 2, running 5], s.params.WellFormed ∧ Memory.wf s.flash ∧
      0x0800F7FF < s.params.recordAddr ∧ s.params.userEnd ≤ 0x08010000) := by decide

theorem witness_WriteRetryNeverLeavesWrite :
    let s : State := { running 2 with flash := [(0x0800F807, 0)] }
    s.params.WellFormed ∧ s.seqState = 2#3 ∧ 0 < 1 ∧
      (7 < 8 ∧ Memory.read s.flash (s.params.recordAddr + 7) ≠ 0xFF#8) := by decide

theorem witness_CheckRetryFailsForever :
    (running 3).params.WellFormed ∧ (running 3).seqState = 3#3 ∧ 0 < 1 ∧
      verify (running 3).params (running 3).table (recordBytes (running 3)) = false := by decide +kernel

/-- The record of the flash array with bit 7 of byte 0, and with bit 0 of the checksum, flipped. -/
theorem witness_SingleBitCorruptionStopsAtCheck :
    TableReady (running 3) ∧
    (∀ c ∈ [(0, 7, (0xC7 : Byte)), (13, 0, 0xA9)],
      let s : State := { running 3 with flash := recordFlash.write (0x0800F800 + c.1) c.2.2 }
      s.params.WellFormed ∧ s.seqState = 3#3 ∧ c.1 < s.params.recLen ∧ c.2.1 < 8 ∧
      verify s.params s.table
        ((recordBytes s).set c.1 ((recordBytes s).getD c.1 0 ^^^ (1#8 <<< c.2.1))) = true) :=
  ⟨ready_tableReady, by decide +kernel⟩

/-- A no-fault run at Read over a page that holds a record. -/
def atRead : State := { running 0 with flash := recordFlash }

theorem witness_NoFaultRunReachesEndInFiveSteps :
    (atRead.params.WellFormed ∧ Memory.wf atRead.flash ∧ atRead.oracle.Quiet ∧ atRead.seqState = 0#3 ∧
      atRead.run = true ∧ atRead.rstReq = false ∧ atRead.busy = false ∧ atRead.inputs = [] ∧
      atRead.resetPin = false) ∧ TableReady atRead := ⟨by decide, ready_tableReady⟩

/-- The state after a step; the state itself where there is none. -/
def nextOf (s : State) : State :=
  match step s with
  | .next t => t
  | .fault _ => s
  | .refused _ => s

/-- The run of the machine from `atRead`. -/
def theRun (n : Nat) : State := nextOf^[n] atRead

/-- Where nothing is enabled the machine idles. -/
theorem nextOf_idle {s : State} (h1 : s.resetPin = false) (h2 : s.enabled = []) :
    step s = .next s ∧ nextOf s = s := by
  have h : step s = .next s := by
    unfold step State.nextTurn
    rw [h1, h2]
    rfl
  exact ⟨h, by unfold nextOf; rw [h]⟩

/-- After five steps the run is over and the machine idles. -/
theorem theRun_ended : (theRun 5).resetPin = false ∧ (theRun 5).enabled = [] := by decide +kernel

theorem theRun_after (k : Nat) : theRun (k + 5) = theRun 5 := by
  induction k with
  | zero => rfl
  | succ k ih =>
    show nextOf^[k + 1 + 5] atRead = _
    rw [show k + 1 + 5 = (k + 5) + 1 by omega, Function.iterate_succ_apply']
    show nextOf (theRun (k + 5)) = _
    rw [ih]
    exact (nextOf_idle theRun_ended.1 theRun_ended.2).2

/-- A step that answers a next state answers `nextOf`. -/
theorem step_nextOf {s : State} (h : (got (fun _ => ()) (step s)).isSome = true) : step s = .next (nextOf s) := by
  unfold nextOf
  cases hs : step s with
  | next t => rfl
  | fault f => rw [hs] at h; cases h
  | refused r => rw [hs] at h; cases h

theorem theRun_starts : ∀ n, n < 5 → (got (fun _ => ()) (step (theRun n))).isSome = true := by decide +kernel

theorem theRun_isRun : IsRun theRun := by
  intro n
  show step (theRun n) = .next (nextOf^[n + 1] atRead)
  rw [Function.iterate_succ_apply']
  by_cases h : n < 5
  · exact step_nextOf (theRun_starts n h)
  · have hk : theRun n = theRun 5 := by
      have := theRun_after (n - 5)
      rwa [show n - 5 + 5 = n by omega] at this
    have hi := nextOf_idle theRun_ended.1 theRun_ended.2
    show step (theRun n) = .next (nextOf (theRun n))
    rw [hk, hi.2]
    exact hi.1

theorem theRun_fair : WeaklyFair theRun := by
  intro t _ n h
  have := h (n + 5) (by omega)
  rw [theRun_after, theRun_ended.2] at this
  cases this

theorem witness_FairNoFaultHandoffCompletes :
    IsRun theRun ∧ WeaklyFair theRun ∧ (theRun 0).params.WellFormed ∧ Memory.wf (theRun 0).flash ∧
      TableReady (theRun 0) ∧ (theRun 0).oracle.Quiet ∧ (theRun 0).run = true ∧ (theRun 0).rstReq = false ∧
      (theRun 0).seqState = 0#3 ∧ LeftAlone (theRun 0) :=
  ⟨theRun_isRun, theRun_fair, by decide, by decide, ready_tableReady, by decide, rfl, rfl, rfl, rfl,
    fun _ hx => by cases hx⟩

theorem witness_ResetTakesPrecedence :
    { running 5 with busy := true, resetPin := true }.resetPin = true := by decide

theorem witness_ResetMeetsInvariant :
    (Config.exampleParams.WellFormed ∧ Memory.wf [] ∧
      Memory.within [] Config.exampleParams.flashBase Config.exampleParams.flashEnd) ∧
    (small.WellFormed ∧ Memory.wf [(0x100, 1), (0x13F, 2)] ∧
      Memory.within [(0x100, 1), (0x13F, 2)] small.flashBase small.flashEnd) := by decide

/-- A run in progress meets the invariant, and so does the block after reset. -/
theorem running_inv (st : BitVec 3) : Invariant (running st) where
  params := by show Config.exampleParams.WellFormed; decide
  locked := rfl
  table := fun _ => test_crc_table_spec
  running := fun _ => ⟨rfl, rfl⟩
  flashWf := by show Memory.wf []; decide
  flashIn := by show Memory.within [] _ _; intro c hc; cases hc
  obsTail := fun i _ => by show (Vector.replicate 16 (0 : Byte))[i] = 0; simp
  intTail := fun i _ => by show (Vector.replicate 16 (0 : Byte))[i] = 0; simp

theorem witness_StepKeepsInvariant : ∃ t, Invariant (running 4) ∧ step (running 4) = .next t :=
  ⟨_, running_inv 4, rfl⟩

theorem witness_OnlyResetClears :
    (∃ t, step (running 4) = .next t) ∧ (running 4).resetPin = false ∧ (running 4).tblValid = true ∧
    (∃ t, step { ready with rstReq := true } = .next t) ∧ { ready with rstReq := true }.rstReq = true :=
  ⟨⟨_, rfl⟩, rfl, rfl, ⟨_, rfl⟩, rfl⟩

/-- The End step sets RST_REQ and clears RUN; SEQ_TRIGGER sets RUN. -/
theorem witness_RunAndRestartChangeOnlyAsNamed :
    (∃ t, step (running 4) = .next t ∧ (running 4).resetPin = false ∧ (running 4).rstReq = false ∧
      t.rstReq = true ∧ (running 4).run = true ∧ t.run = false) ∧
    (∃ t, step (ready.withFetchWord 32 0x30) = .next t ∧ (ready.withFetchWord 32 0x30).resetPin = false ∧
      (ready.withFetchWord 32 0x30).run = false ∧ t.run = true) :=
  ⟨⟨_, rfl, rfl, rfl, rfl, rfl, rfl⟩, ⟨_, rfl, rfl, rfl, rfl⟩⟩

/-- A sequencer step, alone and while the host waits with an outside change of flash. -/
theorem witness_OnlyTheUserAreaIsMutated :
    let w : State := { running 2 with inputs := [.outsideFlash 0x08010000 0], sched := [.sequencer] }
    (∃ t, Invariant (running 2) ∧ step (running 2) = .next t) ∧ (running 2).nextTurn ≠ some .host ∧
    (∃ t, Invariant w ∧ step w = .next t) ∧ w.nextTurn ≠ some .host ∧
    (0x07FFFFFF < (running 2).params.flashBase ∧ (running 2).params.userEnd ≤ 0x08010000) :=
  ⟨⟨_, running_inv 2, rfl⟩, by decide, ⟨_, { running_inv 2 with }, rfl⟩, by decide, by decide⟩

theorem witness_CmdAndSeqWrites :
    (ready.busy = false ∧ ready.run = false ∧ ready.rstReq = false) ∧ { ready with busy := true }.busy = true ∧
    (running 0).run = true ∧ { ready with rstReq := true }.rstReq = true := by decide

theorem witness_OperandWrites :
    0 < 4 ∧ 3 < 4 ∧ ready.busy = false ∧ { ready with busy := true }.busy = true := by decide

/-- The offsets next to the writable ones, and the last of the window. -/
theorem witness_ReadOnlyAndUnmappedWritesIgnored :
    ∀ off ∈ [0x004, 0x010, 0x018, 0x01C, 0x01F, 0x030, 0x040, 0x05C, 0x060, 0x400, 0x7FC],
      off ≠ 0x000 ∧ off ≠ 0x008 ∧ off ≠ 0x00C ∧ off ≠ 0x014 ∧ ¬ (0x020 ≤ off ∧ off < 0x030) := by decide

theorem witness_StatusSeqAndInfoWords : ready.params.WellFormed ∧ (smallReady 0 0).params.WellFormed := by decide

theorem witness_BufferWordsAreLittleEndian : 0 < 4 ∧ 3 < 4 := by decide

theorem witness_TableWindow : ready.tblValid = true ∧ State.reset.tblValid = false := by decide

/-- The offsets at both ends of every gap of the map. -/
theorem witness_ReadsHaveNoSideEffect :
    (ready.tblValid = true ∨ 0x7FC < 0x400) ∧ (State.reset.tblValid = true ∨ 0x3FC < 0x400) ∧
    (∀ off ∈ [0x01C, 0x01F, 0x030, 0x03C, 0x03F, 0x060, 0x3FC, 0x3FF, 0x800],
      off ∉ [0x000, 0x004, 0x008, 0x00C, 0x010, 0x014, 0x018] ∧ ¬ (0x020 ≤ off ∧ off < 0x030) ∧
      ¬ (0x040 ≤ off ∧ off < 0x060) ∧ ¬ (0x400 ≤ off ∧ off < 0x800)) := by decide

theorem witness_HostAccessesByWidthAndAddress :
    (0x7FC < 0x800 ∧ 0x7FC % 4 = 0) ∧ Width.byte ≠ Width.word ∧ Width.half ≠ Width.word ∧
    (∀ a ∈ [0x40025001, 0x400257FF], ready.params.blockBase ≤ a ∧ a < ready.params.blockBase + 0x800 ∧
      (a - ready.params.blockBase) % 4 ≠ 0) ∧
    (∀ a ∈ [0x40024FFF, 0x40025800], a < ready.params.blockBase ∨ ready.params.blockBase + 0x800 ≤ a) := by
  decide

theorem witness_HostWritesDoNotDisturbARun : (running 2).run = true := by decide

end Sys2Proof.Tests
end

section
/-! SUPPORT. Proofs about the schedule (00_scope.md R15; R74, R146, R192): what one step does by whose turn it
is, and that a step is an enabled agent's. -/

namespace Sys2Proof.Machine

/-- With no turn to give, the machine stays as it is (R192; the model's choice, log entry 16). -/
theorem step_of_nextTurn_none {s : State} (hp : s.resetPin = false) (ht : s.nextTurn = none) :
    step s = .next s := by
  simp [step, hp, ht]

/-- Outside a reset, the agent whose turn it is takes the step. -/
theorem step_of_nextTurn_some {s : State} {t : Turn} (hp : s.resetPin = false) (ht : s.nextTurn = some t) :
    step s = turnStep t s.tookTurn := by
  simp [step, hp, ht]

/-- Settles O5, by whose turn it is: `nextTurn` gives a turn to an enabled agent only, and gives none only where
none is enabled. -/
theorem enabledStepsAndNoOthers : Obligations.EnabledStepsAndNoOthers := by
  unfold Obligations.EnabledStepsAndNoOthers
  refine fun s => ⟨command_enabled s, sequencer_enabled s, fun hp => ?_⟩
  cases ht : s.nextTurn with
  | none => exact .inl ⟨nextTurn_none ht, step_of_nextTurn_none hp ht⟩
  | some t => exact .inr ⟨t, nextTurn_enabled ht, step_of_nextTurn_some hp ht⟩

end Sys2Proof.Machine
end

section
/-! SUPPORT. What one step can do (R15, R74, R146, R177, R190), said once: the step by whose turn it is, and, for
each agent, the next states it can give. -/

namespace Sys2Proof.Machine

/-! ### The step by whose turn it is -/

/-- A step that answers a next state is the reset, the idle step, or the step of the agent whose turn it is. -/
theorem step_next {s t : State} (h : step s = .next t) :
    s.resetPin = true ∧ t = resetEvent s ∨
    s.resetPin = false ∧ (s.nextTurn = none ∧ t = s ∨
      ∃ u, s.nextTurn = some u ∧ turnStep u s.tookTurn = .next t) := by
  cases hp : s.resetPin with
  | true =>
    simp only [step, hp, if_true, Host.Outcome.next.injEq] at h
    exact .inl ⟨rfl, h.symm⟩
  | false =>
    refine .inr ⟨rfl, ?_⟩
    cases ht : s.nextTurn with
    | none =>
      rw [step_of_nextTurn_none hp ht, Host.Outcome.next.injEq] at h
      exact .inl ⟨rfl, h.symm⟩
    | some u => exact .inr ⟨u, rfl, step_of_nextTurn_some hp ht ▸ h⟩

/-! ### The command step -/

/-- A command step runs the pending command's own rule where its checks pass, and else changes only ERR and BUSY
(R74, R75). -/
theorem commandStep_next {s t : State} (h : commandStep s = .next t) :
    (∃ i, decode s.pend = .ok i ∧ s.check i = .ok ∧ t = (performOf i s).2.finish (performOf i s).1) ∨
    ∃ c, t = s.finish c := by
  unfold commandStep at h
  cases hd : decode s.pend with
  | error e =>
    rw [hd] at h
    exact .inr ⟨_, (Host.Outcome.next.inj h).symm⟩
  | ok i =>
    rw [hd] at h
    by_cases hc : s.check i = .ok
    · exact .inl ⟨i, rfl, hc, (Host.Outcome.next.inj ((exec_of_check_ok hc).symm.trans h)).symm⟩
    · exact .inr ⟨_, (Host.Outcome.next.inj ((exec_of_check_fails rfl hc).symm.trans h)).symm⟩

/-- No command changes the parameters, RST_REQ or EVENTS, or clears TBL_VALID; only SEQ_TRIGGER changes RUN
(R24, R37, R147). -/
theorem performOf_frame (i : Instr) (s : State) :
    (performOf i s).2.params = s.params ∧ (performOf i s).2.rstReq = s.rstReq ∧
    (performOf i s).2.events = s.events ∧ (s.tblValid = true → (performOf i s).2.tblValid = true) ∧
    (i ≠ .seqTrigger → (performOf i s).2.run = s.run) := by
  cases i with
  | flErase =>
    obtain ⟨c, f, o, l, he, -⟩ := eraseOp_frame s s.addrOperand
    simp [performOf, performFlErase, he]
  | flProgram =>
    obtain ⟨c, f, o, l, hp, -⟩ := programOp_frame s s.addrOperand s.dbufOperand
    simp [performOf, performFlProgram, hp]
  | _ =>
    simp [performOf, performCrcInit, performCrcClear, performCrcFeed, performCrcBuf, performFlRead, performRecSer,
      performRecVerify, performSeqTrigger]

/-! ### The sequencer step -/

/-- `t` is `s` but for flash, LOCK, OBS, INT, SEQ and the model's oracle, and EVENTS has at most grown: what a
sequencer step other than End does (R149). -/
def SequencerFrame (s t : State) : Prop :=
  ∃ f o l b i c q ev, t = { s with flash := f, oracle := o, lock := l, obs := b, intd := i, seqErr := c, seqState := q,
                                   events := s.events ++ ev }

theorem seqRead_frame (s : State) : SequencerFrame s (seqRead s) := by
  unfold seqRead
  dsimp only
  split
  · exact ⟨_, _, _, _, _, _, _, [], by rw [List.append_nil]⟩
  · exact ⟨_, _, _, _, _, _, _, [], by rw [List.append_nil]⟩

theorem seqErase_frame (s : State) : SequencerFrame s (seqErase s) := by
  obtain ⟨c, f, o, l, he, -⟩ := eraseOp_frame s s.params.recordAddr
  unfold seqErase
  simp only [he]
  split
  · exact ⟨_, _, _, _, _, _, _, [.eraseOk], rfl⟩
  · exact ⟨_, _, _, _, _, _, _, [], by rw [List.append_nil]⟩

theorem programRecord_frame (flag : Byte) (s : State) :
    ∃ f o l i c, (programRecord flag s).2 = { s with flash := f, oracle := o, lock := l, intd := i, seqErr := c } := by
  obtain ⟨c, f, o, l, hp, -⟩ := programOp_frame
    { s with intd := loadBuffer s.intd (serialize s.params s.table flag) } s.params.recordAddr
    (bufferPrefix (loadBuffer s.intd (serialize s.params s.table flag)) s.params.recLen)
  unfold programRecord
  simp only [hp]
  exact ⟨_, _, _, _, _, rfl⟩

theorem seqWrite_frame (s : State) : SequencerFrame s (seqWrite s) := by
  obtain ⟨f, o, l, i, c, hp⟩ := programRecord_frame 1 s
  unfold seqWrite
  simp only [hp]
  split
  · exact ⟨_, _, _, _, _, _, _, [], by rw [List.append_nil]⟩
  · exact ⟨_, _, _, _, _, _, _, [], by rw [List.append_nil]⟩

theorem seqCheck_frame (s : State) : SequencerFrame s (seqCheck s) := by
  unfold seqCheck
  dsimp only
  split
  · exact ⟨_, _, _, _, _, _, _, [], by rw [List.append_nil]⟩
  · exact ⟨_, _, _, _, _, _, _, [.crcFail], rfl⟩

theorem defaultRecovery_frame (s : State) : SequencerFrame s (defaultRecovery s) := by
  obtain ⟨c, f, o, l, he, -⟩ := eraseOp_frame s s.params.recordAddr
  unfold defaultRecovery
  simp only [he]
  split
  · obtain ⟨f', o', l', i, c', hp⟩ := programRecord_frame 0 { s with flash := f, oracle := o, lock := l }
    rw [hp]
    exact ⟨_, _, _, _, _, _, _, [], by rw [List.append_nil]⟩
  · exact ⟨_, _, _, _, _, _, _, [], by rw [List.append_nil]⟩

/-- A sequencer step is the End step, or stays in the sequencer's own frame (R145, R149). -/
theorem sequencerStep_cases (s : State) :
    s.seqState = 4#3 ∧ sequencerStep s = seqEnd s ∨ SequencerFrame s (sequencerStep s) := by
  unfold sequencerStep
  repeat' split
  · exact .inr (seqRead_frame s)
  · exact .inr (seqErase_frame s)
  · exact .inr (seqWrite_frame s)
  · exact .inr (seqCheck_frame s)
  · exact .inl ⟨by assumption, rfl⟩
  · exact .inr (defaultRecovery_frame s)

/-! ### The step of the host and the environment -/

/-- A register write changes at most ADDR, LEN, DBUF, PEND, BUSY, OVR and SEQ.STATE, and not SEQ.STATE during a run
(R34, R40, R42). -/
theorem busWrite32_frame (off : Nat) (v : Word) (s : State) :
    ∃ a l d p b o q, busWrite32 off v s =
        { s with addr := a, len := l, dbuf := d, pend := p, busy := b, ovr := o, seqState := q } ∧
      (s.run = true → q = s.seqState) := by
  unfold busWrite32
  split
  · unfold writeCmd; split <;> exact ⟨_, _, _, _, _, _, _, rfl, fun _ => rfl⟩
  · unfold writeAddr; split <;> exact ⟨_, _, _, _, _, _, _, rfl, fun _ => rfl⟩
  · unfold writeLen; split <;> exact ⟨_, _, _, _, _, _, _, rfl, fun _ => rfl⟩
  · unfold writeSeq
    split
    · exact ⟨_, _, _, _, _, _, _, rfl, fun _ => rfl⟩
    · rename_i h
      exact ⟨_, _, _, _, _, _, _, rfl, fun hr => absurd (.inr (.inl hr)) h⟩
  · unfold writeDbuf; split <;> exact ⟨_, _, _, _, _, _, _, rfl, fun _ => rfl⟩
  all_goals exact ⟨_, _, _, _, _, _, _, rfl, fun _ => rfl⟩

/-- A host read changes only the host's log and the model's oracle (R39, R61). -/
theorem hostRead_frame (off : Nat) (s : State) :
    ∃ log o, hostRead off s = { s with readLog := log, oracle := o } :=
  ⟨_, _, by unfold hostRead; rw [busRead32_state]⟩

/-- What the host or the environment can do in one step: nothing to the block (idle or reading), one register
write, the assertion of the reset input, or a change of one byte of the array (R22, R39, R51, R77, R190). -/
theorem inputStep_next {s t : State} (h : inputStep s = .next t) :
    (∃ ins log o, t = { s with inputs := ins, readLog := log, oracle := o }) ∨
    (∃ off v ins, t = busWrite32 off v { s with inputs := ins }) ∨
    (∃ ins, t = { s with inputs := ins, resetPin := true }) ∨
    ∃ a b ins, s.params.flashBase ≤ a ∧ a < s.params.flashEnd ∧
      t = { s with inputs := ins, flash := s.flash.write a b } := by
  have hpoll : ∀ done rest, ∃ ins log o,
      pollStep done rest s = { s with inputs := ins, readLog := log, oracle := o } := fun done rest => by
    obtain ⟨log, o, hr⟩ := hostRead_frame (regOffset .status) s
    exact ⟨_, log, o, by rw [pollStep, hr]⟩
  unfold inputStep at h
  split at h
  · -- idle
    exact .inl ⟨_, _, _, (Host.Outcome.next.inj h).symm⟩
  · -- a write
    split at h
    · exact .inr (.inl ⟨_, _, _, (Host.Outcome.next.inj h).symm⟩)
    · cases h
  · -- a read
    split at h
    · rename_i off _
      obtain ⟨log, o, hr⟩ := hostRead_frame off { s with inputs := _ }
      exact .inl ⟨_, log, o, (Host.Outcome.next.inj h).symm.trans hr⟩
    · cases h
  · -- POLL
    exact .inl (Host.Outcome.next.inj h ▸ hpoll _ _)
  · -- WAITRUN
    exact .inl (Host.Outcome.next.inj h ▸ hpoll _ _)
  · -- the reset input
    exact .inr (.inr (.inl ⟨_, (Host.Outcome.next.inj h).symm⟩))
  · -- an outside change of flash
    split at h
    · rename_i hr
      exact .inr (.inr (.inr ⟨_, _, _, hr.1, hr.2, (Host.Outcome.next.inj h).symm⟩))
    · cases h

end Sys2Proof.Machine
end

section
/-! SUPPORT. The invariant (10_state.md R25, R31, R33, R43; 20_memory.md R51): the reset meets it, and every step
keeps it. -/

namespace Sys2Proof.Machine

open Sys2Proof.Safety

/-! ### The reset -/

/-- Settles O47: the buffers are all zero, nothing runs, no table is valid, and LOCK is 1 (R43). -/
theorem resetMeetsInvariant : Obligations.ResetMeetsInvariant := by
  unfold Obligations.ResetMeetsInvariant
  exact fun p f hp hw hin => {
    params := hp
    locked := rfl
    table := fun h => by cases h
    running := fun h => by cases h
    flashWf := hw
    flashIn := hin
    obsTail := fun i _ => by simp [State.resetOf]
    intTail := fun i _ => by simp [State.resetOf] }

theorem resetEvent_invariant {s : State} (h : Invariant s) : Invariant (resetEvent s) :=
  { resetMeetsInvariant s.params s.flash h.params h.flashWf h.flashIn with }

/-! ### The command step -/

/-- A command's own rule keeps the invariant where its checks passed: SEQ_TRIGGER starts a run only with a valid
table and no restart request (R147, R172). -/
theorem performOf_invariant {s : State} {i : Instr} (h : Invariant s) (hc : s.check i = .ok) :
    Invariant (performOf i s).2 := by
  obtain ⟨⟨-, hrst⟩, htbl, -⟩ := check_ok_iff.1 hc
  cases i with
  | crcInit => exact { h with table := fun _ => rfl, running := fun hr => ⟨rfl, (h.running hr).2⟩ }
  | flErase => exact eraseOp_invariant h _
  | flProgram => exact programOp_invariant h _ _
  | seqTrigger => exact { h with running := fun _ => ⟨htbl rfl, hrst⟩ }
  | _ =>
    dsimp only [performOf, performCrcClear, performCrcFeed, performCrcBuf, performFlRead, performRecSer,
      performRecVerify]
    exact invariant_congr h rfl rfl rfl rfl rfl rfl rfl rfl rfl

theorem finish_invariant {s : State} (h : Invariant s) (c : Code) : Invariant (s.finish c) := { h with }

theorem commandStep_invariant {s t : State} (h : Invariant s) (hs : commandStep s = .next t) : Invariant t := by
  rcases commandStep_next hs with ⟨i, -, hc, rfl⟩ | ⟨c, rfl⟩
  · exact finish_invariant (performOf_invariant h hc) _
  · exact finish_invariant h c

/-! ### The sequencer step -/

/-- What the sequencer reads into OBS keeps its tail 0 (R33, R150, R154). -/
theorem loadRecord_invariant {s : State} (h : Invariant s) :
    Invariant { s with obs := loadBuffer s.obs (s.readOp s.params.recordAddr s.params.recLen).2 } :=
  ⟨h.params, h.locked, h.table, h.running, h.flashWf, h.flashIn,
    loadBuffer_tail _ (by simp [record_readOp h.params]) h.obsTail, h.intTail⟩

theorem seqRead_invariant {s : State} (h : Invariant s) : Invariant (seqRead s) := by
  unfold seqRead
  dsimp only
  split
  · exact { loadRecord_invariant h with }
  · exact { h with }

theorem emit_invariant {s : State} (h : Invariant s) (e : Event) : Invariant (s.emit e) := { h with }

theorem seqErase_invariant {s : State} (h : Invariant s) : Invariant (seqErase s) := by
  have he := eraseOp_invariant h s.params.recordAddr
  unfold seqErase
  dsimp only
  split
  · exact { emit_invariant { he with } .eraseOk with }
  · exact { he with }

theorem seqWrite_invariant {s : State} (h : Invariant s) : Invariant (seqWrite s) := by
  have hp := programRecord_invariant h 1
  unfold seqWrite
  dsimp only
  split
  · exact { hp with }
  · exact hp

theorem seqCheck_invariant {s : State} (h : Invariant s) : Invariant (seqCheck s) := by
  have hl := loadRecord_invariant h
  unfold seqCheck
  dsimp only
  split
  · exact { hl with }
  · exact { emit_invariant hl .crcFail with }

theorem seqEnd_invariant {s : State} (h : Invariant s) : Invariant (seqEnd s) :=
  { h with running := fun hr => by cases hr }

theorem defaultRecovery_invariant {s : State} (h : Invariant s) : Invariant (defaultRecovery s) := by
  have he := eraseOp_invariant h s.params.recordAddr
  unfold defaultRecovery
  dsimp only
  split
  · exact programRecord_invariant he 0
  · exact { he with }

theorem sequencerStep_invariant {s : State} (h : Invariant s) : Invariant (sequencerStep s) := by
  unfold sequencerStep
  repeat' split
  · exact seqRead_invariant h
  · exact seqErase_invariant h
  · exact seqWrite_invariant h
  · exact seqCheck_invariant h
  · exact seqEnd_invariant h
  · exact defaultRecovery_invariant h

/-! ### The step of the host and the environment -/

/-- An outside change of a byte of the array keeps the canonical form and the range (R51). -/
theorem outsideFlash_invariant {s : State} (h : Invariant s) {a : Nat} (b : Byte) (hlo : s.params.flashBase ≤ a)
    (hhi : a < s.params.flashEnd) : Invariant { s with flash := s.flash.write a b } :=
  { h with flashWf := Memory.write_wf a b h.flashWf, flashIn := Memory.write_within b h.flashIn hlo hhi }

theorem inputStep_invariant {s t : State} (h : Invariant s) (hs : inputStep s = .next t) : Invariant t := by
  rcases inputStep_next hs with ⟨ins, log, o, rfl⟩ | ⟨off, v, ins, rfl⟩ | ⟨ins, rfl⟩ | ⟨a, b, ins, hlo, hhi, rfl⟩
  · exact { h with }
  · exact busWrite32_invariant (s := { s with inputs := ins }) { h with } off v
  · exact { h with }
  · exact { outsideFlash_invariant h b hlo hhi with }

/-! ### Every step -/

theorem tookTurn_invariant {s : State} (h : Invariant s) : Invariant s.tookTurn := { h with }

theorem turnStep_invariant {s t : State} {u : Turn} (h : Invariant s) (hs : turnStep u s = .next t) :
    Invariant t := by
  cases u with
  | command => exact commandStep_invariant h hs
  | sequencer => exact Host.Outcome.next.inj hs ▸ sequencerStep_invariant h
  | host => exact inputStep_invariant h hs

/-- Settles O48, by the kind of step: the reset, the idle step, and one lemma per agent. -/
theorem stepKeepsInvariant : Obligations.StepKeepsInvariant := by
  unfold Obligations.StepKeepsInvariant
  intro s t h hs
  rcases step_next hs with ⟨-, rfl⟩ | ⟨-, ⟨-, rfl⟩ | ⟨u, -, hu⟩⟩
  · exact resetEvent_invariant h
  · exact h
  · exact turnStep_invariant (tookTurn_invariant h) hu

end Sys2Proof.Machine
end

section
/-! SUPPORT. What a step can clear and what it can start (R24, R37, R147, R156): the parameters, TBL_VALID, RST_REQ,
EVENTS and RUN, read off what each agent's step can do. -/

namespace Sys2Proof.Machine

/-! ### Nothing but a reset clears TBL_VALID, RST_REQ or EVENTS -/

/-- From `s` to `t` the parameters stay, TBL_VALID and RST_REQ are not cleared, and EVENTS is not shortened. -/
structure NothingCleared (s t : State) : Prop where
  params : t.params = s.params
  tblValid : s.tblValid = true → t.tblValid = true
  rstReq : s.rstReq = true → t.rstReq = true
  events : s.events <+: t.events

theorem commandStep_nothingCleared {s t : State} (h : commandStep s = .next t) : NothingCleared s t := by
  rcases commandStep_next h with ⟨i, -, -, rfl⟩ | ⟨c, rfl⟩
  · obtain ⟨hpar, hrst, hev, htbl, -⟩ := performOf_frame i s
    exact ⟨hpar, htbl, hrst.trans, by simp [hev]⟩
  · exact ⟨rfl, id, id, List.prefix_rfl⟩

theorem sequencerStep_nothingCleared (s : State) : NothingCleared s (sequencerStep s) := by
  rcases sequencerStep_cases s with ⟨-, he⟩ | ⟨f, o, l, b, i, c, q, ev, he⟩
  · rw [he]
    exact ⟨rfl, id, fun _ => rfl, List.prefix_append ..⟩
  · rw [he]
    exact ⟨rfl, id, id, List.prefix_append ..⟩

theorem inputStep_nothingCleared {s t : State} (h : inputStep s = .next t) : NothingCleared s t := by
  rcases inputStep_next h with ⟨ins, log, o, rfl⟩ | ⟨off, v, ins, rfl⟩ | ⟨ins, rfl⟩ | ⟨a, b, ins, -, -, rfl⟩
  · exact ⟨rfl, id, id, List.prefix_rfl⟩
  · obtain ⟨a, l, d, p, b, o, q, hw, -⟩ := busWrite32_frame off v { s with inputs := ins }
    rw [hw]
    exact ⟨rfl, id, id, List.prefix_rfl⟩
  · exact ⟨rfl, id, id, List.prefix_rfl⟩
  · exact ⟨rfl, id, id, List.prefix_rfl⟩

theorem turnStep_nothingCleared {s t : State} {u : Turn} (h : turnStep u s = .next t) : NothingCleared s t := by
  cases u with
  | command => exact commandStep_nothingCleared h
  | sequencer => exact Host.Outcome.next.inj h ▸ sequencerStep_nothingCleared s
  | host => exact inputStep_nothingCleared h

/-- Settles O49: the reset keeps the parameters (R190), and no agent's step clears anything. -/
theorem onlyResetClears : Obligations.OnlyResetClears := by
  unfold Obligations.OnlyResetClears
  intro s t h
  rcases step_next h with ⟨hp, rfl⟩ | ⟨-, ⟨-, rfl⟩ | ⟨u, -, hu⟩⟩
  · exact ⟨rfl, fun hnp => by simp [hp] at hnp⟩
  · exact ⟨rfl, fun _ => ⟨id, id, List.prefix_rfl⟩⟩
  · obtain ⟨hpar, htbl, hrst, hev⟩ := turnStep_nothingCleared hu
    exact ⟨hpar, fun _ => ⟨htbl, hrst, hev⟩⟩

/-! ### What changes RUN and RST_REQ -/

/-- A command step leaves RST_REQ and RUN, or is a SEQ_TRIGGER that its checks let through (R147). -/
theorem commandStep_run {s t : State} (h : commandStep s = .next t) :
    t.rstReq = s.rstReq ∧ (t.run = s.run ∨
      decode s.pend = .ok .seqTrigger ∧ s.tblValid = true ∧ s.run = false ∧ s.rstReq = false) := by
  rcases commandStep_next h with ⟨i, hd, hc, rfl⟩ | ⟨c, rfl⟩
  · obtain ⟨-, hrst, -, -, hrun⟩ := performOf_frame i s
    refine ⟨hrst, ?_⟩
    by_cases hi : i = .seqTrigger
    · subst hi
      obtain ⟨⟨hr, hq⟩, htbl, -⟩ := check_ok_iff.1 hc
      exact .inr ⟨hd, htbl rfl, hr, hq⟩
    · exact .inl (hrun hi)
  · exact ⟨rfl, .inl rfl⟩

/-- A sequencer step outside End leaves RST_REQ and RUN (R156). -/
theorem sequencerStep_run (s : State) :
    s.seqState = 4#3 ∨ (sequencerStep s).rstReq = s.rstReq ∧ (sequencerStep s).run = s.run := by
  rcases sequencerStep_cases s with ⟨hq, -⟩ | ⟨f, o, l, b, i, c, q, ev, he⟩
  · exact .inl hq
  · exact .inr (by rw [he]; exact ⟨rfl, rfl⟩)

/-- The host and the environment change neither RST_REQ nor RUN (R23, R42). -/
theorem inputStep_run {s t : State} (h : inputStep s = .next t) : t.rstReq = s.rstReq ∧ t.run = s.run := by
  rcases inputStep_next h with ⟨ins, log, o, rfl⟩ | ⟨off, v, ins, rfl⟩ | ⟨ins, rfl⟩ | ⟨a, b, ins, -, -, rfl⟩
  · exact ⟨rfl, rfl⟩
  · obtain ⟨a, l, d, p, b, o, q, hw, -⟩ := busWrite32_frame off v { s with inputs := ins }
    rw [hw]
    exact ⟨rfl, rfl⟩
  · exact ⟨rfl, rfl⟩
  · exact ⟨rfl, rfl⟩

/-- Outside a reset, a step leaves RST_REQ and RUN, or is an End step of a run, or is a SEQ_TRIGGER that its checks
let through. -/
theorem step_run {s t : State} (h : step s = .next t) (hp : s.resetPin = false) :
    t.rstReq = s.rstReq ∧ t.run = s.run ∨
    s.nextTurn = some .sequencer ∧ s.seqState = 4#3 ∧ s.run = true ∨
    s.nextTurn = some .command ∧ decode s.pend = .ok .seqTrigger ∧ s.tblValid = true ∧ s.run = false ∧
      t.rstReq = s.rstReq ∧ s.rstReq = false := by
  rcases step_next h with ⟨hp', -⟩ | ⟨-, ⟨-, rfl⟩ | ⟨u, ht, hu⟩⟩
  · simp [hp] at hp'
  · exact .inl ⟨rfl, rfl⟩
  · cases u with
    | command =>
      obtain ⟨hrst, hrun | ⟨hd, htbl, hr, hq⟩⟩ := commandStep_run hu
      · exact .inl ⟨hrst, hrun⟩
      · exact .inr (.inr ⟨ht, hd, htbl, hr, hrst, hq⟩)
    | sequencer =>
      rcases sequencerStep_run s.tookTurn with hq | hsame
      · exact .inr (.inl ⟨ht, hq, (sequencer_enabled s).1 (nextTurn_enabled ht)⟩)
      · exact .inl (Host.Outcome.next.inj hu ▸ hsame)
    | host => exact .inl (inputStep_run (s := s.tookTurn) hu)

/-- Settles O50: the three kinds of step of `step_run`, each against the three transitions. -/
theorem runAndRestartChangeOnlyAsNamed : Obligations.RunAndRestartChangeOnlyAsNamed := by
  unfold Obligations.RunAndRestartChangeOnlyAsNamed
  intro s t h hp
  rcases step_run h hp with ⟨hrst, hrun⟩ | ⟨ht, hq, hr⟩ | ⟨ht, hd, htbl, hr, hrst, hq⟩
  · exact ⟨fun h0 h1 => by simp [hrst, h0] at h1, fun h0 h1 => by simp [hrun, h0] at h1,
      fun h0 h1 => by simp [hrun, h0] at h1⟩
  · exact ⟨fun _ _ => ⟨hr, hq, ht⟩, fun _ _ => ⟨hq, ht⟩, fun hr' => by simp [hr] at hr'⟩
  · exact ⟨fun _ hrst' => by simp [hrst, hq] at hrst', fun hr' => by simp [hr] at hr', fun _ _ => ⟨hd, ht, htbl, hq⟩⟩

end Sys2Proof.Machine
end

section
/-! SUPPORT. The register window (R22 to R42): where each register stands, what a read gives and a write does there,
and the host's accesses by width and address (R58). -/

namespace Sys2Proof.Machine

/-! ### The map (R22) -/

/-- The offsets at which the map of R22 has a register of the kind of `r`. -/
def RegCovers : Reg → Nat → Prop
  | .cmd, off => off = 0x000
  | .status, off => off = 0x004
  | .addr, off => off = 0x008
  | .len, off => off = 0x00C
  | .crcAcc, off => off = 0x010
  | .seq, off => off = 0x014
  | .info, off => off = 0x018
  | .dbuf _, off => 0x020 ≤ off ∧ off < 0x030
  | .obs _, off => 0x040 ≤ off ∧ off < 0x050
  | .int _, off => 0x050 ≤ off ∧ off < 0x060
  | .tbl _, off => 0x400 ≤ off ∧ off < 0x800

theorem regAt_covers {off : Nat} {r : Reg} (h : regAt off = some r) : RegCovers r off := by
  unfold regAt at h
  iterate 11 -- one line of the map each
    obtain ⟨hm, hr⟩ | ⟨-, h⟩ := ite_eq_iff.1 h
    · cases hr
      exact hm
  cases h

/-- The map has nothing at the offsets that R22 leaves out. -/
theorem regAt_unmapped {off : Nat} (h1 : off ∉ [0x000, 0x004, 0x008, 0x00C, 0x010, 0x014, 0x018])
    (h2 : ¬ (0x020 ≤ off ∧ off < 0x030)) (h3 : ¬ (0x040 ≤ off ∧ off < 0x060))
    (h4 : ¬ (0x400 ≤ off ∧ off < 0x800)) : regAt off = none := by
  cases hr : regAt off with
  | none => rfl
  | some r =>
    have hm := regAt_covers hr
    exfalso
    cases r <;> simp only [RegCovers, List.mem_cons, List.not_mem_nil] at hm h1 <;> omega

/-! ### Reads (R39) -/

/-- A read of a register outside the table, or of the table while it is valid, gives the register's value and moves
nothing. -/
theorem busRead32_reg {s : State} {off : Nat} {r : Reg} (hr : regAt off = some r)
    (h : s.tblValid = true ∨ off < 0x400) : busRead32 off s = (readReg s r, s) := by
  unfold busRead32
  rw [hr]
  cases r with
  | tbl i =>
    have hm : 0x400 ≤ off ∧ off < 0x800 := regAt_covers hr
    have hv : s.tblValid = true := h.resolve_right (by omega)
    simp [hv]
  | _ => rfl

/-- A read of the table while it is not valid gives the oracle's next byte (R31). -/
theorem busRead32_tbl_invalid {s : State} {off : Nat} {i : Fin 256} (hr : regAt off = some (.tbl i))
    (h : s.tblValid = false) : (busRead32 off s).1 = (s.oracle.drawByte off).1.setWidth 32 := by
  unfold busRead32
  rw [hr]
  simp [h]

theorem busRead32_unmapped {s : State} {off : Nat} (h : regAt off = none) : busRead32 off s = (0, s) := by
  unfold busRead32
  rw [h]

/-- Settles O57: the valid table is read as it is held, and else the word is the oracle's byte, which an oracle
that lists `b` next makes `b`. -/
theorem tableWindow : Obligations.TableWindow := by
  unfold Obligations.TableWindow
  intro s i
  have hr : regAt (0x400 + 4 * i.val) = some (.tbl i) := regAt_regOffset (.tbl i)
  refine ⟨fun hv => busRead32_reg hr (.inl hv), fun hv => ⟨?_, fun b => ?_⟩⟩
  · rw [busRead32_tbl_invalid hr hv, BitVec.toNat_setWidth]
    exact Nat.lt_of_le_of_lt (Nat.mod_le _ _) (BitVec.isLt _)
  · refine ⟨{ s.oracle with byteAnswers := [b] }, ?_⟩
    exact (busRead32_tbl_invalid (s := { s with oracle := { s.oracle with byteAnswers := [b] } }) hr hv).trans
      (by rw [Oracle.drawByte_listed _ rfl])

/-- Settles O58, by the frame of reads and the map's registers and gaps. -/
theorem readsHaveNoSideEffect : Obligations.ReadsHaveNoSideEffect := by
  unfold Obligations.ReadsHaveNoSideEffect
  intro s off
  refine ⟨⟨_, busRead32_state off s⟩, busRead32_same off s, rfl, ?_, ?_,
    fun h1 h2 h3 h4 => busRead32_unmapped (regAt_unmapped h1 h2 h3 h4)⟩
  · exact BitVec.toNat_setWidth_of_le (by decide)
  · exact BitVec.toNat_setWidth_of_le (by decide)

/-! ### Fields and byte lanes as numbers (R24, R29, R30, R32, R56) -/

theorem toNat_append_eq_add {m n : Nat} (x : BitVec m) (y : BitVec n) :
    (x ++ y).toNat = 2 ^ n * x.toNat + y.toNat := by
  rw [BitVec.toNat_append, ← Nat.shiftLeft_add_eq_or_of_lt y.isLt, Nat.shiftLeft_eq, Nat.mul_comm]

theorem Code.toNat_lt (c : Code) : c.toNat < 14 := by cases c <;> decide

@[simp] theorem Code.bits_toNat (c : Code) : c.bits.toNat = c.toNat := by
  rw [Code.bits, BitVec.toNat_ofNat, Nat.mod_eq_of_lt (Nat.lt_trans c.toNat_lt (by decide))]

theorem statusWord_toNat (s : State) : s.statusWord.toNat =
    s.busy.toNat + 2 * s.tblValid.toNat + 4 * s.lock.toNat + 8 * s.run.toNat + 16 * s.vok.toNat +
      32 * s.rstReq.toNat + 64 * s.ovr.toNat + 256 * s.err.toNat := by
  simp only [State.statusWord, toNat_append_eq_add, BitVec.toNat_ofBool, Code.bits_toNat, BitVec.toNat_ofNat]
  omega

theorem seqWord_toNat (s : State) : s.seqWord.toNat = s.seqState.toNat + 256 * s.seqErr.toNat := by
  simp only [State.seqWord, toNat_append_eq_add, Code.bits_toNat, BitVec.toNat_ofNat]
  omega

theorem infoWord_toNat {s : State} (h : s.params.WellFormed) :
    s.infoWord.toNat = 1 + 256 * (s.params.nameLen + 4) + 65536 * 8 := by
  have hr := recLen_le h
  simp only [Params.recLen] at hr
  simp only [State.infoWord, toNat_append_eq_add, BitVec.toNat_ofNat, Params.recLen, unit_eq]
  omega

/-- Settles O55, field by field; the codes' and events' numbers are the definition's own. -/
theorem statusSeqAndInfoWords : Obligations.StatusSeqAndInfoWords := by
  unfold Obligations.StatusSeqAndInfoWords
  exact ⟨fun s h => ⟨statusWord_toNat s, seqWord_toNat s, infoWord_toNat h⟩,
    rfl, rfl, rfl, rfl, rfl, rfl, rfl, rfl, rfl, rfl, rfl, rfl, rfl, rfl, Code.toNat_lt, rfl, rfl, rfl⟩

/-- A buffer's word is little-endian (R56). -/
theorem bufferWord_toNat (b : Vector Byte 16) (k : Fin 4) :
    (bufferWord b k).toNat = (b.toList.getD (4 * k.val) 0).toNat + 256 * (b.toList.getD (4 * k.val + 1) 0).toNat +
      65536 * (b.toList.getD (4 * k.val + 2) 0).toNat + 16777216 * (b.toList.getD (4 * k.val + 3) 0).toNat := by
  have hget : ∀ i (h : i < 16), b.toList.getD i 0 = b[i] := fun i h => by simp [List.getD_eq_getElem?_getD, h]
  rw [hget _ (by omega), hget _ (by omega), hget _ (by omega), hget _ (by omega)]
  simp only [bufferWord, toNat_append_eq_add]
  omega

/-- Settles O56, by the map's register at each of the three offsets. -/
theorem bufferWordsAreLittleEndian : Obligations.BufferWordsAreLittleEndian := by
  unfold Obligations.BufferWordsAreLittleEndian
  intro s k hk
  have hdbuf : busRead32 (0x020 + 4 * k) s = (bufferWord s.dbuf ⟨k, hk⟩, s) :=
    busRead32_reg (off := 0x020 + 4 * k) (regAt_regOffset (.dbuf ⟨k, hk⟩)) (.inr (by omega))
  have hobs : busRead32 (0x040 + 4 * k) s = (bufferWord s.obs ⟨k, hk⟩, s) :=
    busRead32_reg (off := 0x040 + 4 * k) (regAt_regOffset (.obs ⟨k, hk⟩)) (.inr (by omega))
  have hint : busRead32 (0x050 + 4 * k) s = (bufferWord s.intd ⟨k, hk⟩, s) :=
    busRead32_reg (off := 0x050 + 4 * k) (regAt_regOffset (.int ⟨k, hk⟩)) (.inr (by omega))
  rw [hdbuf, hobs, hint]
  exact ⟨bufferWord_toNat s.dbuf ⟨k, hk⟩, bufferWord_toNat s.obs ⟨k, hk⟩, bufferWord_toNat s.intd ⟨k, hk⟩⟩

/-! ### Writes (R23, R34, R40, R42) -/

/-- The host's write of word k puts each byte lane in its place and keeps every other byte (R32, R40). -/
theorem setBufferWord_getD (b : Vector Byte 16) (k : Fin 4) (v : Word) (i : Nat) :
    (setBufferWord b k v).toList.getD i 0 =
      if i / 4 = k.val then wordLane v (i % 4) else b.toList.getD i 0 := by
  by_cases hi : i < 16
  · simp [setBufferWord, List.getD_eq_getElem?_getD, hi]
  · have hk : i / 4 ≠ k.val := by omega
    simp [List.getD_eq_getElem?_getD, hi, hk]

theorem busWrite32_dbuf (k : Fin 4) (v : Word) (s : State) :
    busWrite32 (0x020 + 4 * k.val) v s = writeDbuf k v s := by
  unfold busWrite32
  rw [show regAt (0x020 + 4 * k.val) = some (.dbuf k) from regAt_regOffset (.dbuf k)]

/-- Settles O52: CMD and SEQ writes by the condition each is accepted under. -/
theorem cmdAndSeqWrites : Obligations.CmdAndSeqWrites := by
  unfold Obligations.CmdAndSeqWrites
  intro s v
  have hcmd : busWrite32 0x000 v s = writeCmd v s := rfl
  have hseq : busWrite32 0x014 v s = writeSeq v s := rfl
  rw [hcmd, hseq, writeCmd, writeSeq]
  refine ⟨fun hb => by simp [hb], fun hb => by rw [if_pos hb]; rfl, rfl, fun h => by rw [if_pos h]; rfl,
    fun hb hr hq => ?_⟩
  rw [if_neg (by simp [hb, hr, hq]), BitVec.setWidth_eq_extractLsb' (by decide)]

/-- Settles O53: the three operand writes by BUSY; byte lanes as `setBufferWord_getD` puts them. -/
theorem operandWrites : Obligations.OperandWrites := by
  unfold Obligations.OperandWrites
  intro s v k hk
  have haddr : busWrite32 0x008 v s = writeAddr v s := rfl
  have hlen : busWrite32 0x00C v s = writeLen v s := rfl
  rw [haddr, hlen, busWrite32_dbuf ⟨k, hk⟩, writeAddr, writeLen, writeDbuf]
  constructor
  · intro hb
    simp [hb, State.drop]
  · intro hb
    refine ⟨by simp [hb], by simp [hb, BitVec.setWidth_eq_extractLsb'], setBufferWord s.dbuf ⟨k, hk⟩ v,
      by simp [hb], fun j hj => ?_, fun i hi => ?_⟩
    · rw [setBufferWord_getD, if_pos (by dsimp only; omega), wordLane, show (4 * k + j) % 4 = j by omega]
    · rw [setBufferWord_getD, if_neg (by dsimp only; omega)]

/-- Settles O54: at these offsets the map has a read-only register or none. -/
theorem readOnlyAndUnmappedWritesIgnored : Obligations.ReadOnlyAndUnmappedWritesIgnored := by
  unfold Obligations.ReadOnlyAndUnmappedWritesIgnored
  intro s off v hcmd haddr hlen hseq hdbuf
  unfold busWrite32
  cases hr : regAt off with
  | none => rfl
  | some r =>
    have hm := regAt_covers hr
    cases r with
    | cmd => exact absurd hm hcmd
    | addr => exact absurd hm haddr
    | len => exact absurd hm hlen
    | seq => exact absurd hm hseq
    | dbuf k => exact absurd hm hdbuf
    | _ => rfl

/-- Settles O60: a write's frame, with SEQ.STATE kept during a run (R42). -/
theorem hostWritesDoNotDisturbARun : Obligations.HostWritesDoNotDisturbARun := by
  unfold Obligations.HostWritesDoNotDisturbARun
  intro s off v hr
  obtain ⟨a, l, d, p, b, o, q, hw, hq⟩ := busWrite32_frame off v s
  exact ⟨a, l, d, p, b, o, by rw [hw, hq hr]⟩

/-! ### Accesses by width and address (R58) -/

/-- The host's next access, at a window offset of the block, is the bus write or the read of that offset. -/
theorem hostStep_access {s : State} {a off : Nat} {w : Width} (h : busOffset s.params a w = .ok off) (v : Word)
    (rest : List Input) :
    turnStep .host { s with inputs := .write a w v :: rest } = .next (busWrite32 off v { s with inputs := rest }) ∧
    turnStep .host { s with inputs := .read a w :: rest } = .next (hostRead off { s with inputs := rest }) := by
  simp [turnStep, inputStep, h]

/-- The host is stuck at an access that has no window offset. -/
theorem hostStep_stuck {s : State} {a : Nat} {w : Width} {f : Fault} (h : busOffset s.params a w = .error f)
    (v : Word) (rest : List Input) :
    turnStep .host { s with inputs := .write a w v :: rest } = .fault f ∧
    turnStep .host { s with inputs := .read a w :: rest } = .fault f := by
  simp [turnStep, inputStep, h]

theorem busOffset_narrow {p : Params} {a : Nat} {w : Width} (h : w ≠ .word) :
    busOffset p a w = .error .narrowAccess := by
  unfold busOffset
  rw [if_pos h]

theorem busOffset_outside {p : Params} {a : Nat} (h : a < p.blockBase ∨ p.blockBase + 0x800 ≤ a) :
    busOffset p a .word = .error .outsideWindow := by
  unfold busOffset
  rw [if_neg (by decide), if_pos h]

theorem busOffset_unaligned {p : Params} {a : Nat} (hlo : p.blockBase ≤ a) (hhi : a < p.blockBase + 0x800)
    (h : (a - p.blockBase) % 4 ≠ 0) : busOffset p a .word = .error .unalignedAccess := by
  unfold busOffset
  rw [if_neg (by decide), if_neg (by omega), if_pos h]

/-- Settles O59, by the window offset that each kind of access has or lacks. -/
theorem hostAccessesByWidthAndAddress : Obligations.HostAccessesByWidthAndAddress := by
  unfold Obligations.HostAccessesByWidthAndAddress
  intro s a off w v rest
  refine ⟨fun hlt hmod => ?_, fun hw => hostStep_stuck (busOffset_narrow hw) v rest, fun hw hlo hhi hmod => ?_,
    fun hw hout => ?_⟩
  · have hoff : busOffset s.params (s.params.blockBase + off) .word = .ok off := by
      rw [busOffset_ok ⟨rfl, by omega, by omega, by omega⟩, Nat.add_sub_cancel_left]
    exact hostStep_access hoff v rest
  · subst hw
    exact hostStep_stuck (busOffset_unaligned hlo hhi hmod) v rest
  · subst hw
    exact hostStep_stuck (busOffset_outside hout) v rest

end Sys2Proof.Machine
end

section
/-! SUPPORT. What flash is read and changed by what (20_memory.md R53, R62; R120, R127, R149): FL_READ's copy, the
part of the array that a sequencer step, a command and a host step can change, and the registers that a sequencer
step does not read. -/

namespace Sys2Proof.Machine

open Sys2Proof.Safety

/-! ### FL_READ (R104, R120) -/

/-- Byte i of a buffer that `FlashRead(a, n)` was loaded into (R53, R120). -/
theorem loadBuffer_flashRead_get (b : Vector Byte 16) (s : State) (a n : Nat) (i : Fin 16) :
    (loadBuffer b (s.flashRead a n))[i] = if i.val < n then Memory.read s.flash (a + i.val) else b[i] := by
  rw [loadBuffer_get, State.flashRead, Memory.readBytes_length]
  split
  · rename_i hi
    exact Memory.readBytes_getD _ _ _ _ _ hi
  · rfl

/-- Settles O17: the checks pass, `Read` answers OK with the span, and DBUF is loaded with it. -/
theorem flReadCopiesTheSpan : Obligations.FlReadCopiesTheSpan := by
  unfold Obligations.FlReadCopiesTheSpan
  intro s hready hpos hlen hlo hhi
  have hcheck : s.check .flRead = .ok := check_ok hready (fun h => by cases h) fun _ => hlen
  have hread : s.readOp s.addrOperand s.lenOperand = (.ok, s.flashRead s.addrOperand s.lenOperand) :=
    readOp_ok (Nat.ne_of_gt hpos) hlo hhi
  refine ⟨loadBuffer s.dbuf (s.flashRead s.addrOperand s.lenOperand), ?_, loadBuffer_flashRead_get _ _ _ _⟩
  rw [exec_of_check_ok hcheck]
  simp only [performOf, performFlRead, hread]
  rfl

/-! ### What a sequencer step changes of flash (R62) -/

/-- The array `f` reads as `m` at every address outside `lo ..< hi`. -/
def SameOutside (lo hi : Nat) (m f : Memory) : Prop :=
  ∀ x, x < lo ∨ hi ≤ x → Memory.read f x = Memory.read m x

theorem SameOutside.of_eq {lo hi : Nat} {m f : Memory} (h : f = m) : SameOutside lo hi m f := fun x _ => by rw [h]

theorem SameOutside.trans {lo hi : Nat} {m f g : Memory} (h1 : SameOutside lo hi m f) (h2 : SameOutside lo hi f g) :
    SameOutside lo hi m g := fun x hx => (h2 x hx).trans (h1 x hx)

theorem SameOutside.mono {lo lo' hi : Nat} {m f : Memory} (h : SameOutside lo hi m f) (hlo : lo' ≤ lo) :
    SameOutside lo' hi m f := fun x hx => h x (hx.imp_left fun hx => Nat.lt_of_lt_of_le hx hlo)

/-- An erase from a page of the user area changes flash from there to USER_END at most, whatever the oracle answers,
and keeps the parameters and flash's canonical form (R110, R112). -/
theorem eraseOp_sameOutside {s : State} {a : Nat} (hp : s.params.WellFormed) (ha : EraseStart s.params a)
    (hw : Memory.wf s.flash) :
    (s.eraseOp a).2.params = s.params ∧ Memory.wf (s.eraseOp a).2.flash ∧
      SameOutside a s.params.userEnd s.flash (s.eraseOp a).2.flash := by
  obtain ⟨c, f, o, he, hf, hc⟩ := eraseOp_spec hp ha hw
  rw [he]
  refine ⟨rfl, hf, fun x hx => ?_⟩
  rcases hc with ⟨-, hok⟩ | ⟨-, k, hstop⟩
  · exact (hok.flash x).trans (if_neg (by omega))
  · have hin := hstop.inRange
    exact hstop.others x (by omega)

/-- The record's two units lie in the user area (R9). -/
theorem record_inUserArea {p : Params} (h : p.WellFormed) :
    p.flashBase ≤ p.recordAddr ∧ p.recordAddr + 16 ≤ p.userEnd := by
  obtain ⟨-, -, -, -, -, -, -, -, -, -, hlo, hhi, -⟩ := h
  exact ⟨hlo, hhi⟩

/-- Programming the record changes flash inside RECORD_ADDR to USER_END at most, whatever the oracle answers
(R152, R158). -/
theorem programRecord_sameOutside {s : State} (flag : Byte) (hp : s.params.WellFormed) (hw : Memory.wf s.flash) :
    SameOutside s.params.recordAddr s.params.userEnd s.flash (programRecord flag s).2.flash := by
  have hend := (record_inUserArea hp).2
  obtain ⟨c, f, o, he, -, -, hsame, -⟩ := programRecord_spec flag hp hw
  rw [he]
  exact fun x hx => hsame x (by omega)

theorem seqRead_flash (s : State) : (seqRead s).flash = s.flash := by
  unfold seqRead
  dsimp only
  split <;> rfl

theorem seqErase_flash (s : State) : (seqErase s).flash = (s.eraseOp s.params.recordAddr).2.flash := by
  unfold seqErase
  dsimp only
  split <;> rfl

theorem seqWrite_flash (s : State) : (seqWrite s).flash = (programRecord 1 s).2.flash := by
  unfold seqWrite
  dsimp only
  split <;> rfl

theorem seqCheck_flash (s : State) : (seqCheck s).flash = s.flash := by
  unfold seqCheck
  dsimp only
  split <;> rfl

theorem defaultRecovery_sameOutside {s : State} (hp : s.params.WellFormed) (hw : Memory.wf s.flash) :
    SameOutside s.params.recordAddr s.params.userEnd s.flash (defaultRecovery s).flash := by
  obtain ⟨hpar, hwf, herase⟩ := eraseOp_sameOutside hp (record_eraseStart hp) hw
  unfold defaultRecovery
  dsimp only
  split
  · have hprog := programRecord_sameOutside (s := (s.eraseOp s.params.recordAddr).2) 0 (by rw [hpar]; exact hp) hwf
    rw [hpar] at hprog
    exact herase.trans hprog
  · exact herase

/-- A sequencer step changes flash inside RECORD_ADDR to USER_END at most, whatever STATE is (R62). -/
theorem sequencerStep_sameOutside {s : State} (hp : s.params.WellFormed) (hw : Memory.wf s.flash) :
    SameOutside s.params.recordAddr s.params.userEnd s.flash (sequencerStep s).flash := by
  unfold sequencerStep
  repeat' split
  · exact .of_eq (seqRead_flash s)
  · obtain ⟨-, -, herase⟩ := eraseOp_sameOutside hp (record_eraseStart hp) hw
    rw [seqErase_flash]; exact herase
  · rw [seqWrite_flash]; exact programRecord_sameOutside 1 hp hw
  · exact .of_eq (seqCheck_flash s)
  · exact .of_eq rfl
  · exact defaultRecovery_sameOutside hp hw

/-! ### What a sequencer step does not read (R149) -/

section Patch

variable (a : Word) (ln : BitVec 5) (d : Vector Byte 16) (acc : Byte) (v : Bool) (c : Code) (b : Bool) (s : State)

@[simp] theorem State.patch_params : (s.patch a ln d acc v c b).params = s.params := rfl

theorem State.patch_ite (p : Prop) [Decidable p] (t : State) : (if p then s else t).patch a ln d acc v c b =
    if p then s.patch a ln d acc v c b else t.patch a ln d acc v c b :=
  apply_ite (fun t : State => t.patch a ln d acc v c b) p s t

theorem seqRead_patch : seqRead (s.patch a ln d acc v c b) = (seqRead s).patch a ln d acc v c b := by
  unfold seqRead
  simp only [State.patch_ite]
  rfl

theorem seqErase_patch : seqErase (s.patch a ln d acc v c b) = (seqErase s).patch a ln d acc v c b := by
  unfold seqErase
  simp only [State.patch_params, eraseOp_patch, State.patch_ite]
  rfl

theorem programRecord_patch (flag : Byte) : programRecord flag (s.patch a ln d acc v c b) =
    ((programRecord flag s).1, (programRecord flag s).2.patch a ln d acc v c b) := by
  have hp := programOp_patch a ln d acc v c b
    { s with intd := loadBuffer s.intd (serialize s.params s.table flag) } s.params.recordAddr
    (bufferPrefix (loadBuffer s.intd (serialize s.params s.table flag)) s.params.recLen)
  unfold programRecord
  exact congrArg (fun r : Code × State => (r.1, { r.2 with seqErr := r.1 })) hp

theorem seqWrite_patch : seqWrite (s.patch a ln d acc v c b) = (seqWrite s).patch a ln d acc v c b := by
  unfold seqWrite
  simp only [programRecord_patch, State.patch_ite]
  rfl

theorem seqCheck_patch : seqCheck (s.patch a ln d acc v c b) = (seqCheck s).patch a ln d acc v c b := by
  unfold seqCheck
  simp only [State.patch_ite]
  rfl

theorem defaultRecovery_patch :
    defaultRecovery (s.patch a ln d acc v c b) = (defaultRecovery s).patch a ln d acc v c b := by
  unfold defaultRecovery
  simp only [State.patch_params, eraseOp_patch, programRecord_patch, State.patch_ite]
  rfl

/-- A sequencer step takes the same action, with the same result, whatever the host's registers hold (R149). -/
theorem sequencerStep_patch :
    sequencerStep (s.patch a ln d acc v c b) = (sequencerStep s).patch a ln d acc v c b := by
  have hq : (s.patch a ln d acc v c b).seqState = s.seqState := rfl
  unfold sequencerStep
  simp only [hq, seqRead_patch, seqErase_patch, seqWrite_patch, seqCheck_patch, defaultRecovery_patch,
    State.patch_ite]
  rfl

end Patch

/-- The frame of every sequencer step, End included (R149). -/
theorem sequencerStep_frame (s : State) :
    ∃ st r se rr ob n l e f o, sequencerStep s =
      { s with seqState := st, run := r, seqErr := se, rstReq := rr, obs := ob, intd := n, lock := l, events := e,
               flash := f, oracle := o } := by
  rcases sequencerStep_cases s with ⟨-, he⟩ | ⟨f, o, l, b, i, c, q, ev, he⟩
  · exact ⟨_, _, _, _, _, _, _, _, _, _, he⟩
  · exact ⟨_, _, _, _, _, _, _, _, _, _, he⟩

/-- Settles O40: the frame of every step, what it leaves of flash, and its independence of the host's registers. -/
theorem sequencerTouchesOnlyItsOwn : Obligations.SequencerTouchesOnlyItsOwn := by
  unfold Obligations.SequencerTouchesOnlyItsOwn
  intro s
  obtain ⟨st, r, se, rr, ob, n, l, e, f, o, he⟩ := sequencerStep_frame s
  refine ⟨⟨st, r, se, rr, ob, n, l, e, f, o, he, fun hp hw => ?_⟩, fun a ln d acc v c => ?_⟩
  · have hflash := sequencerStep_sameOutside hp hw
    rw [he] at hflash
    exact hflash
  · have hpatch := sequencerStep_patch a ln d acc v c s.busy s
    rw [he] at hpatch ⊢
    exact hpatch

/-! ### What any step changes of flash (R62, R127) -/

/-- A command's own rule changes flash inside the user area at most: only FL_ERASE and FL_PROGRAM change it. -/
theorem performOf_sameOutside {s : State} (h : Invariant s) (i : Instr) :
    SameOutside s.params.flashBase s.params.userEnd s.flash (performOf i s).2.flash := by
  cases i with
  | flErase =>
    obtain ⟨c, f, o, he, -, hsame⟩ := eraseOp_userArea s.addrOperand h.params h.flashWf h.locked
    rw [performOf, performFlErase, he]
    exact hsame
  | flProgram =>
    obtain ⟨c, f, o, hp, -, hsame⟩ := programOp_userArea s.addrOperand s.dbufOperand h.flashWf h.locked
    rw [performOf, performFlProgram, hp]
    exact hsame
  | _ => exact .of_eq rfl

theorem commandStep_sameOutside {s t : State} (h : Invariant s) (hs : commandStep s = .next t) :
    SameOutside s.params.flashBase s.params.userEnd s.flash t.flash := by
  rcases commandStep_next hs with ⟨i, -, -, rfl⟩ | ⟨c, rfl⟩
  · exact performOf_sameOutside h i
  · exact .of_eq rfl

theorem busWrite32_flash (off : Nat) (v : Word) (s : State) : (busWrite32 off v s).flash = s.flash := by
  obtain ⟨a, l, d, p, b, o, q, hw, -⟩ := busWrite32_frame off v s
  rw [hw]

theorem hostRead_flash (off : Nat) (s : State) : (hostRead off s).flash = s.flash := by
  obtain ⟨log, o, hr⟩ := hostRead_frame off s
  rw [hr]

/-- The host's and the environment's next action changes flash only where it is an outside agent's change. -/
theorem inputStep_flash {s t : State} (h : inputStep s = .next t)
    (ho : ∀ a b, s.inputs.head? ≠ some (.outsideFlash a b)) : t.flash = s.flash := by
  unfold inputStep at h
  split at h
  · -- idle
    exact Host.Outcome.next.inj h ▸ rfl
  · -- a write
    split at h
    · exact Host.Outcome.next.inj h ▸ busWrite32_flash ..
    · cases h
  · -- a read
    split at h
    · exact Host.Outcome.next.inj h ▸ hostRead_flash ..
    · cases h
  · -- POLL
    exact Host.Outcome.next.inj h ▸ hostRead_flash ..
  · -- WAITRUN
    exact Host.Outcome.next.inj h ▸ hostRead_flash ..
  · -- the reset input
    exact Host.Outcome.next.inj h ▸ rfl
  · -- an outside change of flash
    rename_i hi
    exact absurd (by rw [hi]; rfl) (ho _ _)

/-- The step of the agent whose turn it is changes flash inside the user area at most, outside changes apart. -/
theorem turnStep_sameOutside {s t : State} {u : Turn} (h : Invariant s) (hs : turnStep u s = .next t)
    (ho : u = .host → ∀ a b, s.inputs.head? ≠ some (.outsideFlash a b)) :
    SameOutside s.params.flashBase s.params.userEnd s.flash t.flash := by
  cases u with
  | command => exact commandStep_sameOutside h hs
  | sequencer =>
    have hrec := (record_inUserArea h.params).1
    exact Host.Outcome.next.inj hs ▸ (sequencerStep_sameOutside h.params h.flashWf).mono hrec
  | host => exact .of_eq (inputStep_flash hs (ho rfl))

/-- Settles O51: the reset and the idle step keep flash, and each agent's step keeps it outside the user area. -/
theorem onlyTheUserAreaIsMutated : Obligations.OnlyTheUserAreaIsMutated := by
  unfold Obligations.OnlyTheUserAreaIsMutated
  intro s t h hs ho
  rcases step_next hs with ⟨-, rfl⟩ | ⟨hp, ⟨-, rfl⟩ | ⟨u, ht, hu⟩⟩
  · exact fun _ _ => rfl
  · exact fun _ _ => rfl
  · exact turnStep_sameOutside (s := s.tookTurn) (tookTurn_invariant h) hu fun hhost => ho hp (hhost ▸ ht)

end Sys2Proof.Machine
end

section
/-! SUPPORT. The decoder and the encoder (30_encoding.md R70, R73, R75), by the fields of a word: a word is put
together from its fields, it decodes to the one command that has them, and to none in the four cases of R75. -/

namespace Sys2Proof

/-! ### The fields of a word (R70) -/

/-- A word is its three fields put together. -/
theorem Word.fields_append (w : Word) : Word.rsv w ++ Word.imm8 w ++ Word.op w = w := by
  have hhigh : Word.rsv w ++ Word.imm8 w = w.extractLsb' 8 24 :=
    BitVec.extractLsb'_append_extractLsb'_eq_extractLsb' rfl
  rw [hhigh]
  exact BitVec.extractLsb'_append_extractLsb'

/-- The word of a command is the one word with reserved bits 0 and the command's immediate and OP (R73). -/
theorem eq_encode_iff {w : Word} {i : Instr} :
    w = encode i ↔ Word.rsv w = 0#16 ∧ Word.op w = i.op ∧ Word.imm8 w = i.imm8 := by
  constructor
  · rintro rfl
    obtain ⟨hop, himm, hrsv⟩ := Laws.Encoding.fields 0#16 i.imm8 i.op
    exact ⟨hrsv, hop, himm⟩
  · rintro ⟨hrsv, hop, himm⟩
    rw [← Word.fields_append w, hrsv, hop, himm, encode]

/-! ### The immediate -/

/-- A command without an immediate is decoded only from its own fields. -/
theorem decodeNoImm_fields {op imm : Byte} {i j : Instr} (h : decodeNoImm imm i = .ok j)
    (hop : op = i.op) (hi : i.imm8 = 0) : op = j.op ∧ imm = j.imm8 := by
  unfold decodeNoImm at h
  split at h
  · rename_i himm
    cases h
    exact ⟨hop, himm.trans hi.symm⟩
  · cases h

theorem decodeSelector_fields {op imm : Byte} {j : Instr} (h : decodeSelector imm = .ok j)
    (hop : op = 0x20#8) : op = j.op ∧ imm = j.imm8 := by
  unfold decodeSelector at h
  split_ifs at h with h0 h1
  · cases h; exact ⟨hop, h0⟩
  · cases h; exact ⟨hop, h1⟩

theorem decodeNoImm_error_iff {imm : Byte} {i : Instr} :
    (∃ r, decodeNoImm imm i = .error r) ↔ imm ≠ 0#8 := by
  unfold decodeNoImm
  split <;> simp [*]

theorem decodeSelector_error_iff {imm : Byte} :
    (∃ r, decodeSelector imm = .error r) ↔ imm ≠ 0#8 ∧ imm ≠ 1#8 := by
  unfold decodeSelector
  split_ifs <;> simp [*]

/-! ### The opcode map (R73) -/

/-- The map gives a command only at the command's own OP and immediate. -/
theorem decodeOp_fields {op imm : Byte} {i : Instr} (h : decodeOp op imm = .ok i) :
    op = i.op ∧ imm = i.imm8 := by
  unfold decodeOp at h
  split_ifs at h with h1 h2 h3 h4 h5 h6 h7 h8 h9 h10
  · exact decodeNoImm_fields h h1 rfl
  · exact decodeNoImm_fields h h2 rfl
  · cases h; exact ⟨h3, rfl⟩
  · exact decodeNoImm_fields h h4 rfl
  · exact decodeNoImm_fields h h5 rfl
  · exact decodeNoImm_fields h h6 rfl
  · exact decodeNoImm_fields h h7 rfl
  · exact decodeSelector_fields h h8
  · exact decodeNoImm_fields h h9 rfl
  · exact decodeNoImm_fields h h10 rfl

theorem decodeOp_op_imm8 (i : Instr) : decodeOp i.op i.imm8 = .ok i := by
  cases i <;> rfl

theorem decodeOp_ok_iff {op imm : Byte} {i : Instr} :
    decodeOp op imm = .ok i ↔ op = i.op ∧ imm = i.imm8 :=
  ⟨decodeOp_fields, fun ⟨hop, himm⟩ => hop ▸ himm ▸ decodeOp_op_imm8 i⟩

/-- The OPs of R73. -/
def commandOps : List Byte :=
  [0x01#8, 0x02#8, 0x03#8, 0x04#8, 0x10#8, 0x11#8, 0x12#8, 0x20#8, 0x21#8, 0x30#8]

/-- The map gives no command in the last three cases of R75. -/
theorem decodeOp_error_iff {op imm : Byte} : (∃ r, decodeOp op imm = .error r) ↔
    op ∉ commandOps ∨ (op ≠ 0x03#8 ∧ op ≠ 0x20#8 ∧ imm ≠ 0#8) ∨ (op = 0x20#8 ∧ imm ≠ 0#8 ∧ imm ≠ 1#8) := by
  by_cases h3 : op = 0x03#8
  · -- CRC_FEED: every immediate
    subst h3
    simp [decodeOp, commandOps]
  by_cases h20 : op = 0x20#8
  · -- REC_SER: a selector
    subst h20
    simp [decodeOp, commandOps, decodeSelector_error_iff]
  · -- an OP without an immediate, or no OP
    unfold decodeOp
    split_ifs <;> simp [*, commandOps, decodeNoImm_error_iff]

/-! ### Words -/

theorem decode_ok_iff {w : Word} {i : Instr} : decode w = .ok i ↔ w = encode i := by
  rw [eq_encode_iff, ← decodeOp_ok_iff]
  unfold decode
  split <;> simp [*]

theorem decode_encode (i : Instr) : decode (encode i) = .ok i := decode_ok_iff.2 rfl

theorem decode_error_iff {w : Word} : (∃ r, decode w = .error r) ↔
    Word.rsv w ≠ 0#16 ∨ ∃ r, decodeOp (Word.op w) (Word.imm8 w) = .error r := by
  unfold decode
  split <;> simp [*]

/-- Settles O1: each word is the encoding of its command. -/
theorem commandWordsDecode : Obligations.CommandWordsDecode := by
  unfold Obligations.CommandWordsDecode
  exact ⟨decode_encode .crcInit, decode_encode .crcClear, fun b => decode_encode (.crcFeed b),
    decode_encode .crcBuf, decode_encode .flRead, decode_encode .flErase, decode_encode .flProgram,
    decode_encode .recSer0, decode_encode .recSer1, decode_encode .recVerify, decode_encode .seqTrigger⟩

/-- Settles O2: both sides say that the word has the command's fields. -/
theorem decodeIsInverseOfEncode : Obligations.DecodeIsInverseOfEncode :=
  fun _ _ => decode_ok_iff

end Sys2Proof

namespace Sys2Proof.Machine

/-! ### The command step -/

theorem commandStep_of_decode_ok {s : State} {i : Instr} (h : decode s.pend = .ok i) :
    commandStep s = exec i s := by
  rw [commandStep, h]

theorem commandStep_of_decode_error {s : State} {r : Illegal} (h : decode s.pend = .error r) :
    commandStep s = .next (rejectIllegal s) := by
  rw [commandStep, h]

/-- Settles O3: the four cases are the decoder's, and the step of such a word is `rejectIllegal`. -/
theorem illegalWordsAreExactlyThese : Obligations.IllegalWordsAreExactlyThese := by
  unfold Obligations.IllegalWordsAreExactlyThese
  exact ⟨fun w => decode_error_iff.trans (or_congr Iff.rfl decodeOp_error_iff),
    fun s r h => commandStep_of_decode_error h⟩

/-! ### The turn of an agent -/

/-- The only enabled agent has the turn. -/
theorem nextTurn_of_alone {s : State} {t : Turn} (h : s.enabled = [t]) : s.nextTurn = some t := by
  unfold State.nextTurn
  rw [h]

/-- An enabled agent that the schedule names has the turn (R177). -/
theorem nextTurn_of_scheduled {s : State} {t : Turn} (ht : t ∈ s.enabled) (hs : s.sched.head? = some t) :
    s.nextTurn = some t := by
  obtain ⟨ts, hts⟩ := List.head?_eq_some_iff.1 hs
  unfold State.nextTurn
  split
  · -- nothing enabled
    rename_i he
    exact absurd (he ▸ ht) List.not_mem_nil
  · -- one agent alone
    rename_i u he
    rw [he, List.mem_singleton] at ht
    rw [ht]
  · -- a choice
    rw [hts]
    exact if_pos ht

/-- Settles O4: the turn is the command's, by being alone or by the schedule. -/
theorem stepRunsTheDecodedCommand : Obligations.StepRunsTheDecodedCommand := by
  unfold Obligations.StepRunsTheDecodedCommand
  intro s i hp hb hturn hd
  have ht : s.nextTurn = some .command := by
    rcases hturn with ⟨hr, hi⟩ | hs
    · exact nextTurn_of_alone (by simp [State.enabled, hb, hr, hi])
    · exact nextTurn_of_scheduled ((command_enabled s).2 hb) hs
  calc step s = turnStep .command s.tookTurn := step_of_nextTurn_some hp ht
    _ = exec i s.tookTurn := commandStep_of_decode_ok hd

end Sys2Proof.Machine
end

section
/-! SUPPORT. The CRC commands (40_crc.md R86 to R90, R94): each command is turned away by a failed check or has the
effect of its own rule, and a list of feeds is the fold of the table. -/

namespace Sys2Proof.Machine

open Sys2Proof.Safety

/-! ### Commands that are turned away (R94, R172) -/

/-- Without the table a command that uses it ends NOT_INIT (R94). -/
theorem exec_notInit {i : Instr} {s : State} (h : Ready s) (ht : usesTable i = true) (hv : s.tblValid = false) :
    exec i s = ends s .notInit :=
  exec_of_check_fails (check_notInit h ht hv) nofun

/-- A count above 16 ends BADLEN where the table is there or not used (R172). -/
theorem exec_badLen {i : Instr} {s : State} (h : Ready s) (ht : usesTable i = true → s.tblValid = true)
    (hl : usesLen i = true) (hn : 16 < s.len.toNat) : exec i s = ends s .badLen :=
  exec_of_check_fails (check_badLen h ht hl hn) nofun

/-- Settles O8: NOT_INIT for each command that uses the table, BADLEN for each that counts buffer bytes. -/
theorem notInitThenBadLen : Obligations.NotInitThenBadLen := by
  unfold Obligations.NotInitThenBadLen
  refine fun s b h => ⟨fun hv => ?_, fun hn => ?_⟩
  · exact ⟨exec_notInit h rfl hv, exec_notInit h rfl hv, exec_notInit h rfl hv, exec_notInit h rfl hv,
      exec_notInit h rfl hv, exec_notInit h rfl hv⟩
  · exact ⟨fun hv => exec_badLen h (fun _ => hv) rfl hn, exec_badLen h nofun rfl hn, exec_badLen h nofun rfl hn⟩

/-! ### Commands that execute (R86, R88, R89, R90) -/

theorem exec_crcInit {s : State} (h : Ready s) :
    exec .crcInit s = .next { s with table := crcTable, tblValid := true, err := .ok, busy := false } :=
  exec_of_check_ok (check_ok h nofun nofun)

theorem exec_crcFeed {s : State} (b : Byte) (h : Ready s) (hv : s.tblValid = true) :
    exec (.crcFeed b) s = .next { s with crcAcc := crcStep s.table s.crcAcc b, err := .ok, busy := false } :=
  exec_of_check_ok (check_ok h (fun _ => hv) nofun)

/-- Settles O10: CRC_CLEAR uses neither the table nor LEN, so its checks pass. -/
theorem crcClearZeroes : Obligations.CrcClearZeroes :=
  fun _ h => exec_of_check_ok (check_ok h nofun nofun)

/-- Settles O11: the fold step is the table's entry. -/
theorem crcFeedFoldsOneByte : Obligations.CrcFeedFoldsOneByte :=
  fun _ b h hv => exec_crcFeed b h hv

/-- Settles O12: the checks pass, and `crc8` is the fold over the operand DBUF[0 .. LEN). -/
theorem crcBufFoldsTheBuffer : Obligations.CrcBufFoldsTheBuffer :=
  fun _ h hv hl => exec_of_check_ok (check_ok h (fun _ => hv) fun _ => hl)

/-- The round of R85 as the claims write it is the model's. -/
theorem polyRound_eq_crcRound : polyRound = crcRound := by
  funext c
  rw [polyRound, crcRound, BitVec.msb_eq_getLsbD_last]

/-- Settles O9: an entry is eight rounds, and a table that is already built is the one CRC_INIT writes. -/
theorem crcInitBuildsTheTable : Obligations.CrcInitBuildsTheTable := by
  unfold Obligations.CrcInitBuildsTheTable
  refine fun s h => ⟨crcTable, exec_crcInit h, fun i => ?_, fun ht => ht.2.symm⟩
  rw [crcTable_get, polyRound_eq_crcRound]
  rfl

/-! ### Feeding a list of bytes (R89) -/

/-- A command that answers a next state is followed by the rest of the list. -/
theorem execAll_cons {i : Instr} {is : List Instr} {s t : State} (h : exec i s = .next t) :
    execAll (i :: is) s = execAll is t := by
  rw [execAll, h]

/-- Feeds of a list, after a command that ended OK, fold the list into CRC_ACC. -/
theorem execAll_crcFeed {s : State} (bs : List Byte) (h : Ready s) (hv : s.tblValid = true) :
    execAll (bs.map .crcFeed) { s with err := .ok, busy := false } =
      .next { s with crcAcc := crcFold s.table s.crcAcc bs, err := .ok, busy := false } := by
  induction bs generalizing s with
  | nil => rfl
  | cons b bs ih =>
    have hfeed := exec_crcFeed (s := { s with err := .ok, busy := false }) b h hv
    rw [List.map_cons, execAll_cons hfeed]
    exact ih (s := { s with crcAcc := crcStep s.table s.crcAcc b }) h hv

/-- Settles O13: CRC_CLEAR leaves 0, from which the feeds fold the bytes. -/
theorem clearThenFeedsLeaveChecksum : Obligations.ClearThenFeedsLeaveChecksum := by
  unfold Obligations.ClearThenFeedsLeaveChecksum
  intro s bs h hv
  rw [execAll_cons (crcClearZeroes s h)]
  exact execAll_crcFeed (s := { s with crcAcc := 0 }) bs h hv

end Sys2Proof.Machine
end

section
/-! SUPPORT. The checksum over the table of CRC_INIT (40_crc.md R91, R92, R93): it is the bit-serial CRC, it obeys
the laws of R92, and it tells two lists apart that differ in one byte. -/

namespace Sys2Proof.Machine

open Sys2Proof.Safety

/-! ### The bit-serial CRC (R91) -/

/-- One bit of the serial CRC is a round on the accumulator with the rest of the message byte, still to come,
added to it: bit `7 - k` of `b` is the top bit of `b <<< k`. -/
theorem crcRound_xor_shiftLeft (a b : Byte) {k : Nat} (hk : k < 8) :
    crcRound (a ^^^ b <<< k) = serialBit a (b.getLsbD (7 - k)) ^^^ b <<< (k + 1) := by
  have htop : (b <<< k).getLsbD 7 = b.getLsbD (7 - k) := by
    rw [BitVec.getLsbD_shiftLeft]
    simp [show ¬7 < k by omega]
  rw [crcRound_eq, serialBit, BitVec.getLsbD_xor, htop, ← BitVec.msb_eq_getLsbD_last (x := a),
    BitVec.shiftLeft_xor_distrib, ← BitVec.shiftLeft_add]
  split
  · ac_rfl
  · simp

/-- After `n` bits of the serial CRC the accumulator, with the bits still to come, is `n` rounds of R85. -/
theorem crcRound_iterate (acc b : Byte) {n : Nat} (hn : n ≤ 8) : crcRound^[n] (acc ^^^ b) =
    ((List.range n).map (7 - ·)).foldl (fun a i => serialBit a (b.getLsbD i)) acc ^^^ b <<< n := by
  induction n with
  | zero => simp
  | succ n ih =>
    rw [Function.iterate_succ_apply', ih (by omega), crcRound_xor_shiftLeft _ b (by omega), List.range_succ,
      List.map_append, List.foldl_append]
    rfl

/-- A byte of the serial CRC is a fold step over the table: after 8 bits none is still to come. -/
theorem serialByte_eq_crcStep (acc b : Byte) : serialByte acc b = crcStep crcTable acc b := by
  have hbits : crcEntry (acc ^^^ b) = serialByte acc b ^^^ b <<< 8 := crcRound_iterate acc b le_rfl
  rw [crcStep_crcTable, hbits, BitVec.shiftLeft_eq_zero le_rfl, BitVec.xor_zero]

/-- Settles O14: both are folds from 0 of the same step. -/
theorem checksumIsBitSerialCrc : Obligations.ChecksumIsBitSerialCrc := by
  unfold Obligations.ChecksumIsBitSerialCrc
  intro bs
  rw [serialCrc, funext₂ serialByte_eq_crcStep]
  rfl

/-! ### The laws of the table and the checksum (R92) -/

/-- Reading the table at a byte. -/
theorem crcTable_toFin (a : Byte) : crcTable[a.toFin] = crcEntry a := crcTable_get a.toFin

theorem crcTable_xor (a b : Byte) : crcTable[(a ^^^ b).toFin] = crcTable[a.toFin] ^^^ crcTable[b.toFin] := by
  rw [crcTable_toFin, crcTable_toFin, crcTable_toFin, crcEntry_xor]

/-- A list with one more byte has the checksum 0 exactly where that byte is the list's own checksum. -/
theorem crc8_append_eq_zero_iff (bs : List Byte) (c : Byte) :
    crc8 crcTable (bs ++ [c]) = 0 ↔ crc8 crcTable bs = c := by
  have hlast : crc8 crcTable (bs ++ [c]) = crcEntry (crc8 crcTable bs ^^^ c) := by
    rw [crc8, crcFold_append]
    exact crcStep_crcTable _ c
  rw [hlast]
  constructor
  · exact fun h => BitVec.xor_eq_zero_iff.1 (crcEntry_eq_zero _ h)
  · rintro rfl
    rw [BitVec.xor_self]
    exact crcEntry_zero

/-- Settles O15, by the linearity of an entry, the fold of an append, and the checksum of a list with its own
checksum appended. -/
theorem checksumLaws : Obligations.ChecksumLaws := by
  unfold Obligations.ChecksumLaws
  refine ⟨fun i hi => ?_, crcTable_xor, rfl, fun as bs => crcFold_append crcTable 0 as bs,
    fun bs => (crc8_append_eq_zero_iff bs _).2 rfl⟩
  rw [crcTable_get, show i = 0 from Fin.ext hi]
  exact crcEntry_zero

/-! ### A change of one byte (R93) -/

/-- Only the byte that stood there leaves the fold as it was. -/
theorem crcFold_set {bs : List Byte} {acc x : Byte} {i : Nat} (hi : i < bs.length)
    (h : crcFold crcTable acc (bs.set i x) = crcFold crcTable acc bs) : x = bs.getD i 0 := by
  induction bs generalizing acc i with
  | nil => exact absurd hi (Nat.not_lt_zero i)
  | cons b bs ih =>
    cases i with
    | zero =>
      rw [List.set_cons_zero, crcFold_cons, crcFold_cons] at h
      have hstep := crcFold_injective bs h
      rw [crcStep_crcTable, crcStep_crcTable] at hstep
      exact (BitVec.xor_right_inj acc).1 (crcEntry_injective hstep)
    | succ i =>
      rw [List.set_cons_succ, crcFold_cons, crcFold_cons] at h
      exact ih (Nat.lt_of_succ_lt_succ hi) h

/-- A record verifies exactly where its checksum, the checksum byte included, is 0 (R92, R135). -/
theorem verify_iff_crc8_eq_zero {p : Params} {r : List Byte} (hr : r.length = p.recLen) :
    verify p crcTable r = true ↔ crc8 crcTable r = 0 := by
  have hspan : p.crcSpan < r.length := by rw [hr]; exact Nat.lt_succ_self _
  have hsplit : r = r.take p.crcSpan ++ [r.getD p.crcSpan 0] := by
    rw [List.getD_eq_getElem _ _ hspan, List.take_append_getElem hspan]
    exact (List.take_of_length_le hr.le).symm
  rw [verify, beq_iff_eq, ← crc8_append_eq_zero_iff, ← hsplit]

/-- Of two records that differ in one byte at most one verifies. -/
theorem verify_set {p : Params} {r : List Byte} {i : Nat} {x : Byte} (hr : r.length = p.recLen)
    (hi : i < p.recLen) (h : verify p crcTable r = true) (hx : verify p crcTable (r.set i x) = true) :
    x = r.getD i 0 := by
  rw [verify_iff_crc8_eq_zero hr] at h
  rw [verify_iff_crc8_eq_zero (by rw [List.length_set, hr])] at hx
  exact crcFold_set (hr ▸ hi) (hx.trans h.symm)

/-- Settles O16: an injective map of bytes is a bijection, and a one-byte change moves the fold. -/
theorem oneByteChangeIsDetected : Obligations.OneByteChangeIsDetected := by
  unfold Obligations.OneByteChangeIsDetected
  refine ⟨Finite.injective_iff_bijective.1 fun a b h => ?_, crcTable_xor,
    fun bs i x hi hx h => hx (crcFold_set hi h),
    fun p r i x hr hv hi hx => Bool.eq_false_iff.2 fun h => hx (verify_set hr hi hv h)⟩
  exact crcEntry_injective (by rwa [← crcTable_toFin, ← crcTable_toFin])

/-! ### The Check step over a corrupted record (R154, R166) -/

/-- Where the record region does not verify, Check reports it and stays (R154). -/
theorem sequencerStep_check_fails {s : State} (hp : s.params.WellFormed) (hq : s.seqState = 3#3)
    (hv : verify s.params s.table (recordBytes s) = false) :
    sequencerStep s = { s with obs := loadBuffer s.obs (recordBytes s), seqErr := .checksum,
                               events := s.events ++ [.crcFail] } := by
  have hstep : sequencerStep s = seqCheck s := by simp [sequencerStep, hq]
  rw [hstep, seqCheck, record_readOp hp]
  exact if_neg (Bool.eq_false_iff.1 hv)

/-- Flipping a bit changes a byte. -/
theorem xor_bit_ne_self (b : Byte) {k : Nat} (hk : k < 8) : b ^^^ 1#8 <<< k ≠ b := by
  intro h
  have hbit : (1#8 <<< k).getLsbD k = true := by simp [hk]
  rw [(BitVec.xor_right_inj b).1 (h.trans BitVec.xor_zero.symm), BitVec.getLsbD_zero] at hbit
  exact Bool.false_ne_true hbit

/-- Settles O43: the region with the bit flipped verifies, so the region itself, one byte away from it, does not. -/
theorem singleBitCorruptionStopsAtCheck : Obligations.SingleBitCorruptionStopsAtCheck := by
  unfold Obligations.SingleBitCorruptionStopsAtCheck
  intro s i k hp ht hq hi hk hflip
  rw [ht.2] at hflip
  have hv : verify s.params crcTable (recordBytes s) = false := Bool.eq_false_iff.2 fun hv =>
    xor_bit_ne_self _ hk (verify_set (Memory.readBytes_length _ _ _) hi hv hflip)
  exact ⟨_, sequencerStep_check_fails hp hq (by rwa [ht.2])⟩

end Sys2Proof.Machine
end

section
/-! SUPPORT. The flash commands past their checks (41_flash.md R104, R110 to R115, R120 to R122): what each of them
rejects, and what FL_ERASE does under the no-fault oracle, under every oracle, and at a chosen fault. -/

namespace Sys2Proof.Machine

open Sys2Proof.Safety

/-! ### The flash commands past their checks (R120, R121, R122) -/

/-- Loading no byte leaves the buffer as it is. -/
@[simp] theorem loadBuffer_nil (b : Vector Byte 16) : loadBuffer b [] = b := by
  refine Vector.ext fun i hi => ?_
  exact loadBuffer_get b [] ⟨i, hi⟩

/-- FL_READ ends with `Read`'s code and its bytes in DBUF (R120). -/
theorem exec_flRead {s : State} {c : Code} {bs : List Byte} (h : Ready s) (hl : s.len.toNat ≤ 16)
    (hr : s.readOp s.addr.toNat s.len.toNat = (c, bs)) :
    exec .flRead s = .next { s with dbuf := loadBuffer s.dbuf bs, err := c, busy := false } := by
  rw [exec_of_check_ok (i := .flRead) (check_ok h nofun fun _ => hl)]
  simp only [performOf, performFlRead, State.addrOperand, State.lenOperand, hr]
  rfl

/-- FL_ERASE ends with `Erase`'s code and state (R121). -/
theorem exec_flErase {s t : State} {c : Code} (h : Ready s) (he : s.eraseOp s.addr.toNat = (c, t)) :
    exec .flErase s = .next (t.finish c) := by
  rw [exec_of_check_ok (i := .flErase) (check_ok h nofun nofun)]
  simp only [performOf, performFlErase, State.addrOperand, he]

/-- FL_PROGRAM ends with `Program`'s code and state (R122). -/
theorem exec_flProgram {s t : State} {c : Code} (h : Ready s) (hl : s.len.toNat ≤ 16)
    (hp : s.programOp s.addr.toNat s.dbufOperand = (c, t)) : exec .flProgram s = .next (t.finish c) := by
  rw [exec_of_check_ok (i := .flProgram) (check_ok h nofun fun _ => hl)]
  simp only [performOf, performFlProgram, State.addrOperand, hp]

/-- Settles O18: the checks pass, and `Read` answers the error with no byte. -/
theorem flReadRejects : Obligations.FlReadRejects := by
  unfold Obligations.FlReadRejects
  refine fun s h => ⟨fun h0 => ?_, fun hpos hl hout => ?_⟩
  · rw [exec_flRead h (by omega) (h0 ▸ readOp_zero s s.addr.toNat), loadBuffer_nil]
  · rw [exec_flRead h hl (readOp_outside (Nat.ne_of_gt hpos) hout), loadBuffer_nil]

/-- Settles O19: `Erase` answers the code and the state as it was. -/
theorem flEraseRejects : Obligations.FlEraseRejects := by
  unfold Obligations.FlEraseRejects
  exact fun s h => ⟨fun hout => exec_flErase h (eraseOp_outside hout),
    fun hlo hhi hmis => exec_flErase h (eraseOp_misaligned hlo hhi hmis)⟩

/-- Settles O23: `Program` answers the code and the state as it was. -/
theorem flProgramRejects : Obligations.FlProgramRejects := by
  unfold Obligations.FlProgramRejects
  refine fun s h hl => ⟨fun hlow => exec_flProgram h hl (programOp_below _ hlow),
    fun hlo hmis => exec_flProgram h hl (programOp_misaligned _ hlo hmis), fun hd h0 => ?_⟩
  have hempty : s.dbufOperand = [] := List.length_eq_zero_iff.1 ((dbufOperand_length hl).trans h0)
  exact exec_flProgram h hl (hempty ▸ programOp_empty hd)

/-! ### FL_ERASE (R110, R112, R113, R121) -/

/-- Settles O20, by what `Erase` does under the no-fault oracle. -/
theorem flEraseErasesToUserEnd : Obligations.FlEraseErasesToUserEnd := by
  unfold Obligations.FlEraseErasesToUserEnd
  intro s h hp hw hq ha
  obtain ⟨f, o, he, -, -, hread⟩ := eraseOp_quiet hp ha hw hq
  exact ⟨f, o, exec_flErase h he, hread⟩

/-- Settles O21, by what `Erase` can do whatever the oracle answers, and its frame outside the range. -/
theorem flErasePartialOutcomes : Obligations.FlErasePartialOutcomes := by
  unfold Obligations.FlErasePartialOutcomes
  intro s h hp hw ha
  obtain ⟨-, -, hsame⟩ := eraseOp_sameOutside hp ha hw
  obtain ⟨c, f, o, he, -, hc⟩ := eraseOp_spec hp ha hw
  rw [he] at hsame
  exact ⟨c, f, o, exec_flErase h he, hsame, hc⟩

/-- A page whose answer is FAULT ends the erase loop with drawn bytes in it (R110, R112). -/
theorem eraseLoop_fault {s : State} {o : Oracle} (n : Nat) {p : Nat} (hl : s.lock = false)
    (hd : s.oracle.drawErase p = (.fault, o)) :
    eraseLoop (n + 1) p s = (.eraseHw, { s with
      flash := s.flash.writeBytes (Params.pageAddr s.params p)
        (o.drawBytes (Params.pageAddr s.params p) s.params.pageSize).1,
      oracle := (o.drawBytes (Params.pageAddr s.params p) s.params.pageSize).2 }) := by
  simp only [eraseLoop, hd]
  rw [flashDrawBytes_unlocked (by exact hl)]

/-- Where the oracle answers NONE for k pages of the range and FAULT for the next, `Erase` stops there with drawn
bytes `bs` in that page, the listed ones where a page of them is listed: the pages before are erased, every other
byte is as before (R110, R112, R124). -/
theorem eraseOp_fault_draws {s : State} {a k : Nat} {rest : List EraseDraw} (hp : s.params.WellFormed)
    (ha : EraseStart s.params a) (hw : Memory.wf s.flash)
    (hx : s.oracle.eraseAnswers = List.replicate k .none ++ .fault :: rest)
    (hk : a + (k + 1) * s.params.pageSize ≤ s.params.userEnd) :
    ∃ f o bs, s.eraseOp a = (.eraseHw, { s with flash := f, oracle := o, lock := true }) ∧
      (s.oracle.byteAnswers.length = s.params.pageSize → bs = s.oracle.byteAnswers) ∧
      ∀ x, Memory.read f x =
        if a ≤ x ∧ x < a + k * s.params.pageSize then Config.erased
        else if a + k * s.params.pageSize ≤ x ∧ x < a + (k + 1) * s.params.pageSize then
          bs.getD (x - (a + k * s.params.pageSize)) Config.erased
        else Memory.read s.flash x := by
  have hps := page_pos hp
  have hsucc : (k + 1) * s.params.pageSize = k * s.params.pageSize + s.params.pageSize := Nat.succ_mul _ _
  have hpages : ¬ Params.pageOf s.params s.params.userEnd - Params.pageOf s.params a ≤ k := by
    rw [pages_le hp ha]; omega
  obtain ⟨n, hn⟩ := Nat.exists_eq_succ_of_ne_zero
    (show Params.pageOf s.params s.params.userEnd - Params.pageOf s.params a - k ≠ 0 by omega)
  obtain ⟨f, m, he, hf, hread⟩ := eraseLoop_prefix s.params k
    (Params.pageOf s.params s.params.userEnd - Params.pageOf s.params a) (Params.pageOf s.params a) s.unlock
    (.fault :: rest) rfl rfl hw (by omega) hx
  rw [pageAddr_add ha, pageAddr_pageOf ha.1 ha.2.2] at hread
  rw [eraseOp_eq ha, he, hn, eraseLoop_fault n rfl (Oracle.drawErase_listed _ rfl)]
  simp only [State.unlock_params, pageAddr_add ha]
  refine ⟨_, _, (Oracle.drawBytes { s.oracle with eraseAnswers := rest, drawn := m + 1 }
    (a + k * s.params.pageSize) s.params.pageSize).1, rfl, fun hlen => ?_, fun x => ?_⟩
  · exact hlen ▸ Oracle.drawBytes_listed _ _ _ [] (List.append_nil _).symm
  · simp only
    rw [Memory.read_writeBytes _ _ _ _ hf, Oracle.drawBytes_length, hread x, hsucc, Nat.add_assoc]
    by_cases hx1 : a ≤ x ∧ x < a + k * s.params.pageSize
    · rw [if_neg (by omega), if_pos hx1, if_pos hx1]
    · rw [if_neg hx1, if_neg hx1]
      rfl

/-- The no-fault oracle with answers listed for the three kinds of draw (R124). -/
def listedOracle (e : List EraseDraw) (p : List ProgramDraw) (bs : List Byte) : Oracle :=
  { eraseAnswers := e, programAnswers := p, byteAnswers := bs, noFault := true, drawn := 0 }

/-- The n bytes that `v` gives from `a` on. -/
def bytesFrom (v : Nat → Byte) (a n : Nat) : List Byte := (List.range n).map fun i => v (a + i)

@[simp] theorem bytesFrom_length (v : Nat → Byte) (a n : Nat) : (bytesFrom v a n).length = n := by
  simp [bytesFrom]

theorem bytesFrom_getD (v : Nat → Byte) {a n i : Nat} (x : Byte) (hi : i < n) :
    (bytesFrom v a n).getD i x = v (a + i) := by
  simp [bytesFrom, List.getD_eq_getElem?_getD, hi]

/-- Settles O22: page k holds the bytes the oracle draws, and an oracle lists the chosen ones. -/
theorem everyEraseFaultIsAdmitted : Obligations.EveryEraseFaultIsAdmitted := by
  unfold Obligations.EveryEraseFaultIsAdmitted
  intro s k v h hp hw ha hk
  have hsucc : (k + 1) * s.params.pageSize = k * s.params.pageSize + s.params.pageSize := Nat.succ_mul _ _
  refine ⟨?_, fun rest hx => ?_⟩
  · obtain ⟨o, ho⟩ : ∃ o, o = listedOracle (List.replicate k .none ++ [.fault]) []
      (bytesFrom v (s.addr.toNat + k * s.params.pageSize) s.params.pageSize) := ⟨_, rfl⟩
    have hx : o.eraseAnswers = List.replicate k .none ++ [.fault] := congrArg Oracle.eraseAnswers ho
    have hv : o.byteAnswers = bytesFrom v (s.addr.toNat + k * s.params.pageSize) s.params.pageSize :=
      congrArg Oracle.byteAnswers ho
    obtain ⟨f, o', bs, he, hbs, hread⟩ := eraseOp_fault_draws (s := { s with oracle := o }) hp ha hw hx hk
    refine ⟨o, f, o', hx, exec_flErase (s := { s with oracle := o }) h he, fun a => ?_⟩
    simp only [hv, bytesFrom_length, forall_const] at hbs hread
    rw [hread a, hbs]
    split
    · rfl
    · split
      · rename_i hpage
        rw [bytesFrom_getD v _ (by omega), Nat.add_sub_cancel' hpage.1]
      · rfl
  · obtain ⟨f, o, bs, he, -, hread⟩ := eraseOp_fault_draws hp ha hw hx hk
    refine ⟨f, o, exec_flErase h he, fun a h1 h2 => ?_, fun a hout => ?_⟩
    · rw [hread a, if_pos ⟨h1, h2⟩]
    · rw [hread a, if_neg (by omega), if_neg (by omega)]

end Sys2Proof.Machine
end

section
/-! SUPPORT. FL_PROGRAM (41_flash.md R114 to R119, R122, R124, R126): what it can do under every oracle, where it must
stop, and the faults it admits. -/

namespace Sys2Proof.Machine

open Sys2Proof.Safety

/-! ### FL_PROGRAM under every oracle (R114, R122, R126) -/

/-- Byte i of the units that FL_PROGRAM writes: the operand's byte, or the padding (R119). -/
theorem dbufOperand_padded {s : State} (hl : s.len.toNat ≤ 16) (i : Nat) :
    s.dbufOperand.getD i Config.erased = padded s.dbuf s.len.toNat i := by
  unfold padded
  split
  · exact dbufOperand_getD _ (by assumption) hl
  · exact List.getD_eq_default _ _ (by rw [dbufOperand_length hl]; omega)

/-- FL_PROGRAM of at least one byte from a legal destination, whatever the oracle answers: what `Program` can do, said
of the buffer. -/
theorem exec_flProgram_spec {s : State} (h : Ready s) (hw : Memory.wf s.flash)
    (hd : ProgramStart s.params s.addr.toNat) (hpos : 0 < s.len.toNat) (hl : s.len.toNat ≤ 16) :
    ∃ c f o, exec .flProgram s =
        .next { s with flash := f, oracle := o, lock := true, err := c, busy := false } ∧
      (∀ a, a < s.addr.toNat ∨ s.addr.toNat + unitSpan s.len.toNat ≤ a ∨ s.params.userEnd ≤ a →
        Memory.read f a = Memory.read s.flash a) ∧
      (c = .ok → Programmed s f s.addr.toNat ((s.len.toNat + 7) / 8) (padded s.dbuf s.len.toNat)) ∧
      (c ≠ .ok → ∃ k, k < (s.len.toNat + 7) / 8 ∧
        StoppedAt s f s.addr.toNat k c (padded s.dbuf s.len.toNat)) := by
  have hlen := dbufOperand_length hl
  obtain ⟨c, f, o, hp, -, -, hsame, hok, hno⟩ := programOp_spec (bs := s.dbufOperand) hd (by omega) hw
  simp only [hlen, dbufOperand_padded hl] at hsame hok hno
  exact ⟨c, f, o, exec_flProgram h hl hp, hsame, hok, hno⟩

/-- Settles O27: a rejected destination and an empty program change nothing, and otherwise `Program` can do what it
can under any oracle. -/
theorem flProgramOkMeansFlashHoldsTheData : Obligations.FlProgramOkMeansFlashHoldsTheData := by
  unfold Obligations.FlProgramOkMeansFlashHoldsTheData
  intro s h hw hl
  by_cases hlow : s.addr.toNat < s.params.flashBase
  · refine ⟨_, s.flash, s.oracle, s.lock, exec_flProgram h hl (programOp_below _ hlow), id, fun _ _ => rfl,
      fun _ => ⟨rfl, (if_pos hlow).symm⟩, nofun, fun hd => absurd hd.1 (Nat.not_le.2 hlow)⟩
  by_cases halign : s.addr.toNat % 8 = 0
  · have hd : ProgramStart s.params s.addr.toNat := ⟨Nat.le_of_not_lt hlow, halign⟩
    rcases Nat.eq_zero_or_pos s.len.toNat with h0 | hpos
    · have hempty : s.dbufOperand = [] := List.length_eq_zero_iff.1 ((dbufOperand_length hl).trans h0)
      refine ⟨.ok, s.flash, s.oracle, s.lock, exec_flProgram h hl (hempty ▸ programOp_empty hd), id, fun _ _ => rfl,
        fun hnd => absurd hd hnd, fun _ => ?_, fun _ hne => absurd rfl hne⟩
      rw [h0]
      exact programmed_zero ..
    · obtain ⟨c, f, o, he, hsame, hok, hno⟩ := exec_flProgram_spec h hw hd hpos hl
      exact ⟨c, f, o, true, he, fun _ => rfl, hsame, fun hnd => absurd hd hnd, hok, fun _ => hno⟩
  · refine ⟨_, s.flash, s.oracle, s.lock, exec_flProgram h hl (programOp_misaligned _ (Nat.le_of_not_lt hlow) halign),
      id, fun _ _ => rfl, fun _ => ⟨rfl, (if_neg hlow).symm⟩, nofun, fun hd => absurd hd.2 halign⟩

/-- Settles O24, by what `Program` does under the no-fault oracle; the padding was erased already. -/
theorem flProgramWritesTheBuffer : Obligations.FlProgramWritesTheBuffer := by
  unfold Obligations.FlProgramWritesTheBuffer
  intro s h hw hq hd hpos hl hend her
  have hlen := dbufOperand_length hl
  obtain ⟨f, o, hp, -, -, hread⟩ := programOp_quiet (bs := s.dbufOperand) hd (by omega) hw hq
    (by rw [hlen]; exact hend) (by rw [hlen]; exact her)
  refine ⟨f, o, exec_flProgram h hl hp, fun a => ?_⟩
  rw [hread a, dbufOperand_padded hl, hlen]
  unfold padded
  by_cases hin : s.addr.toNat ≤ a ∧ a < s.addr.toNat + s.len.toNat
  · rw [if_pos ⟨hin.1, by unfold unitSpan; omega⟩, if_pos (by omega), if_pos hin]
  · rw [if_neg hin]
    split
    · rename_i hpad
      rw [if_neg (by omega), her a hpad.1 hpad.2]
    · rfl

/-! ### Where FL_PROGRAM must stop (R116, R118, R126) -/

/-- The k-th next answer of the no-fault oracle is NONE. -/
theorem not_mayAnswer_of_quiet {o : Oracle} (hq : o.Quiet) (k : Nat) {x : ProgramDraw} (hx : x ≠ .none) :
    ¬ MayAnswer o.programAnswers o.noFault k x := by
  obtain ⟨hnoFault, -, hnone⟩ := hq
  rintro (hlisted | ⟨-, hnf⟩)
  · exact hx (hnone x (List.mem_of_getElem? hlisted))
  · exact Bool.false_ne_true (hnf.symm.trans hnoFault)

/-- An answer listed as NONE is no fault. -/
theorem not_mayAnswer_of_listed {o : Oracle} {n k : Nat} {rest : List ProgramDraw} {x : ProgramDraw}
    (ho : o.programAnswers = List.replicate n .none ++ rest) (hk : k < n) (hx : x ≠ .none) :
    ¬ MayAnswer o.programAnswers o.noFault k x := by
  have hk' : o.programAnswers[k]? = some .none := by
    rw [ho, List.getElem?_append_left (by simpa using hk), List.getElem?_replicate_of_lt hk]
  rintro (hlisted | ⟨hnone, -⟩)
  · exact hx (Option.some.inj (hlisted.symm.trans hk'))
  · exact Option.some_ne_none _ (hk'.symm.trans hnone)

/-- Without a fault at unit k a program stops there because the unit is past the area or was not erased, and neither
that unit nor what follows is changed (R116, R118). -/
theorem stopCause_without_fault {s : State} {f : Memory} {d k : Nat} {c : Code} {w : Nat → Byte}
    (hn : ∀ x, x ≠ .none → ¬ MayAnswer s.oracle.programAnswers s.oracle.noFault k x) (h : StopCause s f d k c w) :
    (c = .writeRange ∧ s.params.userEnd < d + 8 * (k + 1) ∨
     c = .writeHw ∧ d + 8 * (k + 1) ≤ s.params.userEnd ∧
       ∃ j, j < 8 ∧ Memory.read s.flash (d + (8 * k + j)) ≠ 0xFF#8) ∧
    ∀ a, d + 8 * k ≤ a → Memory.read f a = Memory.read s.flash a := by
  rcases h with ⟨hc, hend, hsame⟩ | ⟨hc, hend, hne, hsame⟩ | ⟨-, -, ⟨-, hmay⟩ | ⟨-, hmay, -⟩⟩
  · exact ⟨.inl ⟨hc, hend⟩, hsame⟩
  · exact ⟨.inr ⟨hc, hend, hne⟩, hsame⟩
  · exact absurd hmay (hn _ nofun)
  · exact absurd hmay (hn _ nofun)

/-- What flash holds where a program of the buffer stopped at unit k without changing it. -/
theorem stoppedAt_read {s : State} {f : Memory} {d k n : Nat} {c : Code} {b : Vector Byte 16}
    (h : StoppedAt s f d k c (padded b n)) (hk : 8 * k ≤ n)
    (hsame : ∀ a, d + 8 * k ≤ a → Memory.read f a = Memory.read s.flash a) (a : Nat) :
    Memory.read f a = if d ≤ a ∧ a < d + 8 * k then b.toList.getD (a - d) 0 else Memory.read s.flash a := by
  split
  · rename_i ha
    have hhold := h.earlier.holds (a - d) (by omega)
    rw [Nat.add_sub_cancel' ha.1] at hhold
    exact hhold.trans (if_pos (by omega))
  · rcases Nat.lt_or_ge a d with hlow | hlow
    · exact h.others a (.inl hlow)
    · exact hsame a (by omega)

/-- Settles O25: the first unit by its own rule; unit k because no other unit can stop the program and none after it
is reached. -/
theorem flProgramOverNonErasedFails : Obligations.FlProgramOverNonErasedFails := by
  unfold Obligations.FlProgramOverNonErasedFails
  intro s h hd hpos hl
  refine ⟨fun hend hne => exec_flProgram h hl (programOp_notErased hd ?_ hend hne), ?_⟩
  · rw [dbufOperand_length hl]
    omega
  intro k hw hk hend her ⟨j, hj, hne⟩ hnone
  obtain ⟨c, f, o, he, -, hok, hno⟩ := exec_flProgram_spec h hw hd hpos hl
  have hc : c ≠ .ok := fun hc => hne ((hok hc).erased _ (by omega))
  obtain ⟨i, -, hstop⟩ := hno hc
  have hle : i ≤ k := by
    by_contra hlt
    exact hne (hstop.earlier.erased _ (by omega))
  have hik : i = k := by
    rcases Nat.lt_or_eq_of_le hle with hlt | heq
    · have hn : ∀ x, x ≠ .none → ¬ MayAnswer s.oracle.programAnswers s.oracle.noFault i x := fun x hx =>
        hnone.elim (fun hq => not_mayAnswer_of_quiet hq i hx) fun ⟨_, ho⟩ => not_mayAnswer_of_listed ho hlt hx
      rcases (stopCause_without_fault hn hstop.cause).1 with ⟨-, hpast⟩ | ⟨-, -, j', hj', hne'⟩
      · omega
      · exact absurd (her _ (by omega)) hne'
    · exact heq
  subst hik
  rcases hstop.cause with ⟨-, hpast, -⟩ | ⟨rfl, -, -, hsame⟩ | ⟨-, herased, -⟩
  · omega
  · exact ⟨f, o, he, stoppedAt_read hstop (by omega) hsame⟩
  · exact absurd (herased j hj) hne

/-- A first unit that is not wholly below USER_END stops `Program` with WRITE_RANGE and nothing changed (R118). -/
theorem programOp_pastEnd {s : State} {d : Nat} {bs : List Byte} (hd : ProgramStart s.params d)
    (hb : bs.length ≠ 0) (hend : s.params.userEnd < d + 8) :
    s.programOp d bs = (.writeRange, { s with lock := true }) := by
  obtain ⟨u, us, hus⟩ := List.exists_cons_of_length_pos
    (show 0 < (unitsOf bs).length by rw [unitsOf_length]; omega)
  have hloop : programLoop (unitsOf bs) d s.unlock = (.writeRange, s.unlock) := by
    rw [hus, programLoop, if_pos (by exact hend)]
  rw [programOp_eq hd hb, hloop]
  rfl

/-- Settles O26: the first unit by its own rule; with the first unit at USER_END - 8 the program stops at the second,
since nothing else can stop it. -/
theorem flProgramStopsAtUserEnd : Obligations.FlProgramStopsAtUserEnd := by
  unfold Obligations.FlProgramStopsAtUserEnd
  intro s h hd hpos hl
  refine ⟨fun hend => exec_flProgram h hl (programOp_pastEnd hd ?_ hend), ?_⟩
  · rw [dbufOperand_length hl]
    omega
  intro hlast hsecond hw hq her
  obtain ⟨c, f, o, he, -, hok, hno⟩ := exec_flProgram_spec h hw hd hpos hl
  have hc : c ≠ .ok := fun hc => by
    have := (hok hc).inArea 1 (by omega)
    omega
  obtain ⟨k, hk, hstop⟩ := hno hc
  obtain ⟨hcause, hsame⟩ := stopCause_without_fault (fun _ => not_mayAnswer_of_quiet hq k) hstop.cause
  have hk1 : k = 1 := by
    by_contra hne
    obtain rfl : k = 0 := by omega
    rcases hcause with ⟨-, hpast⟩ | ⟨-, -, j, hj, hne⟩
    · omega
    · exact hne (her _ (by omega))
  subst hk1
  rcases hcause with ⟨rfl, -⟩ | ⟨-, hin, -⟩
  · refine ⟨f, o, he, ?_⟩
    rw [← hlast]
    exact stoppedAt_read hstop (by omega) hsame
  · omega

end Sys2Proof.Machine
end

section
/-! SUPPORT. The faults that FL_PROGRAM admits (41_flash.md R114, R117, R124, R126): what a listed fault at one unit
leaves, and how the program ends or goes on after it. -/

namespace Sys2Proof.Machine

open Sys2Proof.Safety

/-! ### A fault at unit k (R114, R117, R126) -/

/-- The read-back of a unit, byte by byte (R117). -/
theorem flashRead_eq_unitAt_iff {s : State} {d k : Nat} {bs : List Byte} : s.flashRead d 8 = unitAt bs k ↔
    ∀ j, j < 8 → Memory.read s.flash (d + j) = bs.getD (8 * k + j) Config.erased := by
  constructor
  · intro h j hj
    rw [← unitAt_getD bs k j hj Config.erased, ← h]
    exact (Memory.readBytes_getD _ _ _ _ _ hj).symm
  · intro h
    rw [← unitAt_length bs k]
    refine Memory.readBytes_eq fun j hj => ?_
    rw [unitAt_length] at hj
    rw [h j hj, unitAt_getD bs k j hj]

theorem unitsOf_drop (bs : List Byte) {k : Nat} (hk : k < (bs.length + 7) / 8) :
    (unitsOf bs).drop k = unitAt bs k :: (unitsOf bs).drop (k + 1) := by
  rw [List.drop_eq_getElem_cons (by rwa [unitsOf_length])]
  simp [unitsOf]

theorem faultLeaves_congr {m f : Memory} {d k : Nat} {w w' v : Nat → Byte} (h : FaultLeaves m f d k w v)
    (e : ∀ i, i < 8 * k → w i = w' i) : FaultLeaves m f d k w' v := by
  intro a
  rw [h a]
  split
  · exact e _ (by omega)
  · rfl

/-- The chosen bytes of unit k, where a fault left them. -/
theorem faultLeaves_read_unit {m f : Memory} {d k j : Nat} {w v : Nat → Byte} (h : FaultLeaves m f d k w v)
    (hj : j < 8) : Memory.read f (d + 8 * k + j) = v j := by
  rw [h, if_neg (by omega), if_pos (by omega), Nat.add_sub_cancel_left]

/-- The loop of a program whose k-th unit is the first to get a fault, over erased units up to it, by what the fault
leaves: a reported fault ends it, a silent one goes on exactly where the bytes left are the unit's (R114, R117). -/
theorem programLoop_listedFault {s : State} {d k : Nat} {bs : List Byte} {x : ProgramDraw} {v : Nat → Byte}
    (hl : s.lock = false) (hw : Memory.wf s.flash) (hk : k < (bs.length + 7) / 8)
    (hend : d + 8 * (k + 1) ≤ s.params.userEnd)
    (her : ∀ j, j < 8 * (k + 1) → Memory.read s.flash (d + j) = Config.erased) (hx : x ≠ .none)
    (ho : s.oracle = listedOracle [] (List.replicate k .none ++ [x]) (bytesFrom v 0 8)) :
    ∃ f o, Memory.wf f ∧ o.Quiet ∧ FaultLeaves s.flash f d k (fun i => bs.getD i Config.erased) v ∧
      programLoop (unitsOf bs) d s =
        if x = .hwFault then (.writeHw, { s with flash := f, oracle := o })
        else if ¬ ∀ j, j < 8 → v j = bs.getD (8 * k + j) Config.erased then
          (.writeVerify, { s with flash := f, oracle := o })
        else programLoop ((unitsOf bs).drop (k + 1)) (d + 8 * (k + 1)) { s with flash := f, oracle := o } := by
  obtain ⟨g, n, hloop, hg, hread⟩ := programLoop_prefix k (unitsOf bs) d s [x] hl hw (fun u hu => unitsOf_lengths hu)
    (by rw [unitsOf_length]; omega) (congrArg Oracle.programAnswers ho) (by omega) (fun j hj => her j (by omega))
  obtain ⟨o, hdraw, hbytes, hquiet⟩ : ∃ o,
      Oracle.drawProgram { s.oracle with programAnswers := [x], drawn := n } (d + 8 * k) = (x, o) ∧
      (o.drawBytes (d + 8 * k) 8).1 = bytesFrom v 0 8 ∧ o.Quiet := by
    refine ⟨_, Oracle.drawProgram_listed _ rfl, ?_, ?_⟩
    · exact Oracle.drawBytes_listed _ _ (bytesFrom v 0 8) [] (by simp [ho, listedOracle])
    · simp [Oracle.Quiet, ho, listedOracle]
  have hleaves : FaultLeaves s.flash (g.writeBytes (d + 8 * k) (o.drawBytes (d + 8 * k) 8).1) d k
      (fun i => bs.getD i Config.erased) v := by
    intro a
    rw [Memory.read_writeBytes _ _ _ _ hg, hbytes, bytesFrom_length, hread a]
    by_cases hbefore : d ≤ a ∧ a < d + 8 * k
    · rw [if_neg (by omega), if_pos hbefore, if_pos hbefore, unitsByte_unitsOf _ (by unfold unitSpan; omega)]
    · rw [if_neg hbefore, if_neg hbefore, Nat.mul_succ, ← Nat.add_assoc]
      split
      · rw [bytesFrom_getD _ _ (by omega), Nat.zero_add]
      · rfl
  refine ⟨_, _, Memory.writeBytes_wf _ _ hg, Oracle.drawBytes_quiet (d + 8 * k) 8 hquiet, hleaves, ?_⟩
  have hunit : State.flashRead { s with flash := g, oracle := { s.oracle with programAnswers := [x], drawn := n } }
      (d + 8 * k) 8 = erasedUnit := flashRead_erased fun j hj => by
    simp only
    rw [hread, if_neg (by omega), Nat.add_assoc]
    exact her _ (by omega)
  rw [hloop, unitsOf_drop bs hk, programLoop_faulted (by exact hl) (by exact hend) hunit hdraw hx]
  simp only [Ne, flashRead_eq_unitAt_iff]
  have hback : (∀ j, j < 8 → Memory.read (g.writeBytes (d + 8 * k) (o.drawBytes (d + 8 * k) 8).1) (d + 8 * k + j) =
      bs.getD (8 * k + j) Config.erased) ↔ ∀ j, j < 8 → v j = bs.getD (8 * k + j) Config.erased :=
    forall₂_congr fun j hj => by rw [faultLeaves_read_unit hleaves hj]
  simp only [State.faulted_flash, hback]
  rfl

/-- What a program does after its k-th unit, under the no-fault oracle: no read-back differs, the units up to k are left
alone, and where k is the last unit there is nothing more to do. -/
theorem programLoop_rest {s : State} {d k : Nat} {bs : List Byte} (hl : s.lock = false) (hw : Memory.wf s.flash)
    (hq : s.oracle.Quiet) :
    ∃ c f o, programLoop ((unitsOf bs).drop k) d s = (c, { s with flash := f, oracle := o }) ∧ c ≠ .writeVerify ∧
      (∀ a, a < d → Memory.read f a = Memory.read s.flash a) ∧
      (bs.length ≤ 8 * k → c = .ok ∧ ∀ a, Memory.read f a = Memory.read s.flash a) := by
  have hunits : ∀ u ∈ (unitsOf bs).drop k, u.length = 8 := fun u hu => unitsOf_lengths (List.mem_of_mem_drop hu)
  obtain ⟨c, f, o, he, -, -, hsame, -, hno⟩ := programLoop_spec _ d s hl hw hunits
  have hverify := programLoop_quiet_verifies _ d s hl hw hunits hq
  rw [he] at hverify
  refine ⟨c, f, o, he, hverify, fun a ha => hsame a (.inl ha), fun hlast => ?_⟩
  have hnil : ((unitsOf bs).drop k).length = 0 := by
    rw [List.length_drop, unitsOf_length]
    omega
  rw [hnil] at hsame hno
  refine ⟨?_, fun a => hsame a (by omega)⟩
  by_contra hc
  obtain ⟨i, hi, -⟩ := hno hc
  omega

/-- FL_PROGRAM past its checks ends with its loop's code and state, locked again (R102, R114). -/
theorem exec_flProgram_of_loop {s t : State} {c : Code} (h : Ready s) (hl : s.len.toNat ≤ 16)
    (hd : ProgramStart s.params s.addr.toNat) (hpos : 0 < s.len.toNat)
    (hloop : programLoop (unitsOf s.dbufOperand) s.addr.toNat s.unlock = (c, t)) :
    exec .flProgram s = .next (t.relock.finish c) := by
  refine exec_flProgram h hl ?_
  rw [programOp_eq hd (by rw [dbufOperand_length hl]; omega), hloop]

section Fault

variable {s : State} {k : Nat} {x : ProgramDraw} {v : Nat → Byte}
  (hw : Memory.wf s.flash) (hl : s.len.toNat ≤ 16) (hk : k < (s.len.toNat + 7) / 8)
  (hend : s.addr.toNat + 8 * (k + 1) ≤ s.params.userEnd)
  (her : ∀ j, j < 8 * (k + 1) → Memory.read s.flash (s.addr.toNat + j) = 0xFF#8)

include hw hl hk hend her

/-- The loop of FL_PROGRAM whose k-th unit is the first to get a fault, said of the buffer. -/
theorem flProgram_loop_listedFault
    (ho : s.oracle = listedOracle [] (List.replicate k .none ++ [x]) (bytesFrom v 0 8)) (hx : x ≠ .none) :
    ∃ f o, Memory.wf f ∧ o.Quiet ∧
      FaultLeaves s.flash f s.addr.toNat k (fun i => s.dbuf.toList.getD i 0) v ∧
      programLoop (unitsOf s.dbufOperand) s.addr.toNat s.unlock =
        if x = .hwFault then (.writeHw, { s.unlock with flash := f, oracle := o })
        else if ¬ ∀ j, j < 8 → v j = paddedByte s.dbuf s.len.toNat k j then
          (.writeVerify, { s.unlock with flash := f, oracle := o })
        else programLoop ((unitsOf s.dbufOperand).drop (k + 1)) (s.addr.toNat + 8 * (k + 1))
          { s.unlock with flash := f, oracle := o } := by
  obtain ⟨f, o, hf, hq, hleaves, hloop⟩ := programLoop_listedFault (s := s.unlock) (bs := s.dbufOperand) rfl hw
    (by rwa [dbufOperand_length hl]) hend her hx ho
  simp only [dbufOperand_padded hl] at hleaves hloop
  exact ⟨f, o, hf, hq, faultLeaves_congr hleaves fun i hi => if_pos (by omega), hloop⟩

variable (h : Ready s) (hd : ProgramStart s.params s.addr.toNat)

include h hd

/-- A reported fault at unit k: WRITE_HW (R114, R126). -/
theorem exec_flProgram_reportedFault
    (ho : s.oracle = listedOracle [] (List.replicate k .none ++ [.hwFault]) (bytesFrom v 0 8)) :
    ∃ f o, exec .flProgram s =
        .next { s with flash := f, oracle := o, lock := true, err := .writeHw, busy := false } ∧
      FaultLeaves s.flash f s.addr.toNat k (fun i => s.dbuf.toList.getD i 0) v := by
  obtain ⟨f, o, -, -, hleaves, hloop⟩ := flProgram_loop_listedFault hw hl hk hend her ho nofun
  rw [if_pos rfl] at hloop
  exact ⟨f, o, exec_flProgram_of_loop h hl hd (by omega) hloop, hleaves⟩

/-- A silent fault at unit k that left other bytes than the unit's: WRITE_VERIFY (R117, R126). -/
theorem exec_flProgram_silentFault_caught
    (ho : s.oracle = listedOracle [] (List.replicate k .none ++ [.silent]) (bytesFrom v 0 8))
    (hv : ¬ ∀ j, j < 8 → v j = paddedByte s.dbuf s.len.toNat k j) :
    ∃ f o, exec .flProgram s =
        .next { s with flash := f, oracle := o, lock := true, err := .writeVerify, busy := false } ∧
      FaultLeaves s.flash f s.addr.toNat k (fun i => s.dbuf.toList.getD i 0) v := by
  obtain ⟨f, o, -, -, hleaves, hloop⟩ := flProgram_loop_listedFault hw hl hk hend her ho nofun
  rw [if_neg nofun, if_pos hv] at hloop
  exact ⟨f, o, exec_flProgram_of_loop h hl hd (by omega) hloop, hleaves⟩

/-- A silent fault at unit k that left the unit's own bytes: the program goes on under the no-fault oracle, and the
units up to k hold the data (R117). -/
theorem exec_flProgram_silentFault_passes
    (ho : s.oracle = listedOracle [] (List.replicate k .none ++ [.silent]) (bytesFrom v 0 8))
    (hv : ∀ j, j < 8 → v j = paddedByte s.dbuf s.len.toNat k j) :
    ∃ f o c, exec .flProgram s =
        .next { s with flash := f, oracle := o, lock := true, err := c, busy := false } ∧
      c ≠ .writeVerify ∧
      (∀ i, i < 8 * (k + 1) → Memory.read f (s.addr.toNat + i) = padded s.dbuf s.len.toNat i) ∧
      (s.len.toNat ≤ 8 * (k + 1) →
        c = .ok ∧ FaultLeaves s.flash f s.addr.toNat k (fun i => s.dbuf.toList.getD i 0) v) := by
  obtain ⟨f, o, hf, hq, hleaves, hloop⟩ := flProgram_loop_listedFault hw hl hk hend her ho nofun
  obtain ⟨c, g, o', hrest, hverify, hbelow, hlast⟩ := programLoop_rest
    (s := { s.unlock with flash := f, oracle := o }) (bs := s.dbufOperand) (k := k + 1)
    (d := s.addr.toNat + 8 * (k + 1)) rfl hf hq
  rw [if_neg nofun, if_neg (not_not_intro hv), hrest] at hloop
  refine ⟨g, o', c, exec_flProgram_of_loop h hl hd (by omega) hloop, hverify, fun i hi => ?_, fun hlen => ?_⟩
  · rw [hbelow _ (by omega)]
    by_cases hbefore : i < 8 * k
    · rw [hleaves, if_pos (by omega), Nat.add_sub_cancel_left]
      exact (if_pos (by omega)).symm
    · obtain ⟨j, rfl⟩ := Nat.exists_eq_add_of_le (Nat.le_of_not_lt hbefore)
      rw [← Nat.add_assoc, faultLeaves_read_unit hleaves (by omega)]
      exact hv j (by omega)
  · obtain ⟨hc, hsame⟩ := hlast (by rwa [dbufOperand_length hl])
    exact ⟨hc, fun a => (hsame a).trans (hleaves a)⟩

end Fault

/-- Settles O28: an oracle lists the fault and the bytes it leaves, and by those a silent fault is caught or passes. -/
theorem everyProgramFaultIsAdmitted : Obligations.EveryProgramFaultIsAdmitted := by
  unfold Obligations.EveryProgramFaultIsAdmitted
  intro s k v h hw hd hl hk hend her
  constructor
  · obtain ⟨o, ho⟩ : ∃ o, o = listedOracle [] (List.replicate k .none ++ [.hwFault]) (bytesFrom v 0 8) := ⟨_, rfl⟩
    obtain ⟨f, o', he, hleaves⟩ := exec_flProgram_reportedFault (s := { s with oracle := o }) hw hl hk hend her h hd ho
    exact ⟨o, f, o', congrArg Oracle.programAnswers ho, he, hleaves⟩
  · obtain ⟨o, ho⟩ : ∃ o, o = listedOracle [] (List.replicate k .none ++ [.silent]) (bytesFrom v 0 8) := ⟨_, rfl⟩
    by_cases hv : ∀ j, j < 8 → v j = paddedByte s.dbuf s.len.toNat k j
    · obtain ⟨f, o', c, he, hc, hread, hlast⟩ := exec_flProgram_silentFault_passes (s := { s with oracle := o }) hw hl
        hk hend her h hd ho hv
      exact ⟨o, f, o', c, congrArg Oracle.programAnswers ho, he, fun ⟨j, hj, hne⟩ => absurd (hv j hj) hne,
        fun _ => ⟨hc, hread, hlast⟩⟩
    · obtain ⟨f, o', he, hleaves⟩ := exec_flProgram_silentFault_caught (s := { s with oracle := o }) hw hl
        hk hend her h hd ho hv
      exact ⟨o, f, o', _, congrArg Oracle.programAnswers ho, he, fun _ => ⟨rfl, hleaves⟩, fun hv' => absurd hv' hv⟩

end Sys2Proof.Machine
end

section
/-! SUPPORT. Runs of the flash operations and of the sequencer over them (41_flash.md R125; 43_sequencer.md R146,
R150 to R156, R165): the round trip of erase, program and read, the Write step that cannot leave Write, and the five steps of
the handoff under the no-fault oracle. -/

namespace Sys2Proof.Machine

open Sys2Proof.Safety

/-- Settles O29: the erased range takes the program, and the program leaves its bytes. -/
theorem eraseProgramReadRoundTrip : Obligations.EraseProgramReadRoundTrip := by
  unfold Obligations.EraseProgramReadRoundTrip
  intro s st d bs hp hw hq hst hle halign _ hend
  have hd : ProgramStart s.params d := ⟨hst.1.trans hle, halign⟩
  obtain ⟨f, o, he, hf, ho, hread⟩ := eraseOp_quiet hp hst hw hq
  rw [he]
  refine ⟨rfl, ?_⟩
  by_cases hb : bs.length = 0
  · obtain rfl := List.length_eq_zero_iff.1 hb
    rw [programOp_empty (by exact hd)]
    exact ⟨rfl, rfl⟩
  · obtain ⟨g, o', hprog, -, -, hback⟩ := programOp_quiet (s := { s with flash := f, oracle := o, lock := true })
      hd hb hf ho hend (fun a h1 h2 => (hread a).trans (if_pos (by omega)))
    rw [hprog]
    refine ⟨rfl, Memory.readBytes_eq fun i hi => ?_⟩
    simp only
    rw [hback, if_pos (by unfold unitSpan; omega), Nat.add_sub_cancel_left]

/-! ### The steps of a handoff, by STATE (R150 to R156) -/

section Steps

variable {s : State} (hp : s.params.WellFormed)

include hp

/-- The Read step (R150). -/
theorem sequencerStep_read (hq : s.seqState = 0#3) : sequencerStep s =
    { s with obs := loadBuffer s.obs (recordBytes s), seqErr := .ok, seqState := 1#3 } := by
  have hstep : sequencerStep s = seqRead s := by simp [sequencerStep, hq]
  rw [hstep, seqRead, record_readOp hp]
  rfl

/-- The Erase step under the no-fault oracle (R151). -/
theorem sequencerStep_erase_quiet (hw : Memory.wf s.flash) (ho : s.oracle.Quiet) (hq : s.seqState = 1#3) :
    ∃ f o, sequencerStep s = { s with flash := f, oracle := o, lock := true, seqErr := .ok, seqState := 2#3,
                                      events := s.events ++ [.eraseOk] } ∧ Memory.wf f ∧ o.Quiet ∧
      ∀ a, Memory.read f a =
        if s.params.recordAddr ≤ a ∧ a < s.params.userEnd then Config.erased else Memory.read s.flash a := by
  have hstep : sequencerStep s = seqErase s := by simp [sequencerStep, hq]
  obtain ⟨f, o, he, hrest⟩ := eraseOp_quiet hp (record_eraseStart hp) hw ho
  refine ⟨f, o, ?_, hrest⟩
  rw [hstep, seqErase, he]
  rfl

/-- The Write step over an erased range under the no-fault oracle (R152). -/
theorem sequencerStep_write_quiet (hw : Memory.wf s.flash) (ho : s.oracle.Quiet) (hq : s.seqState = 2#3)
    (her : ∀ a, s.params.recordAddr ≤ a → a < s.params.userEnd → Memory.read s.flash a = Config.erased) :
    ∃ f o, sequencerStep s = { s with intd := loadBuffer s.intd (serialize s.params s.table 1), flash := f, oracle := o,
                                      lock := true, seqErr := .ok, seqState := 3#3 } ∧
      ∀ a, Memory.read f a =
        if s.params.recordAddr ≤ a ∧ a < s.params.recordAddr + s.params.recLen
          then (serialize s.params s.table 1).getD (a - s.params.recordAddr) 0
        else Memory.read s.flash a := by
  have hstep : sequencerStep s = seqWrite s := by simp [sequencerStep, hq]
  obtain ⟨f, o, he, -, -, hread⟩ := programRecord_quiet 1 hp hw ho her
  refine ⟨f, o, ?_, hread⟩
  rw [hstep, seqWrite, he]
  rfl

/-- The Write step over a first unit that is not erased (R116, R152, R153). -/
theorem sequencerStep_write_notErased (hq : s.seqState = 2#3)
    (hne : ∃ j, j < 8 ∧ Memory.read s.flash (s.params.recordAddr + j) ≠ Config.erased) :
    sequencerStep s = { s with intd := loadBuffer s.intd (serialize s.params s.table 1), seqErr := .writeHw,
                               lock := true } := by
  have hstep : sequencerStep s = seqWrite s := by simp [sequencerStep, hq]
  have hlen := serialize_length s.params s.table 1 hp
  have hrec := recLen_le hp
  have hend := (record_inUserArea hp).2
  have hprog := programOp_notErased
    (s := { s with intd := loadBuffer s.intd (serialize s.params s.table 1) }) (bs := serialize s.params s.table 1)
    (record_programStart hp) (by omega) (by simp only; omega) hne
  rw [hstep, seqWrite, programRecord]
  simp only [bufferPrefix_serialize hp]
  rw [hprog]
  rfl

/-- The Check step over a record that verifies (R154). -/
theorem sequencerStep_check_passes (hq : s.seqState = 3#3)
    (hv : verify s.params s.table (recordBytes s) = true) : sequencerStep s =
    { s with obs := loadBuffer s.obs (recordBytes s), seqErr := .ok, seqState := 4#3 } := by
  have hstep : sequencerStep s = seqCheck s := by simp [sequencerStep, hq]
  rw [hstep, seqCheck, record_readOp hp]
  exact if_pos hv

end Steps

/-- The End step (R156). -/
theorem sequencerStep_end {s : State} (hq : s.seqState = 4#3) : sequencerStep s =
    { s with events := s.events ++ [.success], seqState := 0#3, run := false, rstReq := true } := by
  have hstep : sequencerStep s = seqEnd s := by simp [sequencerStep, hq]
  rw [hstep]
  rfl

/-- Settles O41: each Write step leaves the first unit, and with it the next step's failure, as it was. -/
theorem writeRetryNeverLeavesWrite : Obligations.WriteRetryNeverLeavesWrite := by
  unfold Obligations.WriteRetryNeverLeavesWrite
  intro s n hp hq hn hne
  induction n, hn using Nat.le_induction with
  | base => exact ⟨_, sequencerStep_write_notErased hp hq hne⟩
  | succ n _ ih =>
    obtain ⟨i, hi⟩ := ih
    refine ⟨loadBuffer i (serialize s.params s.table 1), ?_⟩
    rw [Function.iterate_succ_apply', hi]
    exact sequencerStep_write_notErased hp hq hne

/-! ### The handoff under the no-fault oracle (R165) -/

/-- A record with the checksum of its other bytes verifies (R139). -/
theorem verify_serialize {p : Params} (h : p.WellFormed) (flag : Byte) :
    verify p crcTable (serialize p crcTable flag) = true :=
  (verify_iff_crc8_eq_zero (serialize_length p crcTable flag h)).2 ((crc8_append_eq_zero_iff _ _).2 rfl)

/-- Only the sequencer is enabled, and the reset input is not active. -/
def SequencerAlone (s : State) : Prop := s.resetPin = false ∧ s.busy = false ∧ s.run = true ∧ s.inputs = []

/-- One more step of the machine where only the sequencer is enabled: its step, with the turn taken (R146). -/
theorem core_run_sequencer {s t : State} (n : Nat) (h : SequencerAlone s) (ht : sequencerStep s.tookTurn = t) :
    Host.Core.run Sys2Proof.core (n + 1) s = Host.Core.run Sys2Proof.core n t := by
  obtain ⟨hreset, hbusy, hrun, hinputs⟩ := h
  have hstep : Sys2Proof.core.step s = .next t := ht ▸ step_sequencer_alone hreset hbusy hrun hinputs
  simp only [Host.Core.run, hstep]

/-- The state a handoff begun in `s` ends in after k turns, with RST_REQ set (R156). -/
def State.handedOff (s : State) (k : Nat) (b n : Vector Byte 16) (f : Memory) (o : Oracle) (ev : List Event) : State :=
  { s with obs := b, intd := n, flash := f, oracle := o, lock := true, seqErr := .ok, seqState := 0#3, run := false,
           rstReq := true, events := s.events ++ ev, sched := s.sched.drop k }

/-- `g` is the array `m` with the request record of `s` at RECORD_ADDR (R62, R134). -/
def RecordOver (s : State) (m g : Memory) : Prop :=
  ∀ a, Memory.read g a =
    if s.params.recordAddr ≤ a ∧ a < s.params.recordAddr + s.params.recLen
      then (serialize s.params s.table 1).getD (a - s.params.recordAddr) 0
    else Memory.read m a

/-- `m` is flash with everything from RECORD_ADDR to USER_END erased (R113). -/
def RecordErased (s : State) (m : Memory) : Prop :=
  ∀ a, Memory.read m a =
    if s.params.recordAddr ≤ a ∧ a < s.params.userEnd then Config.erased else Memory.read s.flash a

/-- The record region of an array that the record was written over reads as the record (R53). -/
theorem RecordOver.readBytes {s : State} {m g : Memory} (h : RecordOver s m g) (hp : s.params.WellFormed) :
    Memory.readBytes g s.params.recordAddr s.params.recLen = serialize s.params s.table 1 := by
  rw [← serialize_length s.params s.table 1 hp]
  refine Memory.readBytes_eq fun i hi => ?_
  rw [h, if_pos (by rw [serialize_length _ _ _ hp] at hi; omega), Nat.add_sub_cancel_left,
    List.getD_eq_getElem _ _ hi, List.getD_eq_getElem _ _ hi]

section Handoff

variable {s : State} (h : SequencerAlone s)

include h

/-- The last turn: End (R156). -/
theorem run_from_end (hl : s.lock = true) (hc : s.seqErr = .ok) (hq : s.seqState = 4#3) :
    ∃ o, Host.Core.run Sys2Proof.core 1 s = .next (s.handedOff 1 s.obs s.intd s.flash o [.success]) := by
  refine ⟨s.oracle.tick, ?_⟩
  rw [core_run_sequencer 0 h (sequencerStep_end hq)]
  simp [Host.Core.run, State.handedOff, hl, hc]

variable (hp : s.params.WellFormed)

include hp

/-- The last two turns, where the record region holds `bs`, which verifies (R154). -/
theorem run_from_check {bs : List Byte} (hl : s.lock = true) (hq : s.seqState = 3#3) (hbs : recordBytes s = bs)
    (hv : verify s.params s.table bs = true) :
    ∃ o, Host.Core.run Sys2Proof.core 2 s =
      .next (s.handedOff 2 (loadBuffer s.obs bs) s.intd s.flash o [.success]) := by
  subst hbs
  obtain ⟨o, hend⟩ := run_from_end (s := { s.tookTurn with
    obs := loadBuffer s.obs (recordBytes s), seqErr := .ok, seqState := 4#3 }) h hl rfl rfl
  refine ⟨o, (core_run_sequencer 1 h (sequencerStep_check_passes hp hq hv)).trans (hend.trans ?_)⟩
  simp [State.handedOff]

variable (ht : s.table = crcTable) (hw : Memory.wf s.flash) (ho : s.oracle.Quiet)

include ht hw ho

/-- The last three turns: the record is written over the erased range, so Check reads it back (R152). -/
theorem run_from_write (hq : s.seqState = 2#3)
    (her : ∀ a, s.params.recordAddr ≤ a → a < s.params.userEnd → Memory.read s.flash a = Config.erased) :
    ∃ f o, Host.Core.run Sys2Proof.core 3 s =
      .next (s.handedOff 3 (loadBuffer s.obs (serialize s.params s.table 1))
        (loadBuffer s.intd (serialize s.params s.table 1)) f o [.success]) ∧ RecordOver s s.flash f := by
  have hv : verify s.params s.table (serialize s.params s.table 1) = true := by
    rw [ht]
    exact verify_serialize hp 1
  obtain ⟨f, o, hwrite, hread⟩ := sequencerStep_write_quiet (s := s.tookTurn) hp hw ho hq her
  have hover : RecordOver s s.flash f := hread
  obtain ⟨o', hcheck⟩ := run_from_check (s := { s.tookTurn with
    intd := loadBuffer s.intd (serialize s.params s.table 1), flash := f, oracle := o, lock := true, seqErr := .ok,
    seqState := 3#3 }) h hp rfl rfl (hover.readBytes hp) hv
  refine ⟨f, o', (core_run_sequencer 2 h hwrite).trans (hcheck.trans ?_), hover⟩
  simp [State.handedOff]

/-- The last four turns: Erase clears the range that Write needs erased (R151). -/
theorem run_from_erase (hq : s.seqState = 1#3) :
    ∃ m f o, Host.Core.run Sys2Proof.core 4 s =
      .next (s.handedOff 4 (loadBuffer s.obs (serialize s.params s.table 1))
        (loadBuffer s.intd (serialize s.params s.table 1)) f o [.eraseOk, .success]) ∧
      RecordErased s m ∧ RecordOver s m f := by
  obtain ⟨m, o, herase, hm, ho', hread⟩ := sequencerStep_erase_quiet (s := s.tookTurn) hp hw ho hq
  obtain ⟨f, o', hwrite, hover⟩ := run_from_write (s := { s.tookTurn with
    flash := m, oracle := o, lock := true, seqErr := .ok, seqState := 2#3, events := s.events ++ [.eraseOk] })
    h hp ht hm ho' rfl fun a h1 h2 => (hread a).trans (if_pos ⟨h1, h2⟩)
  refine ⟨m, f, o', (core_run_sequencer 3 h herase).trans (hwrite.trans ?_), hread, hover⟩
  simp [State.handedOff]

/-- All five turns: Read cannot fail (R150). -/
theorem run_from_read (hq : s.seqState = 0#3) :
    ∃ m f o, Host.Core.run Sys2Proof.core 5 s =
      .next (s.handedOff 5 (loadBuffer (loadBuffer s.obs (recordBytes s)) (serialize s.params s.table 1))
        (loadBuffer s.intd (serialize s.params s.table 1)) f o [.eraseOk, .success]) ∧
      RecordErased s m ∧ RecordOver s m f := by
  obtain ⟨m, f, o, herase, hread⟩ := run_from_erase (s := { s.tookTurn with
    obs := loadBuffer s.obs (recordBytes s), seqErr := .ok, seqState := 1#3 }) h hp ht hw ho rfl
  refine ⟨m, f, o, (core_run_sequencer 4 h (sequencerStep_read hp hq)).trans (herase.trans ?_), hread⟩
  simp [State.handedOff]

end Handoff

/-- Settles O44: the five turns are Read, Erase, Write, Check and End; they leave one record in INT, OBS and flash. -/
theorem noFaultRunReachesEndInFiveSteps : Obligations.NoFaultRunReachesEndInFiveSteps := by
  unfold Obligations.NoFaultRunReachesEndInFiveSteps
  intro s hp hw ⟨_, ht⟩ ho hq hrun _ hbusy hinputs hreset
  obtain ⟨m, f, o, hfive, herased, hover⟩ := run_from_read ⟨hreset, hbusy, hrun, hinputs⟩ hp ht hw ho hq
  have hlen := serialize_length s.params s.table 1 hp
  refine ⟨_, _, f, o, hfive, serialize_holdsRecord hp s.table 1 s.intd, fun i hi => ?_, fun a => ?_⟩
  · have hi' : i.val < (serialize s.params s.table 1).length := hlen ▸ hi
    rw [loadBuffer_get, if_pos hi', loadBuffer_get, if_pos hi']
  · rw [hover a, herased a]
    split
    · rename_i ha
      rw [loadBuffer_serialize_getD hp _ _ _ (by omega), List.getD_eq_getElem _ _ (by omega),
        List.getD_eq_getElem _ _ (by omega)]
    · rfl

end Sys2Proof.Machine
end

section
/-! SUPPORT. The record commands (42_record.md R130 to R139): what REC_SER stages in DBUF, what REC_VERIFY looks at,
and the checksum of what is serialized. -/

namespace Sys2Proof.Machine

open Sys2Proof.Safety

/-! ### REC_SER (R134, R136, R137) -/

/-- Past the record the buffer it was loaded into is as before (R134). -/
theorem loadBuffer_serialize_tail {p : Params} (h : p.WellFormed) (t : Vector Byte 256) (flag : Byte)
    (b : Vector Byte 16) (i : Fin 16) (hi : p.nameLen + 4 ≤ i.val) :
    (loadBuffer b (serialize p t flag))[i] = b[i] := by
  rw [loadBuffer_get, serialize_length p t flag h]
  exact if_neg (Nat.not_lt.2 hi)

/-- A form of REC_SER stages the record with its flag: DBUF and LEN are what it changes (R136, R137). -/
theorem exec_recSer {i : Instr} {flag : Byte} {s : State} (hi : performOf i = performRecSer flag)
    (hlen : usesLen i = false) (h : Ready s) (hv : s.tblValid = true) (hp : s.params.WellFormed) :
    ∃ d, exec i s = .next { s with
        dbuf := d, len := BitVec.ofNat 5 (s.params.nameLen + 4), err := .ok, busy := false } ∧
      HoldsRecord s.params s.table flag d ∧ ∀ j : Fin 16, s.params.nameLen + 4 ≤ j.val → d[j] = s.dbuf[j] := by
  have hcheck : s.check i = .ok := check_ok h (fun _ => hv) fun hl => absurd (hlen.symm.trans hl) nofun
  refine ⟨loadBuffer s.dbuf (serialize s.params s.table flag), ?_, serialize_holdsRecord hp s.table flag s.dbuf,
    loadBuffer_serialize_tail hp s.table flag s.dbuf⟩
  rw [exec_of_check_ok hcheck, hi]
  rfl

/-- Settles O30: both forms of REC_SER are the same rule with another flag. -/
theorem recSerStagesTheRecord : Obligations.RecSerStagesTheRecord := by
  unfold Obligations.RecSerStagesTheRecord
  exact fun s h hv hp => ⟨exec_recSer (i := .recSer0) rfl rfl h hv hp, exec_recSer (i := .recSer1) rfl rfl h hv hp⟩

/-! ### REC_VERIFY (R135, R138) -/

/-- A buffer's record verifies exactly where its checksum byte is the checksum of the bytes before it (R135). -/
theorem verify_bufferPrefix_iff (p : Params) (t : Vector Byte 256) (b : Vector Byte 16) :
    verify p t (bufferPrefix b p.recLen) = true ↔
      crc8 t (b.toList.take (p.nameLen + 3)) = b.toList.getD (p.nameLen + 3) 0 := by
  have hspan : p.crcSpan < p.recLen := Nat.lt_succ_self _
  have hbody : (bufferPrefix b p.recLen).take p.crcSpan = b.toList.take (p.nameLen + 3) := by
    rw [bufferPrefix, List.take_take, Nat.min_eq_left hspan.le]
    rfl
  have hsum : (bufferPrefix b p.recLen).getD p.crcSpan 0 = b.toList.getD (p.nameLen + 3) 0 := by
    rw [bufferPrefix, List.getD_eq_getElem?_getD, List.getElem?_take_of_lt hspan, ← List.getD_eq_getElem?_getD]
    rfl
  rw [verify, beq_iff_eq, hbody, hsum]

/-- REC_VERIFY records the verifier's answer in VOK and in its code (R138). -/
theorem exec_recVerify {s : State} {good : Bool} (h : Ready s) (hv : s.tblValid = true)
    (hg : verify s.params s.table (bufferPrefix s.dbuf s.params.recLen) = good) :
    exec .recVerify s = .next { s with vok := good, err := if good then .ok else .checksum, busy := false } := by
  rw [exec_of_check_ok (i := .recVerify) (check_ok h (fun _ => hv) nofun)]
  simp only [performOf, performRecVerify, hg]
  rfl

/-- Settles O31: REC_VERIFY's answer is the verifier's, and that is the comparison of the checksums. -/
theorem recVerifyChecksOnlyTheChecksum : Obligations.RecVerifyChecksOnlyTheChecksum := by
  unfold Obligations.RecVerifyChecksOnlyTheChecksum
  refine fun s h hv _ => ⟨fun heq => ?_, fun hne => ?_⟩
  · exact exec_recVerify h hv ((verify_bufferPrefix_iff _ _ _).2 heq)
  · exact exec_recVerify h hv (Bool.eq_false_iff.2 fun hgood => hne ((verify_bufferPrefix_iff _ _ _).1 hgood))

/-- Settles O32: for a list of the record's length both say that its last byte is the checksum of the others. -/
theorem serializedRecordVerifies : Obligations.SerializedRecordVerifies := by
  unfold Obligations.SerializedRecordVerifies
  intro p flag hp
  have hv := verify_serialize hp flag
  exact ⟨hv, (verify_iff_crc8_eq_zero (serialize_length p crcTable flag hp)).1 hv⟩

end Sys2Proof.Machine
end

section
/-! SUPPORT. The Write step (43_sequencer.md R152) under every oracle: `Program` of the request record, and why it
answers OK over erased units that get no fault. -/

namespace Sys2Proof.Machine

open Sys2Proof.Safety

/-- Byte i of the record's units is that byte of the buffer the record was loaded into, or padding (R119). -/
theorem serialize_padded {p : Params} (h : p.WellFormed) (t : Vector Byte 256) (flag : Byte) (b : Vector Byte 16)
    (i : Nat) : (serialize p t flag).getD i Config.erased = padded (loadBuffer b (serialize p t flag)) p.recLen i := by
  unfold padded
  split
  · rename_i hi
    exact (loadBuffer_serialize_getD h t flag b hi).symm
  · exact List.getD_eq_default _ _ (by rw [serialize_length p t flag h]; omega)

/-- An oracle that is the no-fault one, or lists NONE for the first two units, has no fault for either of them. -/
theorem not_mayAnswer_fault {o : Oracle} {k : Nat} {x : ProgramDraw}
    (ho : o.Quiet ∨ ∃ rest, o.programAnswers = .none :: .none :: rest) (hk : k < 2) (hx : x ≠ .none) :
    ¬ MayAnswer o.programAnswers o.noFault k x := by
  rcases ho with hq | ⟨rest, hrest⟩
  · exact not_mayAnswer_of_quiet hq k hx
  · exact not_mayAnswer_of_listed (n := 2) hrest hk hx

/-- A program cannot stop at a unit of the user area that was erased and gets no fault (R114, R116, R118). -/
theorem not_stoppedAt_of_erased {s : State} {f : Memory} {d k : Nat} {c : Code} {w : Nat → Byte}
    (hn : ∀ x, x ≠ .none → ¬ MayAnswer s.oracle.programAnswers s.oracle.noFault k x)
    (hend : d + 8 * (k + 1) ≤ s.params.userEnd)
    (her : ∀ j, j < 8 → Memory.read s.flash (d + (8 * k + j)) = 0xFF#8) : ¬ StoppedAt s f d k c w := by
  intro hstop
  rcases (stopCause_without_fault hn hstop.cause).1 with ⟨-, hpast⟩ | ⟨-, -, j, hj, hne⟩
  · omega
  · exact hne (her j hj)

/-- What a program of n bytes of the buffer over erased units leaves: the bytes, with the padding erased as before. -/
theorem programmed_read {s : State} {f : Memory} {d m n : Nat} {b : Vector Byte 16}
    (h : Programmed s f d m (padded b n)) (hn : n ≤ 8 * m)
    (hsame : ∀ a, a < d ∨ d + 8 * m ≤ a → Memory.read f a = Memory.read s.flash a) (a : Nat) :
    Memory.read f a = if d ≤ a ∧ a < d + n then b.toList.getD (a - d) 0 else Memory.read s.flash a := by
  by_cases hunits : d ≤ a ∧ a < d + 8 * m
  · have hlt : a - d < 8 * m := by omega
    have hhold := h.holds _ hlt
    have herased := h.erased _ hlt
    rw [Nat.add_sub_cancel' hunits.1] at hhold herased
    rw [hhold, herased]
    exact if_congr (by omega) rfl rfl
  · rw [if_neg (by omega)]
    exact hsame a (by omega)

/-- The Write step is `programRecord` with flag 1, and moves to Check exactly where that answers OK (R152). -/
theorem sequencerStep_write {s t : State} {c : Code} (hq : s.seqState = 2#3)
    (h : programRecord 1 s = (c, t)) (ht : t.seqState = 2#3) :
    sequencerStep s = { t with seqState := if c = .ok then 3#3 else 2#3 } := by
  have hstep : sequencerStep s = seqWrite s := by simp [sequencerStep, hq]
  rw [hstep, seqWrite, h]
  by_cases hc : c = .ok
  · simp only [hc, if_true]
  · simp only [if_neg hc, ← ht]

/-- Settles O36: the step is the program of the record under any oracle; over two erased units without a fault the
program has no unit to stop at. -/
theorem writeStepProgramsTheRequestRecord : Obligations.WriteStepProgramsTheRequestRecord := by
  unfold Obligations.WriteStepProgramsTheRequestRecord
  intro s hp hw hq
  have hend := (record_inUserArea hp).2
  have hlen := (recLen_le hp).2
  obtain ⟨c, f, o, hrec, hprog, -, hsame, hok, hno⟩ := programRecord_spec 1 hp hw
  simp only [serialize_padded hp s.table 1 s.intd] at hok hno
  refine ⟨loadBuffer s.intd (serialize s.params s.table 1), f, o, c, ?_, sequencerStep_write hq hrec hq,
    serialize_holdsRecord hp s.table 1 s.intd, loadBuffer_serialize_tail hp s.table 1 s.intd, hsame, hok, hno,
    fun hnone her => ?_⟩
  · exact (congrArg _ (bufferPrefix_serialize hp s.table 1 s.intd)).trans hprog
  · have hc : c = .ok := by
      by_contra hne
      obtain ⟨k, hk, hstop⟩ := hno hne
      exact not_stoppedAt_of_erased (fun _ => not_mayAnswer_fault hnone hk) (by omega)
        (fun j hj => her _ (by omega) (by omega)) hstop
    exact ⟨hc, programmed_read (hok hc) (by omega) hsame⟩

end Sys2Proof.Machine
end

section
/-! SUPPORT. What SEQ_TRIGGER starts and what each sequencer step does (43_sequencer.md R147 to R158), under every
oracle: the Read, Erase, Check and End steps, the Check step that cannot leave Check, and the Default-Recovery of the
invalid states. -/

namespace Sys2Proof.Machine

open Sys2Proof.Safety

/-! ### SEQ_TRIGGER and End (R147, R156) -/

/-- Settles O33: with the table built the checks pass, and the command's own rule sets RUN and SEQ_ERR. -/
theorem seqTriggerStartsARun : Obligations.SeqTriggerStartsARun :=
  fun _ h hv => exec_of_check_ok (check_ok h (fun _ => hv) nofun)

/-- Settles O38, by the equation of the End step. -/
theorem endStepRequestsRestart : Obligations.EndStepRequestsRestart :=
  fun _ hq => sequencerStep_end hq

/-! ### Read and Check (R150, R154, R155) -/

/-- OBS after the record region was read into it (R53, R150, R154). -/
theorem loadBuffer_recordBytes_get (s : State) (i : Fin 16) : (loadBuffer s.obs (recordBytes s))[i] =
    if i.val < s.params.nameLen + 4 then Memory.read s.flash (s.params.recordAddr + i.val) else s.obs[i] :=
  loadBuffer_flashRead_get s.obs s s.params.recordAddr s.params.recLen i

/-- The record region verifies exactly where, as read into OBS, its checksum byte is the checksum of the bytes before
it (R135). -/
theorem verify_recordBytes_iff {s : State} (hp : s.params.WellFormed) :
    verify s.params s.table (recordBytes s) = true ↔
      crc8 s.table ((loadBuffer s.obs (recordBytes s)).toList.take (s.params.nameLen + 3)) =
        (loadBuffer s.obs (recordBytes s)).toList.getD (s.params.nameLen + 3) 0 := by
  have hlen : (recordBytes s).length = s.params.recLen := Memory.readBytes_length ..
  have hprefix : bufferPrefix (loadBuffer s.obs (recordBytes s)) s.params.recLen = recordBytes s := by
    have hrec := recLen_le hp
    rw [← hlen]
    exact loadBuffer_take _ _ (by omega)
  rw [← verify_bufferPrefix_iff, hprefix]

/-- Settles O34: OBS is loaded with the record region. -/
theorem readStepMovesToErase : Obligations.ReadStepMovesToErase :=
  fun s hp hq => ⟨_, sequencerStep_read hp hq, loadBuffer_recordBytes_get s⟩

/-- Settles O37: the step passes or fails as the verifier answers, and that is the comparison of the checksums. -/
theorem checkStepComparesTheChecksum : Obligations.CheckStepComparesTheChecksum := by
  unfold Obligations.CheckStepComparesTheChecksum
  refine fun s hp hq => ⟨_, loadBuffer_recordBytes_get s, fun heq => ?_, fun hne => ?_⟩
  · exact sequencerStep_check_passes hp hq ((verify_recordBytes_iff hp).2 heq)
  · exact sequencerStep_check_fails hp hq (Bool.eq_false_iff.2 fun hgood => hne ((verify_recordBytes_iff hp).1 hgood))

/-- Settles O42: each Check step leaves flash, and with it the next step's failure, as it was. -/
theorem checkRetryFailsForever : Obligations.CheckRetryFailsForever := by
  unfold Obligations.CheckRetryFailsForever
  intro s n hp hq hn hv
  induction n, hn using Nat.le_induction with
  | base => exact ⟨_, sequencerStep_check_fails hp hq hv⟩
  | succ n _ ih =>
    obtain ⟨b, hb⟩ := ih
    refine ⟨loadBuffer b (recordBytes s), ?_⟩
    rw [Function.iterate_succ_apply', hb, List.replicate_succ', ← List.append_assoc]
    exact sequencerStep_check_fails hp hq hv

/-! ### Erase (R151) -/

/-- The Erase step moves to Write with EV_ERASE_OK where `Erase` answers OK, and else only records the code (R151). -/
theorem sequencerStep_erase {s t : State} {c : Code} (hq : s.seqState = 1#3)
    (h : s.eraseOp s.params.recordAddr = (c, t)) :
    sequencerStep s =
      if c = .ok then { t with seqErr := .ok, seqState := 2#3, events := t.events ++ [.eraseOk] }
      else { t with seqErr := c } := by
  have hstep : sequencerStep s = seqErase s := by simp [sequencerStep, hq]
  rw [hstep, seqErase, h]
  by_cases hc : c = .ok
  · simp only [hc, if_true, State.emit]
  · simp only [if_neg hc]

/-- Settles O35: the step is the erase under any oracle, and what the oracle lists decides how the erase ends. -/
theorem eraseStepMovesToWriteOrStays : Obligations.EraseStepMovesToWriteOrStays := by
  unfold Obligations.EraseStepMovesToWriteOrStays
  intro s hp hw hq
  have hstart := record_eraseStart hp
  obtain ⟨c, f, o, he, -, hc⟩ := eraseOp_spec hp hstart hw
  refine ⟨c, f, o, he, sequencerStep_erase hq he, fun hok => ?_, fun hno => ?_, fun ho => ?_, fun k rest hx hk => ?_,
    fun k rest hx hk => ?_⟩
  · rcases hc with ⟨-, herased⟩ | ⟨rfl, -⟩
    · exact herased
    · cases hok
  · exact hc.resolve_left fun h => hno h.1
  · obtain ⟨f', o', hquiet, -⟩ := eraseOp_quiet hp hstart hw ho
    exact congrArg Prod.fst (he.symm.trans hquiet)
  · exact (congrArg Prod.fst he).symm.trans (eraseOp_noFault hp hstart hw hx hk)
  · have hfault := eraseOp_fault hp hstart hw hx hk
    rw [he] at hfault
    exact hfault

/-! ### Default-Recovery (R157, R158) -/

/-- STATE 5, 6 and 7 are the invalid states (R157). -/
theorem sequencerStep_invalid {s : State} (hq : 5 ≤ s.seqState.toNat) : sequencerStep s = defaultRecovery s := by
  have hne : ∀ q : BitVec 3, q.toNat < 5 → s.seqState ≠ q := fun q hlt h => by rw [h] at hq; omega
  unfold sequencerStep
  rw [if_neg (hne _ (by decide)), if_neg (hne _ (by decide)), if_neg (hne _ (by decide)), if_neg (hne _ (by decide)),
    if_neg (hne _ (by decide))]

/-- Where the erase fails, nothing is serialized or programmed (R158). -/
theorem defaultRecovery_erase_fails {s t : State} {c : Code} (h : s.eraseOp s.params.recordAddr = (c, t))
    (hc : c ≠ .ok) : defaultRecovery s = { t with seqErr := c } := by
  rw [defaultRecovery, h]
  exact if_neg hc

/-- Where the erase answers OK, the default record is programmed next (R158). -/
theorem defaultRecovery_erase_ok {s t : State} (h : s.eraseOp s.params.recordAddr = (.ok, t)) :
    defaultRecovery s = (programRecord 0 t).2 := by
  rw [defaultRecovery, h]
  exact if_pos rfl

/-- Default-Recovery leaves STATE, RUN and EVENTS (R157). -/
theorem defaultRecovery_keeps (s : State) : (defaultRecovery s).seqState = s.seqState ∧
    (defaultRecovery s).run = s.run ∧ (defaultRecovery s).events = s.events := by
  obtain ⟨c, f, o, l, he, -⟩ := eraseOp_frame s s.params.recordAddr
  by_cases hc : c = .ok
  · subst hc
    obtain ⟨g, p, l', n, d, hprog⟩ := programRecord_frame 0 { s with flash := f, oracle := o, lock := l }
    rw [defaultRecovery_erase_ok he, hprog]
    exact ⟨rfl, rfl, rfl⟩
  · rw [defaultRecovery_erase_fails he hc]
    exact ⟨rfl, rfl, rfl⟩

/-- The erase of RECORD_ADDR has a first page (R9). -/
theorem record_firstPage {p : Params} (h : p.WellFormed) : p.recordAddr + (0 + 1) * p.pageSize ≤ p.userEnd := by
  obtain ⟨-, -, -, -, -, -, -, -, hend, hrec, -, hlt, -⟩ := h
  have hdvd : p.pageSize ∣ p.userEnd - p.recordAddr :=
    Nat.dvd_sub (Nat.dvd_of_mod_eq_zero hend) (Nat.dvd_of_mod_eq_zero hrec)
  have hle := Nat.le_of_dvd (by omega) hdvd
  omega

/-- What a program did does not depend on LOCK before it, which `Program` opens itself (R102). -/
theorem programmed_of_lock {s : State} {l : Bool} {f : Memory} {d n : Nat} {w : Nat → Byte}
    (h : Programmed { s with lock := l } f d n w) : Programmed s f d n w :=
  ⟨h.inArea, h.answers, h.erased, h.holds⟩

theorem stoppedAt_of_lock {s : State} {l : Bool} {f : Memory} {d k : Nat} {c : Code} {w : Nat → Byte}
    (h : StoppedAt { s with lock := l } f d k c w) : StoppedAt s f d k c w :=
  ⟨programmed_of_lock h.earlier, h.others, h.cause⟩

/-- Default-Recovery under the no-fault oracle: the default record over the erased range (R158). -/
theorem defaultRecovery_quiet {s : State} (hp : s.params.WellFormed) (hw : Memory.wf s.flash) (ho : s.oracle.Quiet) :
    ∃ f o, defaultRecovery s = { s with intd := loadBuffer s.intd (serialize s.params s.table 0), flash := f,
                                        oracle := o, lock := true, seqErr := .ok } ∧
      ∀ a, Memory.read f a =
        if s.params.recordAddr ≤ a ∧ a < s.params.recordAddr + s.params.recLen
          then (loadBuffer s.intd (serialize s.params s.table 0)).toList.getD (a - s.params.recordAddr) 0
        else if s.params.recordAddr ≤ a ∧ a < s.params.userEnd then Config.erased
        else Memory.read s.flash a := by
  obtain ⟨m, o, he, hm, ho', herased⟩ := eraseOp_quiet hp (record_eraseStart hp) hw ho
  obtain ⟨f, o', hprog, -, -, hread⟩ := programRecord_quiet (s := { s with flash := m, oracle := o, lock := true }) 0
    hp hm ho' fun a h1 h2 => (herased a).trans (if_pos ⟨h1, h2⟩)
  refine ⟨f, o', by rw [defaultRecovery_erase_ok he, hprog], fun a => ?_⟩
  dsimp only at hread
  rw [hread a, herased a]
  split
  · rename_i ha
    have hlen := serialize_length s.params s.table 0 hp
    rw [loadBuffer_serialize_getD hp _ _ _ (by omega), List.getD_eq_getElem _ _ (by omega),
      List.getD_eq_getElem _ _ (by omega)]
  · rfl

/-- Settles O39: a failed erase is all the step does; after one that answers OK the step is the program of the default
record, under any oracle. -/
theorem invalidStateRunsDefaultRecovery : Obligations.InvalidStateRunsDefaultRecovery := by
  unfold Obligations.InvalidStateRunsDefaultRecovery
  intro s hp hw hq
  rw [sequencerStep_invalid hq]
  obtain ⟨hstate, hrun, hevents⟩ := defaultRecovery_keeps s
  have hholds := serialize_holdsRecord hp s.table 0 s.intd
  have htail := loadBuffer_serialize_tail hp s.table 0 s.intd
  obtain ⟨c, f, o, he, hf, hc⟩ := eraseOp_spec hp (record_eraseStart hp) hw
  refine ⟨hstate, hrun, hevents, fun hhead => ?_, ⟨c, f, o, he, fun hno => ?_, fun hok => ?_⟩, fun ho => ?_⟩
  · -- the first page's answer is a fault
    rcases hc with ⟨-, herased⟩ | ⟨rfl, -⟩
    · exact absurd (List.head?_eq_getElem? ▸ hhead) (herased.answers 0 (record_firstPage hp))
    · rw [defaultRecovery_erase_fails he nofun]
      exact ⟨rfl, rfl⟩
  · -- the erase fails
    obtain ⟨rfl, hstop⟩ := hc.resolve_left fun h => hno h.1
    exact ⟨rfl, defaultRecovery_erase_fails he hno, hstop⟩
  · -- the erase answers OK
    subst hok
    have herased : ErasedRange s f s.params.recordAddr := by
      rcases hc with ⟨-, h⟩ | ⟨h, -⟩
      · exact h
      · cases h
    obtain ⟨d, g, p, hrec, hprog, -, hsame, hdone, hstop⟩ := programRecord_spec
      (s := { s with flash := f, oracle := o, lock := true }) 0 hp hf
    simp only [serialize_padded hp s.table 0 s.intd] at hdone hstop
    refine ⟨herased, _, g, p, d, (congrArg _ (bufferPrefix_serialize hp s.table 0 s.intd)).trans hprog, ?_, hholds,
      htail, hsame, fun hd => programmed_of_lock (hdone hd), fun hd => ?_⟩
    · rw [defaultRecovery_erase_ok he, hrec]
    · obtain ⟨k, hk, h⟩ := hstop hd
      exact ⟨k, hk, stoppedAt_of_lock h⟩
  · -- the no-fault oracle
    obtain ⟨g, p, hstep, hread⟩ := defaultRecovery_quiet hp hw ho
    exact ⟨_, g, p, hstep, hholds, htail, hread⟩

end Sys2Proof.Machine
end

section
/-! SUPPORT. Runs that something else interleaves with (43_sequencer.md R146, R162, R167): no other agent's step
disturbs a handoff, each sequencer turn takes it one state on, and weak fairness gives it every turn it needs. -/

namespace Sys2Proof.Machine

open Sys2Proof.Safety

/-! ### The steps of the other agents during a run (R146, R167, R173) -/

/-- From `s` to `t` nothing a handoff stands on changes: the run goes on from the same STATE over the same flash, table
and parameters, the no-fault oracle stays that, and the host's queue has at most been taken from. -/
structure Undisturbed (s t : State) : Prop where
  params : t.params = s.params
  tblValid : t.tblValid = s.tblValid
  table : t.table = s.table
  run : t.run = s.run
  seqState : t.seqState = s.seqState
  flash : t.flash = s.flash
  resetPin : t.resetPin = s.resetPin
  inputs : t.inputs ⊆ s.inputs
  quiet : s.oracle.Quiet → t.oracle.Quiet

theorem Undisturbed.trans {s t u : State} (h1 : Undisturbed s t) (h2 : Undisturbed t u) : Undisturbed s u where
  params := h2.params.trans h1.params
  tblValid := h2.tblValid.trans h1.tblValid
  table := h2.table.trans h1.table
  run := h2.run.trans h1.run
  seqState := h2.seqState.trans h1.seqState
  flash := h2.flash.trans h1.flash
  resetPin := h2.resetPin.trans h1.resetPin
  inputs := List.Subset.trans h2.inputs h1.inputs
  quiet := h2.quiet ∘ h1.quiet

theorem Undisturbed.refl (s : State) : Undisturbed s s :=
  ⟨rfl, rfl, rfl, rfl, rfl, rfl, rfl, List.Subset.refl _, id⟩

theorem Undisturbed.withInputs {s t : State} {ins : List Input} (h : Undisturbed s t) (hi : ins ⊆ s.inputs) :
    Undisturbed s { t with inputs := ins } := { h with inputs := hi }

theorem tookTurn_undisturbed (s : State) : Undisturbed s s.tookTurn := { Undisturbed.refl s with }

/-- During a run every command is turned away with BUSY (R173). -/
theorem commandStep_undisturbed {s t : State} (hr : s.run = true) (h : commandStep s = .next t) :
    Undisturbed s t := by
  rcases commandStep_next h with ⟨i, -, hc, -⟩ | ⟨c, rfl⟩
  · rw [check_busy (.inl hr)] at hc
    cases hc
  · exact { Undisturbed.refl s with }

/-- A read takes at most a byte from the oracle (R31). -/
theorem busRead32_quiet (off : Nat) {s : State} (h : s.oracle.Quiet) : (busRead32 off s).2.oracle.Quiet := by
  unfold busRead32
  split
  · exact h
  · split
    · exact h
    · exact Oracle.drawByte_quiet off h
  · exact h

/-- A host read moves only the host's log and the oracle (R39, R61). -/
theorem hostRead_undisturbed (off : Nat) (s : State) : Undisturbed s (hostRead off s) := by
  have hq := busRead32_quiet off (s := s)
  unfold hostRead
  rw [busRead32_state]
  exact { Undisturbed.refl s with quiet := hq }

/-- A register write during a run leaves the run alone (R42, R167). -/
theorem busWrite32_undisturbed (off : Nat) (v : Word) {s : State} (hr : s.run = true) :
    Undisturbed s (busWrite32 off v s) := by
  obtain ⟨a, l, d, p, b, o, q, hw, hq⟩ := busWrite32_frame off v s
  rw [hw, hq hr]
  exact { Undisturbed.refl s with }

theorem dropInput_undisturbed {s : State} {x : Input} {rest : List Input} (h : s.inputs = x :: rest) :
    Undisturbed s { s with inputs := rest } :=
  (Undisturbed.refl s).withInputs (h ▸ List.subset_cons_self x rest)

/-- A polling loop reads STATUS, and stays in the queue or leaves it (R77). -/
theorem pollStep_undisturbed (done : Bool) {s : State} {x : Input} {rest : List Input} (h : s.inputs = x :: rest) :
    Undisturbed s (pollStep done rest s) := by
  refine (hostRead_undisturbed _ s).withInputs ?_
  cases done with
  | true => exact h ▸ List.subset_cons_self x rest
  | false => exact List.Subset.refl _

/-- A host that neither resets the block nor changes flash leaves a run alone (R167). -/
theorem inputStep_undisturbed {s t : State} (hr : s.run = true) (ha : LeftAlone s) (h : inputStep s = .next t) :
    Undisturbed s t := by
  unfold inputStep at h
  split at h
  · -- idle
    cases h
    exact .refl s
  · -- a write
    rename_i hi
    split at h
    · cases h
      exact (dropInput_undisturbed hi).trans (busWrite32_undisturbed _ _ hr)
    · cases h
  · -- a read
    rename_i hi
    split at h
    · cases h
      exact (dropInput_undisturbed hi).trans (hostRead_undisturbed _ _)
    · cases h
  · -- POLL
    rename_i hi
    cases h
    exact pollStep_undisturbed _ hi
  · -- WAITRUN
    rename_i hi
    cases h
    exact pollStep_undisturbed _ hi
  · -- the reset input
    rename_i hi
    exact absurd rfl (ha.2 _ (hi ▸ List.mem_cons_self)).1
  · -- an outside change of flash
    rename_i hi
    exact absurd rfl ((ha.2 _ (hi ▸ List.mem_cons_self)).2 _ _)

/-! ### A handoff under way (R150 to R156) -/

/-- A no-fault handoff that is left alone stands at STATE `k` of Read, Erase, Write, Check and End: before Write the
range is erased, before Check the record region verifies. -/
structure HandingOff (k : Nat) (s : State) : Prop where
  params : s.params.WellFormed
  table : TableReady s
  running : s.run = true
  alone : LeftAlone s
  state : s.seqState = BitVec.ofNat 3 k
  flashWf : Memory.wf s.flash
  quiet : s.oracle.Quiet
  erased : k = 2 → ∀ a, s.params.recordAddr ≤ a → a < s.params.userEnd → Memory.read s.flash a = Config.erased
  verifies : k = 3 → verify s.params s.table (recordBytes s) = true

theorem Undisturbed.handingOff {s t : State} {k : Nat} (h : Undisturbed s t) (hs : HandingOff k s) :
    HandingOff k t where
  params := h.params ▸ hs.params
  table := ⟨h.tblValid.trans hs.table.1, h.table.trans hs.table.2⟩
  running := h.run.trans hs.running
  alone := ⟨h.resetPin.trans hs.alone.1, fun x hx => hs.alone.2 x (h.inputs hx)⟩
  state := h.seqState.trans hs.state
  flashWf := h.flash ▸ hs.flashWf
  quiet := h.quiet hs.quiet
  erased := by rw [h.params, h.flash]; exact hs.erased
  verifies := by rw [recordBytes, h.params, h.table, h.flash]; exact hs.verifies

/-- A step that is not the sequencer's leaves the handoff where it is. -/
theorem HandingOff.step_other {s t : State} {k : Nat} (h : HandingOff k s) (hs : step s = .next t)
    (hturn : s.nextTurn ≠ some .sequencer) : HandingOff k t := by
  rcases step_next hs with ⟨hp, -⟩ | ⟨-, ⟨-, rfl⟩ | ⟨u, hu, ht⟩⟩
  · exact absurd (hp.symm.trans h.alone.1) nofun
  · exact h
  · have h' := (tookTurn_undisturbed s).handingOff h
    cases u with
    | command => exact (commandStep_undisturbed h'.running ht).handingOff h'
    | sequencer => exact absurd hu hturn
    | host => exact (inputStep_undisturbed h'.running h'.alone ht).handingOff h'

/-- A sequencer step before End takes the handoff to the next STATE (R150, R151, R152, R154). -/
theorem HandingOff.advance {k : Nat} {s : State} (h : HandingOff k s) (hk : k < 4) :
    HandingOff (k + 1) (sequencerStep s) := by
  obtain ⟨hp, ht, hrun, halone, hq, hw, ho, herased, hverifies⟩ := h
  match k, hk with
  | 0, _ => -- Read
    rw [sequencerStep_read hp hq]
    exact ⟨hp, ht, hrun, halone, rfl, hw, ho, nofun, nofun⟩
  | 1, _ => -- Erase
    obtain ⟨f, o, he, hf, ho', hread⟩ := sequencerStep_erase_quiet hp hw ho hq
    rw [he]
    exact ⟨hp, ht, hrun, halone, rfl, hf, ho', fun _ a h1 h2 => (hread a).trans (if_pos ⟨h1, h2⟩), nofun⟩
  | 2, _ => -- Write
    obtain ⟨f, o, he, hf, ho', hread⟩ := programRecord_quiet 1 hp hw ho (herased rfl)
    have hover : RecordOver s s.flash f := hread
    rw [sequencerStep_write hq he hq, if_pos rfl]
    refine ⟨hp, ht, hrun, halone, rfl, hf, ho', nofun, fun _ => ?_⟩
    have hback := hover.readBytes hp
    dsimp only [recordBytes]
    rw [hback, ht.2]
    exact verify_serialize hp 1
  | 3, _ => -- Check
    rw [sequencerStep_check_passes hp hq (hverifies rfl)]
    exact ⟨hp, ht, hrun, halone, rfl, hw, ho, nofun, nofun⟩

/-- A sequencer's turn of the machine is the sequencer step. -/
theorem HandingOff.step_sequencer {s t : State} {k : Nat} (h : HandingOff k s) (hs : step s = .next t)
    (hturn : s.nextTurn = some .sequencer) : t = sequencerStep s.tookTurn := by
  rw [step_of_nextTurn_some h.alone.1 hturn] at hs
  exact (Host.Outcome.next.inj hs).symm

/-! ### Fair runs (R146) -/

section Fair

variable {r : Nat → State} (hrun : IsRun r) (hfair : WeaklyFair r)

include hrun hfair

/-- A handoff under way gets its next sequencer turn: until then it stays where it is, enabled. -/
theorem HandingOff.exists_sequencer_turn {k n : Nat} (h : HandingOff k (r n)) :
    ∃ m, HandingOff k (r m) ∧ (r m).nextTurn = some .sequencer := by
  by_contra hnever
  push Not at hnever
  have hstays : ∀ m, n ≤ m → HandingOff k (r m) := fun m hm =>
    Nat.le_induction h (fun m _ ih => ih.step_other (hrun m) (hnever m ih)) m hm
  obtain ⟨m, hm, hturn⟩ := hfair .sequencer nofun n fun m hm => (sequencer_enabled _).2 (hstays m hm).running
  exact hnever m (hstays m hm) hturn

/-- A handoff that is at Read comes to every STATE up to End. -/
theorem HandingOff.reaches {k : Nat} (h : HandingOff 0 (r 0)) (hk : k ≤ 4) : ∃ n, HandingOff k (r n) := by
  induction k with
  | zero => exact ⟨0, h⟩
  | succ k ih =>
    obtain ⟨n, hn⟩ := ih (Nat.le_of_succ_le hk)
    obtain ⟨m, hm, hturn⟩ := hn.exists_sequencer_turn hrun hfair
    refine ⟨m + 1, ?_⟩
    rw [hm.step_sequencer (hrun m) hturn]
    exact ((tookTurn_undisturbed _).handingOff hm).advance hk

end Fair

/-- Settles O45: fairness takes the handoff through its five states, and the End step requests the restart. -/
theorem fairNoFaultHandoffCompletes : Obligations.FairNoFaultHandoffCompletes := by
  unfold Obligations.FairNoFaultHandoffCompletes
  intro r hrun hfair hp hw ht ho hr _ hq halone
  have hstart : HandingOff 0 (r 0) := ⟨hp, ht, hr, halone, hq, hw, ho, nofun, nofun⟩
  obtain ⟨n, hn⟩ := hstart.reaches hrun hfair (Nat.le_refl 4)
  obtain ⟨m, hm, hturn⟩ := hn.exists_sequencer_turn hrun hfair
  have hend : r (m + 1) = _ := (hm.step_sequencer (hrun m) hturn).trans (sequencerStep_end hm.state)
  exact ⟨m + 1, by rw [hend]; exact ⟨rfl, rfl, rfl⟩⟩

end Sys2Proof.Machine
end

section
/-! SUPPORT. The BUSY check (60_exceptions.md R172, R173) and the order of a pending command and a sequencer step (R177):
a sequencer step leaves a run or a restart request behind it, so the command is rejected with BUSY on either side of it,
and what that rejection writes no sequencer step reads (R149). -/

namespace Sys2Proof.Machine

open Sys2Proof.Safety

/-! ### Commands during a run or a restart request (R173) -/

/-- Settles O7: BUSY is the first check of every command (R172), and a failed check changes only ERR and BUSY. -/
theorem commandsRejectedWhileRunning : Obligations.CommandsRejectedWhileRunning := by
  unfold Obligations.CommandsRejectedWhileRunning
  intro i s h
  exact exec_of_check_fails (check_busy h) nofun

/-- BUSY comes before ILLEGAL (R172): it rejects every pending word, a command or not. -/
theorem commandStep_busy {s : State} (h : s.run = true ∨ s.rstReq = true) : commandStep s = ends s .busy := by
  cases hd : decode s.pend with
  | ok i => exact (commandStep_of_decode_ok hd).trans (commandsRejectedWhileRunning i s h)
  | error r =>
    have hreject : rejectIllegal s = s.finish .busy := by rw [rejectIllegal, if_pos h]
    rw [commandStep_of_decode_error hd, hreject]
    rfl

/-! ### The order of a pending command and a sequencer step (R177) -/

/-- The schedule admits every enabled agent as the next one (R177). -/
theorem step_of_scheduled {s : State} {t : Turn} (hp : s.resetPin = false) (ht : t ∈ s.enabled) :
    step { s with sched := t :: s.sched } = turnStep t { s with oracle := s.oracle.tick } :=
  step_of_nextTurn_some (s := { s with sched := t :: s.sched }) hp (nextTurn_of_scheduled ht rfl)

/-- A sequencer step of a run goes on with it, or ends it in a restart request (R156). -/
theorem sequencerStep_run_or_rstReq {s : State} (h : s.run = true) :
    (sequencerStep s).run = true ∨ (sequencerStep s).rstReq = true := by
  rcases sequencerStep_cases s with ⟨-, he⟩ | ⟨f, o, l, b, i, c, q, ev, he⟩
  · exact .inr (by rw [he]; rfl)
  · exact .inl (by rw [he]; exact h)

/-- Settles O6: the schedule admits both agents, and the sequencer step commutes with writing ERR and BUSY. -/
theorem commandAndSequencerStepCommute : Obligations.CommandAndSequencerStepCommute := by
  unfold Obligations.CommandAndSequencerStepCommute
  intro s hr
  refine ⟨fun hp hb => ⟨⟨_, step_of_scheduled hp ((command_enabled s).2 hb)⟩,
    ⟨_, step_of_scheduled hp ((sequencer_enabled s).2 hr)⟩⟩, commandStep_busy (.inl hr), ?_⟩
  obtain ⟨st, r, se, rr, ob, n, l, e, f, o, he⟩ := sequencerStep_frame s
  have hpatch : sequencerStep { s with err := .busy, busy := false } =
      { sequencerStep s with err := .busy, busy := false } := by
    have h := sequencerStep_patch s.addr s.len s.dbuf s.crcAcc s.vok .busy false s
    rw [he] at h ⊢
    exact h
  rw [commandStep_busy (sequencerStep_run_or_rstReq hr), hpatch]

end Sys2Proof.Machine
end

section
/-! SUPPORT. The reset (70_reset_and_hazards.md R190; 10_state.md R43): an active reset input decides the step, whatever
is pending. -/

namespace Sys2Proof.Machine

/-- An active reset input takes the step before any agent gets a turn (R177, R190). -/
theorem step_of_resetPin {s : State} (hp : s.resetPin = true) : step s = .next (resetEvent s) := by
  simp [step, hp]

/-- After a reset STATUS has LOCK set and nothing else (R43): of the sum of its fields (R24) only LOCK's 4 is left. -/
theorem resetEvent_statusWord (s : State) : (resetEvent s).statusWord = 0x00000004#32 :=
  BitVec.eq_of_toNat_eq (statusWord_toNat (resetEvent s))

/-- Settles O46: the step is the reset's, and STATUS is read from the block after it. The table and PEND that the
statement leaves open are the zeros of `State.resetOf`. -/
theorem resetTakesPrecedence : Obligations.ResetTakesPrecedence := by
  unfold Obligations.ResetTakesPrecedence
  intro s hp
  have hread : busRead32 0x004 (resetEvent s) = ((resetEvent s).statusWord, resetEvent s) :=
    busRead32_reg (regAt_regOffset .status) (.inr (by decide))
  refine ⟨(resetEvent s).table, (resetEvent s).pend, resetEvent s, step_of_resetPin hp, rfl, ?_⟩
  rw [hread, resetEvent_statusWord]

end Sys2Proof.Machine
end
